-- ==== Sys2Proof/Word.lean ====
section
/-! DEFINITION. The plain words of the block: bytes, 16-bit lookaheads, 32-bit register words, and the
small closed choices that an operand field spells (R10: every value is unsigned, bit 0 is the least
significant bit). -/

namespace Sys2Proof

/-- One source, window or output byte (R60, R61, R63). -/
abbrev Byte := BitVec 8

/-- A 16-bit value: the lookahead of R111, a boundary entry of R9. -/
abbrev Half := BitVec 16

/-- A 32-bit register or command word (R41, R90). -/
abbrev Word := BitVec 32

/-- The operand t of DECODE (R121): which fixed table pair decodes. -/
inductive TableSel where
  | sym   -- t = 0, SYM_TBL
  | dist  -- t = 1, DIST_TBL
deriving DecidableEq, Repr, Inhabited

/-- DecoderMode (R36): LH = LiteralHuffmanMode, RL = RunLengthMode. -/
inductive Mode where
  | lh
  | rl
deriving DecidableEq, Repr, Inhabited

/-- The bit that stands for a mode in STATUS[8] and CFG_CTRL[0] (R36, R41): 0 = LH, 1 = RL. -/
def Mode.bit : Mode → Bool
  | .lh => false
  | .rl => true

/-- The mode that a bit stands for (R36). -/
def Mode.ofBit (b : Bool) : Mode := if b then .rl else .lh

@[simp] theorem Mode.ofBit_bit (m : Mode) : Mode.ofBit m.bit = m := by cases m <;> rfl
@[simp] theorem Mode.bit_ofBit (b : Bool) : (Mode.ofBit b).bit = b := by cases b <;> rfl

/-- The width of a host access to the register space (R71): only whole words are inside the interface. -/
inductive AccessSize where
  | byte
  | half
  | word
deriving DecidableEq, Repr, Inhabited

end Sys2Proof
end

