-- ==== Sys2Proof/Config.lean ====
section
/-! DEFINITION. The parameters of the block: the named constants of R5, the table pairs of R9, the decided parameters
of R6 with their defaults, the OPEN parameters of R7 and R74 as opaque constants, and the free values. -/

namespace Sys2Proof

/-! ### Fixed constants (R5), each under its own name (93 I8) -/

/-- ACC_BITS: the accumulator's width, and the largest valid-bit count. -/
def Config.accBits : Nat := 32
/-- REFILL_BASE: a new byte is folded at bit offset REFILL_BASE − VALID. -/
def Config.refillBase : Nat := 24
/-- LOOKAHEAD_BITS: the width of the peek value. -/
def Config.lookaheadBits : Nat := 16
/-- DECODE_MASK: the lookahead's low 4 bits are cleared before a decode. -/
def Config.decodeMask : Half := 0xFFF0
/-- MAX_TABLE_ENTRIES: a boundary table has at most 8 entries. -/
def Config.maxTableEntries : Nat := 8
/-- SYM_ALPHABET: the ranks are 0..255. -/
def Config.symAlphabet : Nat := 256
/-- QUOTA: a placement counter above this triggers correct(). -/
def Config.quota : Nat := 0xA1
/-- NHFB_SAT: the saturation level of the first saturating counter. -/
def Config.nhfbSat : Nat := 0xFF
/-- NHFB_RELOAD: the value the first counter is reset to. -/
def Config.nhfbReload : Byte := 0x90
/-- ESC_VALUE, high byte: the byte of the escape value emitted first (R68). -/
def Config.escHigh : Byte := 0x01
/-- ESC_VALUE, low byte: the byte of the escape value emitted second (R68). -/
def Config.escLow : Byte := 0x00
/-- SWITCH_COUNT: the literal count that fires LH → RL. -/
def Config.switchCount : Nat := 16
/-- DIST_EXT_BITS: the low distance bits appended after the distance code. -/
def Config.distExtBits : Nat := 5
/-- BACKREF_LENGTHS: the shorter back-reference length. -/
def Config.backrefShort : Nat := 3
/-- BACKREF_LENGTHS: the longer back-reference length. -/
def Config.backrefLong : Nat := 4
/-- EWMA_SHIFT: the decay is 1/256. -/
def Config.ewmaShift : Nat := 8

/-! ### Table pairs (R9) -/

/-- A table pair: start length, boundary table, base table. The alphabet size T.alpha is not a part of its own here:
it is SYM_ALPHABET for SYM_TBL and DIST_ALPHABET for DIST_TBL, and the decode takes it as an argument. -/
structure TablePair where
  /-- T.start, 0..16. -/
  start : Nat
  /-- T.bnd[0..n−1], 1 ≤ n ≤ 8, non-decreasing. -/
  bnd : List Half
  /-- T.base[0..16], indexed by code length. -/
  base : Vector Nat 17
deriving DecidableEq, Repr, Inhabited

/-- The constraints of R9 on a table pair. Nothing below rests on them: a table that breaks them is still decoded by
R120. -/
def TablePair.ok (t : TablePair) : Prop :=
  t.start ≤ 16 ∧ 1 ≤ t.bnd.length ∧ t.bnd.length ≤ Config.maxTableEntries ∧ t.bnd.Pairwise (fun a b => a.toNat ≤ b.toNat)

/-! ### Parameters (R6, R7, R74) -/

/-- PROMOTE_MODE (R6, R131; 90 C1): what promote does after a correction. -/
inductive PromoteMode where
  | spec
  | refloop
deriving DecidableEq, Repr, Inhabited

/-- FAR_DIST (R6, R142; 90 C6): ALIAS reads an address modulo C for a distance above C, FAULT raises. -/
inductive FarDist where
  | aliasing
  | fault
deriving DecidableEq, Repr, Inhabited

/-- The configuration of one block: every parameter of R6 and R7, and the platform bases of R74. Nothing in the block
writes it. The two parameters whose domain is 1..2^k are kept as their value less one, so that the domain holds by the
field's width. -/
structure Config where
  /-- SYM_TBL (R7, OPEN). -/
  symTbl : TablePair
  /-- DIST_TBL (R7, OPEN). -/
  distTbl : TablePair
  /-- ESC_THRESHOLD (R6, R7, OPEN). -/
  escThreshold : Half
  /-- WINDOW_MAX − 1 (R7, OPEN, domain of WINDOW_MAX 1..2^24). -/
  windowMaxM1 : BitVec 24
  /-- DIST_ALPHABET − 1 (R6, domain of DIST_ALPHABET 1..2048). -/
  distAlphabetM1 : BitVec 11
  /-- PROMOTE_MODE (R6). -/
  promoteMode : PromoteMode
  /-- RL_RANK_OFFSET (R6, domain 0 or 1). -/
  rlRankOffset : BitVec 1
  /-- FAR_DIST (R6). -/
  farDist : FarDist
  /-- AVR_INIT (R6, domain 0..0xFF00). -/
  avrInit : Half
  /-- NHFB_INIT (R6, domain 0..0xFE). -/
  nhfbInit : Byte
  /-- NLZB_INIT (R6, domain 0..0xFF). -/
  nlzbInit : Byte
  /-- NHFB_STEP (R6, domain 1..0xFF). -/
  nhfbStep : Byte
  /-- CORR_CAP (R6, domain 1). -/
  corrCap : Nat
  /-- REG_BASE (R74, OPEN): where a platform places the register space. No rule depends on it. DESIGN CHOICE: its width of
  32 bits, for which the spec gives no domain (log entry 22). -/
  regBase : Word
  /-- SRC_BASE (R74, OPEN): where a platform places the source array. No rule depends on it. DESIGN CHOICE: its width of
  32 bits, for which the spec gives no domain (log entry 22). -/
  srcBase : Word
deriving DecidableEq, Repr

/-- WINDOW_MAX (R7). -/
def Config.windowMax (c : Config) : Nat := c.windowMaxM1.toNat + 1

/-- DIST_ALPHABET (R6). -/
def Config.distAlphabet (c : Config) : Nat := c.distAlphabetM1.toNat + 1

/-- The domains of R6 that the fields' widths do not already enforce. -/
abbrev Config.ok (c : Config) : Prop :=
  c.avrInit.toNat ≤ 0xFF00 ∧ c.nhfbInit.toNat ≤ 0xFE ∧ 1 ≤ c.nhfbStep.toNat ∧ c.corrCap = 1

/-- The table pair and the alphabet size that DECODE's operand selects (R9, R121). -/
def Config.table (c : Config) : TableSel → TablePair × Nat
  | .sym => (c.symTbl, Config.symAlphabet)
  | .dist => (c.distTbl, c.distAlphabet)

/-! ### The OPEN parameters of the block at reset: uninterpreted constants (R7: no default is assumed) -/

/-- SYM_TBL of this block. -/
opaque Config.openSymTbl : TablePair
/-- DIST_TBL of this block. -/
opaque Config.openDistTbl : TablePair
/-- ESC_THRESHOLD of this block. -/
opaque Config.openEscThreshold : Half
/-- WINDOW_MAX − 1 of this block. -/
opaque Config.openWindowMaxM1 : BitVec 24
/-- REG_BASE of this platform. -/
opaque Config.openRegBase : Word
/-- SRC_BASE of this platform. -/
opaque Config.openSrcBase : Word

/-- The configuration that State.reset carries: the OPEN parameters uninterpreted, the decided ones at the defaults
of R6. A claim about every state is a claim about every configuration. -/
def Config.platform : Config where
  symTbl := Config.openSymTbl
  distTbl := Config.openDistTbl
  escThreshold := Config.openEscThreshold
  windowMaxM1 := Config.openWindowMaxM1
  distAlphabetM1 := 255
  promoteMode := .spec
  rlRankOffset := 0
  farDist := .aliasing
  avrInit := 0x3500
  nhfbInit := 0x80
  nlzbInit := 0x80
  nhfbStep := 16
  corrCap := 1
  regBase := Config.openRegBase
  srcBase := Config.openSrcBase

/-! ### Free values -/

/-- The n-th draw for a window byte that the current session has not written (R30, R145, 93 I3: any value, a draw for
each read). DESIGN CHOICE, safe: nothing constrains it. -/
opaque Config.freeByte : Nat → Byte

/-- What stands at a source position whose byte no host move has placed or handed over (R60: the host owns the array and its contents
are the host's). DESIGN CHOICE, safe: nothing constrains it, and it does not change while the source is held. -/
opaque Config.freeSource : Nat → Byte

end Sys2Proof
end

