-- ==== Sys2Proof/Syntax.lean ====
section
/-! DEFINITION. The instructions of the block, one constructor per row of spec/opcode_table.json: the
command words of R91 (with the reserved row of R92) and the bitstream tokens of R82 and R83. -/

namespace Sys2Proof

/-- Every row of the opcode table. A command's fields are the operand fields of R91, a token's fields are those
of R82 and R83. -/
inductive Instr where
  /-- NOP (R184). -/
  | nop
  /-- START (R181). -/
  | start
  /-- STEP (R150). -/
  | step
  /-- RUN (R182). -/
  | run
  /-- ABORT (R183). -/
  | abort
  /-- PEEK (R111). -/
  | peek
  /-- CONSUME n, n = w[4:0] (R112). -/
  | consume (n : BitVec 5)
  /-- DECODE t, t = w[0] (R121). -/
  | decode (t : TableSel)
  /-- LOOKUP r, r = w[7:0] (R130). -/
  | lookup (r : Byte)
  /-- PROMOTE r, r = w[7:0] (R131). -/
  | promote (r : Byte)
  /-- CORRECT (R132). -/
  | correct
  /-- PUSH b, b = w[7:0] (R141). -/
  | push (b : Byte)
  /-- COPY d, len: d = w[15:0], len = w[23:16] (R142). -/
  | copy (d : BitVec 16) (len : Byte)
  /-- RDWIN a, a = w[23:0] (R145). -/
  | rdwin (a : BitVec 24)
  /-- RDPC v, v = w[7:0] (R134). -/
  | rdpc (v : Byte)
  /-- The reserved row OP 0xF, with its 28 remaining bits (R92). -/
  | reserved (x : BitVec 28)
  /-- LIT-LH: SYM(r) in LiteralHuffmanMode (R151). -/
  | litLH (r : Byte)
  /-- LIT-RL: SYM(r), r not 0, in RunLengthMode (R152). -/
  | litRL (r : Byte)
  /-- ESC: SYM(0) with the lookahead above ESC_THRESHOLD (R153). -/
  | esc
  /-- SWITCH: SYM(0) 1 (R154). -/
  | switch
  /-- BACKREF: SYM(0) 0 l DIST(d) e (R155); d is below DIST_ALPHABET, so at most 2047 (R6). -/
  | backref (l : Bool) (d : BitVec 11) (e : BitVec 5)
deriving DecidableEq, Repr

end Sys2Proof
end

