-- ==== Sys2Proof/WellFormed.lean ====
section
/-! DEFINITION. The checks on an instruction's fields that the spec states and that its fields' widths do not
already enforce: the legal values of CONSUME (R91, R92) and of LIT-RL's rank (R83, R152). The range of RDWIN depends
on the session's capacity and is checked when the command executes (R180). -/

namespace Sys2Proof

/-- An instruction whose operands lie in the legal values the spec lists for it. -/
def Instr.wellFormed : Instr → Bool
  | .nop => true
  | .start => true
  | .step => true
  | .run => true
  | .abort => true
  | .peek => true
  | .consume n => decide (n.toNat ≤ 16)
  | .decode _ => true
  | .lookup _ => true
  | .promote _ => true
  | .correct => true
  | .push _ => true
  | .copy _ _ => true
  | .rdwin _ => true
  | .rdpc _ => true
  | .reserved _ => true
  | .litLH _ => true
  | .litRL r => decide (r ≠ 0)
  | .esc => true
  | .switch => true
  | .backref _ _ _ => true

end Sys2Proof
end

