-- ==== Sys2Proof/Decode.lean ====
section
/-! DEFINITION. Decoding and encoding: the command words of R90 to R92 by the match and mask of R91, the code space of a
table pair (R80, R81, R120), and the bitstream tokens of R82 and R83 with an encoder for each. -/

namespace Sys2Proof

/-! ### Command words -/

/-- Why a word written to CMD is no legal command (R92). -/
inductive Reject where
  /-- No row of R91 has (w AND mask) = match: a reserved bit is not zero. -/
  | noRow
  /-- The row's operand is outside its legal values: CONSUME n with n > 16. -/
  | operandRange
deriving DecidableEq, Repr

/-- One row of R91: its match and mask, and the operand fields read from a word that matches. -/
structure Row where
  pattern : Word
  mask : Word
  operands : Word → Instr

/-- A word matches a row when (w AND mask) = match (R91). -/
def Row.accepts (r : Row) (w : Word) : Bool := (w &&& r.mask) == r.pattern

/-- The table selected by the operand bit t of DECODE (R121). -/
def TableSel.ofBit (b : Bool) : TableSel := if b then .dist else .sym

/-- The operand bit t of DECODE (R121). -/
def TableSel.bit : TableSel → BitVec 1
  | .sym => 0#1
  | .dist => 1#1

/-- The opcode map of R91, in its order. The mask of RDWIN takes in w[27:24], which are no operand field and so reserved
(R90, R91's last sentence, R92), where R91's mask cell reads 0xF0000000. DEDUCED: log entry 21. -/
def rows : List Row := [
  ⟨0x00000000, 0xFFFFFFFF, fun _ => .nop⟩,
  ⟨0x10000000, 0xFFFFFFFF, fun _ => .start⟩,
  ⟨0x20000000, 0xFFFFFFFF, fun _ => .step⟩,
  ⟨0x30000000, 0xFFFFFFFF, fun _ => .run⟩,
  ⟨0x40000000, 0xFFFFFFFF, fun _ => .abort⟩,
  ⟨0x50000000, 0xFFFFFFFF, fun _ => .peek⟩,
  ⟨0x60000000, 0xFFFFFFE0, fun w => .consume (w.extractLsb' 0 5)⟩,
  ⟨0x70000000, 0xFFFFFFFE, fun w => .decode (.ofBit (w.getLsbD 0))⟩,
  ⟨0x80000000, 0xFFFFFF00, fun w => .lookup (w.extractLsb' 0 8)⟩,
  ⟨0x90000000, 0xFFFFFF00, fun w => .promote (w.extractLsb' 0 8)⟩,
  ⟨0xA0000000, 0xFFFFFFFF, fun _ => .correct⟩,
  ⟨0xB0000000, 0xFFFFFF00, fun w => .push (w.extractLsb' 0 8)⟩,
  ⟨0xC0000000, 0xFF000000, fun w => .copy (w.extractLsb' 0 16) (w.extractLsb' 16 8)⟩,
  ⟨0xD0000000, 0xFF000000, fun w => .rdwin (w.extractLsb' 0 24)⟩,
  ⟨0xE0000000, 0xFFFFFF00, fun w => .rdpc (w.extractLsb' 0 8)⟩,
  ⟨0xF0000000, 0xF0000000, fun w => .reserved (w.extractLsb' 0 28)⟩]

/-- The command that a word written to CMD spells, or the reason why it spells none (R90 to R92). The range of RDWIN is
the session's, so it is left to the command's acceptance (R180). -/
def decode (w : Word) : Except Reject Instr :=
  match rows.find? (fun r => r.accepts w) with
  | none => .error .noRow
  | some r => if (r.operands w).wellFormed then .ok (r.operands w) else .error .operandRange

/-- The instruction that the decoder reads from the word whose low nbits bits are those of w, every bit above them
zero. A command is one register word, so the words need no byte order (R69). -/
def decodeTableWord (nbits w : Nat) : Option Instr :=
  match decode (BitVec.ofNat 32 (w % 2 ^ nbits)) with
  | .ok i => some i
  | .error _ => none

/-- The word of a command (R90, R91); a token has no command word. -/
def encode : Instr → Option Word
  | .nop => some 0x00000000
  | .start => some 0x10000000
  | .step => some 0x20000000
  | .run => some 0x30000000
  | .abort => some 0x40000000
  | .peek => some 0x50000000
  | .consume n => some (0x6#4 ++ 0#23 ++ n)
  | .decode t => some (0x7#4 ++ 0#27 ++ t.bit)
  | .lookup r => some (0x8#4 ++ 0#20 ++ r)
  | .promote r => some (0x9#4 ++ 0#20 ++ r)
  | .correct => some 0xA0000000
  | .push b => some (0xB#4 ++ 0#20 ++ b)
  | .copy d len => some (0xC#4 ++ 0#4 ++ len ++ d)
  | .rdwin a => some (0xD#4 ++ 0#4 ++ a)
  | .rdpc v => some (0xE#4 ++ 0#20 ++ v)
  | .reserved x => some (0xF#4 ++ x)
  | .litLH _ => none
  | .litRL _ => none
  | .esc => none
  | .switch => none
  | .backref _ _ _ => none

/-! ### Codes of a table pair (R80, R81, R120) -/

/-- The class that a masked lookahead m selects: the smallest index whose boundary exceeds m, with the boundary before
it (0 before the first). The search is linear (R120); i and lo are the index and the boundary reached so far. -/
def findClass : List Half → Nat → Nat → Nat → Option (Nat × Nat)
  | [], _, _, _ => none
  | b :: bs, m, i, lo => if m < b.toNat then some (i, lo) else findClass bs m (i + 1) b.toNat

/-- The symbol and the code length that a lookahead spells under a table pair with alphabet size alpha, with R120's
checks in their order; none is CorruptTable, before any bit is consumed. -/
def classify (t : TablePair) (alpha : Nat) (lookahead : Half) : Option (Nat × Nat) :=
  let m := (lookahead &&& Config.decodeMask).toNat
  match findClass t.bnd m 0 0 with
  | none => none
  | some (i, lo) =>
    let k := t.start + i
    if h : k < 17 then
      let s := ((m - lo) >>> (16 - k)) + t.base[k]
      if alpha ≤ s then none else some (s, k)
    else none

/-- The k bits of a value, most significant first (R66, R67). -/
def msbBits : Nat → Nat → List Bool
  | 0, _ => []
  | k + 1, v => v.testBit k :: msbBits k v

/-- The code that class i of a table pair has for a symbol, given the boundary lo before the class: the top k bits of the
symbol's masked lookahead, kept only if every lookahead that begins with them is that symbol at that length, for which
its two ends decide. -/
def classCode (t : TablePair) (alpha s i lo : Nat) : Option (List Bool) :=
  let k := t.start + i
  if h : k < 17 then
    if t.base[k] ≤ s then
      let code := (lo + (s - t.base[k]) * 2 ^ (16 - k)) / 2 ^ (16 - k)
      let low := code * 2 ^ (16 - k)
      if low + 2 ^ (16 - k) ≤ 2 ^ 16
          ∧ classify t alpha (BitVec.ofNat 16 low) = some (s, k)
          ∧ classify t alpha (BitVec.ofNat 16 (low + 2 ^ (16 - k) - 1)) = some (s, k) then
        some (msbBits k code)
      else none
    else none
  else none

/-- The first class, from index i on, that has a code for a symbol. -/
def codeFrom (t : TablePair) (alpha s : Nat) : List Half → Nat → Nat → Option (List Bool)
  | [], _, _ => none
  | b :: bs, i, lo =>
    match classCode t alpha s i lo with
    | some c => some c
    | none => codeFrom t alpha s bs (i + 1) b.toNat

/-- A code of a symbol under a table pair, most significant bit first (R80): SYM(r) and DIST(d). -/
def symbolCode (t : TablePair) (alpha s : Nat) : Option (List Bool) := codeFrom t alpha s t.bnd 0 0

/-! ### Bitstream tokens (R82, R83) -/

/-- A token of the bitstream with its operands: what one STEP reads (R80 to R86). -/
inductive Token where
  | litLH (r : Byte)
  | litRL (r : Byte)
  | esc
  | switch
  | backref (l : Bool) (d : BitVec 11) (e : BitVec 5)
deriving DecidableEq, Repr

/-- A token as the instruction of the opcode table. -/
def Token.toInstr : Token → Instr
  | .litLH r => .litLH r
  | .litRL r => .litRL r
  | .esc => .esc
  | .switch => .switch
  | .backref l d e => .backref l d e

/-- The bits of a token under a configuration, first to last (R82, R83); none where the table pair has no code for an
operand, or LIT-RL has rank 0. Whether SYM(0) is read as ESC or as SWITCH and BACKREF is decided by the lookahead it
stands in (R83). -/
def encodeToken (c : Config) : Token → Option (List Bool)
  | .litLH r => symbolCode c.symTbl Config.symAlphabet r.toNat
  | .litRL r => if r = 0 then none else symbolCode c.symTbl Config.symAlphabet r.toNat
  | .esc => symbolCode c.symTbl Config.symAlphabet 0
  | .switch => (symbolCode c.symTbl Config.symAlphabet 0).map (fun z => z ++ [true])
  | .backref l d e =>
    match symbolCode c.symTbl Config.symAlphabet 0, symbolCode c.distTbl c.distAlphabet d.toNat with
    | some z, some ds => some (z ++ [false, l] ++ ds ++ msbBits Config.distExtBits e.toNat)
    | _, _ => none

end Sys2Proof
end

