-- ==== Sys2Proof/Machine/State.lean ====
section
/-! DEFINITION. The state of the block as plain data, one record per component of R1 (BitReader, AdaptiveSymbolTable,
OutputWindow, Decoder) and one each for the error record, the configuration registers, the status flags and the host; the
ways a step can stop; and the state after reset (R47, R230). -/

namespace Sys2Proof.Machine

/-! ### Stops -/

/-- Why the machine stops with a fault. No instruction raises one: each is a host move that the spec does not give. -/
inductive Fault where
  /-- The host moved to change a byte of SRC[0..SES_SRC_LEN−1] during a session. Raised by the host move place alone
  (93 I9: stuck, no move; R77, R235). Safe: the block's own behaviour is not cut short. -/
  | sourceHeld
deriving DecidableEq, Repr

/-- Why the model gives no meaning. -/
inductive Refusal where
  /-- An instruction that has no meaning yet. Raised by exec's arm of that instruction alone. Safe. -/
  | notModelled (mnemonic : String)
  /-- A sub-word or misaligned host access to the register space: no step is defined (R71, 93 I2: refuse). Raised by the
  host moves read and write alone. Safe: such an access is outside the interface. -/
  | registerAccess
deriving DecidableEq, Repr

/-! ### Errors of the block (R200) -/

/-- ERR_KIND: no error, or one of the six kinds of R200. -/
inductive ErrKind where
  | none
  | bitstreamExhausted
  | invalidBackReference
  | corruptTable
  | outputOverrun
  | illegalCommand
  | invalidConfig
deriving DecidableEq, Repr, Inhabited

/-- The code of an error kind (R200). -/
def ErrKind.code : ErrKind → BitVec 4
  | .none => 0
  | .bitstreamExhausted => 1
  | .invalidBackReference => 2
  | .corruptTable => 3
  | .outputOverrun => 4
  | .illegalCommand => 5
  | .invalidConfig => 6

/-! ### Byte spaces -/

/-- A byte space (the source of R60, the window RAM of R61): the listed bytes, addresses strictly rising. -/
abbrev Memory := List Host.Cell

/-- What an address that no cell lists reads as: no value of its own (R30, R60 give none). -/
def Memory.unlisted : Option Byte := none

/-- The canonical form: addresses strictly rise. As an unlisted address reads as no value, no entry can equal it. -/
abbrev Memory.wf (m : Memory) : Prop := m.Pairwise (fun x y => x.1 < y.1)

/-! ### Components -/

/-- BitReader (R23 to R25, R27). -/
structure BitReader where
  /-- ACC: the accumulator, valid bits left-aligned (R23). -/
  acc : Word
  /-- VALID: the count of valid bits (R24). -/
  valid : BitVec 6
  /-- SRC_POS: the index of the next source byte (R25). -/
  srcPos : Word
  /-- SES_SRC_LEN: the session's source length (R27). -/
  sesSrcLen : Word
deriving DecidableEq, Repr

/-- AdaptiveSymbolTable (R28, R29, R46). -/
structure SymTable where
  /-- TABLE[0..255]: the literal byte at each rank (R28). -/
  table : Vector Byte 256
  /-- PC[0..255]: the placement counter of each byte value (R29). -/
  pc : Vector Byte 256
deriving DecidableEq, Repr

/-- OutputWindow (R30 to R35, R63). -/
structure Window where
  /-- WIN: the window RAM (R30, R61). -/
  ram : Memory
  /-- C: the session's capacity (R31). -/
  cap : Word
  /-- WPTR: the write cursor (R32). -/
  wptr : Word
  /-- REMAINING: the bytes still owed (R33). -/
  remaining : Word
  /-- PRODUCED: the bytes written since the session started (R34). -/
  produced : Word
  /-- OUT: the output stream of the session, first byte first (R63). -/
  out : List Byte
  /-- The model's own field, not the spec's: how many free window bytes have been drawn (93 I3). -/
  draws : Nat
deriving DecidableEq, Repr

/-- Decoder registers (R36 to R40). -/
structure Decoder where
  /-- MODE (R36). -/
  mode : Mode
  /-- NUM_HUF: the literal counter (R37). -/
  numHuf : Word
  /-- FLAG_CNT: the flag counter (R38). -/
  flagCnt : Byte
  /-- AVR: the EWMA estimator (R39). -/
  avr : Half
  /-- NHFB: the first saturating counter (R40). -/
  nhfb : Byte
  /-- NLZB: the paired counter (R40). -/
  nlzb : Byte
deriving DecidableEq, Repr

/-- The error record (R44, R201). -/
structure ErrRecord where
  /-- ERR_KIND. -/
  kind : ErrKind
  /-- ERR_IN_OFF: SRC_POS when the error was latched. -/
  inOff : Word
  /-- ERR_OUT_OFF: PRODUCED when the error was latched. -/
  outOff : Word
deriving DecidableEq, Repr

/-- The configuration registers (R41), which the host writes and only START reads (R233). -/
structure CfgRegs where
  /-- CFG_SRC_LEN. -/
  srcLen : Word
  /-- CFG_OUT_LEN. -/
  outLen : Word
  /-- CFG_WIN_CAP. -/
  winCap : Word
  /-- CFG_CTRL: bit 0 INIT_MODE, bits 15..8 FLAG_CNT_INIT, the others reserved. -/
  ctrl : Word
deriving DecidableEq, Repr

/-- The stored status flags of R42, RESULT (R43) and the hidden request latch (R45). DONE, ERR and STATUS.MODE are
computed on read. -/
structure Control where
  /-- STATUS.ACTIVE. -/
  active : Bool
  /-- STATUS.BUSY. -/
  busy : Bool
  /-- STATUS.ABORTED. -/
  aborted : Bool
  /-- STATUS.CMD_DROPPED. -/
  cmdDropped : Bool
  /-- ABORT_REQ (R45). -/
  abortReq : Bool
  /-- RESULT (R43). -/
  result : Word
deriving DecidableEq, Repr

/-- One turn of the host agent (R20, R240): a register access, a byte placed in the source space, a START that hands over
a source, a hardware reset, or a turn that it leaves to the core. -/
inductive HostMove where
  /-- A write of a value to a register offset (R41, R72). -/
  | write (offset : Word) (size : AccessSize) (value : Word)
  /-- A read of a register offset (R41, R72). -/
  | read (offset : Word) (size : AccessSize)
  /-- The host places a byte at a source position (R60, R231 step 1). -/
  | place (position : Word) (value : Byte)
  /-- A write of START to CMD that hands over the bytes of the new session's source, from position 0 on (R240's row
  START; log entry 23). -/
  | handOver (source : List Byte)
  /-- Hardware reset (R230). -/
  | reset
  /-- The host leaves this turn to the core (R182, R239: the two agents interleave in any order). -/
  | yield
deriving DecidableEq, Repr

/-- The host agent. Both fields are the model's own: the turns it will take, in order, and the word that its last
register read returned. -/
structure HostSide where
  script : List HostMove
  rdata : Word
deriving DecidableEq, Repr

/-- The state of the block and its host. -/
structure State where
  /-- The parameters of R6 and R7; no step writes them. -/
  cfg : Config
  /-- The source space SRC (R60), which the host owns. -/
  src : Memory
  bits : BitReader
  tab : SymTable
  win : Window
  dec : Decoder
  err : ErrRecord
  cfgRegs : CfgRegs
  ctl : Control
  host : HostSide
deriving DecidableEq, Repr

/-! ### Reset (R47, R230) -/

/-- The identity table with zero counters (R28, R47, R132). -/
def SymTable.identity : SymTable where
  table := ⟨((List.range 256).map (BitVec.ofNat 8)).toArray, by simp⟩
  pc := Vector.replicate 256 0

/-- Every field at the value of R47's column "after reset", for a block with configuration c. No window byte has a
value, no source byte is placed, and the host has no turn to take. -/
def State.resetWith (c : Config) : State where
  cfg := c
  src := []
  bits := { acc := 0, valid := 0, srcPos := 0, sesSrcLen := 0 }
  tab := SymTable.identity
  win := { ram := [], cap := 0, wptr := 0, remaining := 0, produced := 0, out := [], draws := 0 }
  dec := { mode := .lh, numHuf := 0, flagCnt := 0, avr := c.avrInit, nhfb := c.nhfbInit, nlzb := c.nlzbInit }
  err := { kind := .none, inOff := 0, outOff := 0 }
  cfgRegs := { srcLen := 0, outLen := 0, winCap := 0, ctrl := 0 }
  ctl := { active := false, busy := false, aborted := false, cmdDropped := false, abortReq := false, result := 0 }
  host := { script := [], rdata := 0 }

/-- The machine right after reset. -/
def State.reset : State := State.resetWith Config.platform

end Sys2Proof.Machine
end

