-- ==== Sys2Proof/Machine/Ops.lean ====
section
/-! DEFINITION. The named operations over memory and registers: the byte spaces, BitReader (R110 to R112), the symbol
table (R130 to R132), the output window (R140, R142), the error latch (R201), command acceptance (R180) and the start of a
session (R181). -/

namespace Sys2Proof.Machine

/-! ### Operations that can raise (R12, R13) -/

/-- The end of an operation: done with a value, or an error raised; either way with the state that it leaves (R13, R202:
the writes of the sub-operations completed before the raise persist). -/
inductive Res (σ α : Type) where
  | done (a : α) (s : σ)
  | raise (e : ErrKind) (s : σ)
deriving DecidableEq, Repr

/-- Continue after a sub-operation; a raise in it ends every operation that called it (R201). -/
def Res.bind {σ α β : Type} (r : Res σ α) (f : α → σ → Res σ β) : Res σ β :=
  match r with
  | .done a s => f a s
  | .raise e s => .raise e s

/-! ### Byte spaces -/

/-- The byte at an address. -/
def Memory.read : Memory → Nat → Option Byte
  | [], _ => Memory.unlisted
  | (k, v) :: m, a => if a = k then some v else Memory.read m a

/-- The space with a byte stored at an address, in canonical form. -/
def Memory.write : Memory → Nat → Byte → Memory
  | [], a, v => [(a, v)]
  | (k, x) :: m, a, v =>
    if a < k then (a, v) :: (k, x) :: m
    else if a = k then (a, v) :: m
    else (k, x) :: Memory.write m a v

/-- The bytes of a list from an address on, in canonical form. -/
def Memory.ofList : Nat → List Byte → Memory
  | _, [] => []
  | p, v :: vs => (p, v) :: Memory.ofList (p + 1) vs

/-- SrcRead(p) (R12, R60): the byte at a source position; a free value where the host has given none. -/
def srcRead (src : Memory) (p : Nat) : Byte := (src.read p).getD (Config.freeSource p)

/-! ### BitReader (R110 to R112) -/

/-- The bit cursor BITPOS = 8·SRC_POS − VALID (R22). -/
def BitReader.bitpos (b : BitReader) : Int := 8 * (b.srcPos.toNat : Int) - (b.valid.toNat : Int)

/-- The condition of refill's loop: VALID ≤ 24 and the source is not empty (R110). -/
def BitReader.wants (b : BitReader) : Bool :=
  decide (b.valid.toNat ≤ Config.refillBase ∧ b.srcPos.toNat < b.sesSrcLen.toNat)

/-- The body of refill's loop: fold the next source byte in at offset 24 − VALID (R110). -/
def BitReader.fold (src : Memory) (b : BitReader) : BitReader :=
  { b with
    acc := b.acc ||| ((srcRead src b.srcPos.toNat).setWidth 32 <<< (Config.refillBase - b.valid.toNat))
    srcPos := b.srcPos + 1
    valid := b.valid + 8 }

/-- At most n iterations of refill's loop (R110). -/
def BitReader.refillLoop (src : Memory) : Nat → BitReader → BitReader
  | 0, b => b
  | n + 1, b => if b.wants then BitReader.refillLoop src n (b.fold src) else b

/-- refill (R110): at most 4 bytes are read per call, since VALID rises by 8 and stops above 24. -/
def BitReader.refill (src : Memory) (b : BitReader) : BitReader := BitReader.refillLoop src 4 b

/-- The lookahead ACC[31:16] (R111). -/
def BitReader.lookahead (b : BitReader) : Half := b.acc.extractLsb' 16 16

/-- peek() (R111): refill, then the 16-bit lookahead. It never fails. -/
def BitReader.peek (src : Memory) (b : BitReader) : Half × BitReader :=
  let b' := b.refill src
  (b'.lookahead, b')

/-- Discard the top n bits: ACC ← (ACC << n) mod 2^32, VALID ← VALID − n (R112). -/
def BitReader.drop (n : Nat) (b : BitReader) : BitReader :=
  { b with acc := b.acc <<< n, valid := BitVec.ofNat 6 (b.valid.toNat - n) }

/-- consume(n) (R112): refill, then discard n bits, or raise BitstreamExhausted where fewer than n are valid. -/
def BitReader.consume (src : Memory) (n : Nat) (b : BitReader) : Res BitReader Unit :=
  let b' := b.refill src
  if b'.valid.toNat < n then .raise .bitstreamExhausted b' else .done () (b'.drop n)

/-- decode_symbol(T) (R120): the symbol and the lookahead it was read from, with the code consumed. Every table check
comes before any bit is consumed. -/
def BitReader.decodeSymbol (classify : Half → Option (Nat × Nat)) (src : Memory) (b : BitReader) :
    Res BitReader (Nat × Half) :=
  let (lookahead, b') := b.peek src
  match classify lookahead with
  | none => .raise .corruptTable b'
  | some (s, k) => (b'.consume src k).bind fun _ b'' => .done (s, lookahead) b''

/-! ### AdaptiveSymbolTable (R130 to R132) -/

/-- The entry of a 256-entry array at an 8-bit index (R28, R29). -/
def entry (v : Vector Byte 256) (i : Byte) : Byte := v[i.toNat]'i.isLt

/-- A 256-entry array with one entry stored. -/
def setEntry (v : Vector Byte 256) (i x : Byte) : Vector Byte 256 := v.set i.toNat x i.isLt

/-- lookup(r) (R130). -/
def SymTable.lookup (t : SymTable) (r : Byte) : Byte := entry t.table r

/-- correct() (R132). -/
def SymTable.correct (_ : SymTable) : SymTable := SymTable.identity

/-- The updated placement counter c of the literal at rank r, before it is stored (R131). -/
def SymTable.count (t : SymTable) (r : Byte) : Nat := (entry t.pc (t.lookup r)).toNat + 1

/-- Store the counter c of the literal b at rank r, and exchange TABLE[r] with TABLE[c] (R131): TABLE[c] ← b, then
TABLE[r] ← the entry that stood at c. -/
def SymTable.exchange (t : SymTable) (r c : Byte) : SymTable :=
  { table := setEntry (setEntry t.table c (t.lookup r)) r (t.lookup c)
    pc := setEntry t.pc (t.lookup r) c }

/-- promote(r) with PROMOTE_MODE = SPEC (R131): above the quota it corrects, and neither stores nor exchanges. -/
def SymTable.promoteSpec (t : SymTable) (r : Byte) : SymTable :=
  if Config.quota < t.count r then t.correct else t.exchange r (BitVec.ofNat 8 (t.count r))

/-- promote(r) with PROMOTE_MODE = REFLOOP (R131), with the number of corrections that CORR_CAP still allows. -/
def SymTable.promoteLoop (r : Byte) : Nat → SymTable → Res SymTable Unit
  | 0, t =>
    if Config.quota < t.count r then .raise .corruptTable t
    else .done () (t.exchange r (BitVec.ofNat 8 (t.count r)))
  | n + 1, t =>
    if Config.quota < t.count r then SymTable.promoteLoop r n t.correct
    else .done () (t.exchange r (BitVec.ofNat 8 (t.count r)))

/-- promote(r) (R131) under the configured PROMOTE_MODE. -/
def SymTable.promote (c : Config) (r : Byte) (t : SymTable) : Res SymTable Unit :=
  match c.promoteMode with
  | .spec => .done () (t.promoteSpec r)
  | .refloop => SymTable.promoteLoop r c.corrCap t

/-! ### OutputWindow (R140 to R142, R145) -/

/-- x mod C, the non-negative remainder (R11). The capacity of a started session is at least 1 (R31). -/
def Window.wrap (w : Window) (x : Int) : Nat := (x % (w.cap.toNat : Int)).toNat

/-- window_write(b) (R140): WinWrite, OutEmit, and the three counters. -/
def Window.write (b : Byte) (w : Window) : Window :=
  { w with
    ram := w.ram.write w.wptr.toNat b
    out := w.out ++ [b]
    wptr := BitVec.ofNat 32 (w.wrap ((w.wptr.toNat : Int) + 1))
    remaining := w.remaining - 1
    produced := w.produced + 1 }

/-- Whether a window address has been written in the current session: the addresses below min(PRODUCED, C) are (R35). -/
def Window.written (w : Window) (a : Nat) : Bool := decide (a < min w.produced.toNat w.cap.toNat)

/-- The byte of the window that the session has written at an address, if it has (R30, R62). -/
def Window.held (w : Window) (a : Nat) : Option Byte := if w.written a then w.ram.read a else none

/-- WinRead(a) (R62): the byte written in the session, or a fresh free value where there is none (R30, 93 I3). -/
def Window.read (w : Window) (a : Nat) : Byte × Window :=
  match w.held a with
  | some b => (b, w)
  | none => (Config.freeByte w.draws, { w with draws := w.draws + 1 })

/-- push_literal(b) (R141). -/
def Window.push (b : Byte) (w : Window) : Res Window Unit :=
  if w.remaining = 0 then .raise .outputOverrun w else .done () (w.write b)

/-- The address (WPTR − dist) mod C that one iteration of copy_back reads (R142). -/
def Window.backAddr (w : Window) (dist : Nat) : Nat := w.wrap ((w.wptr.toNat : Int) - (dist : Int))

/-- One iteration of copy_back: read the byte dist back, and write it (R142). -/
def Window.copyByte (dist : Nat) (w : Window) : Window :=
  let (b, w') := w.read (w.backAddr dist)
  w'.write b

/-- copy_back's loop, one byte at a time, so that a later byte may read an earlier one (R72, R142). -/
def Window.copyLoop (dist : Nat) : Nat → Window → Window
  | 0, w => w
  | n + 1, w => Window.copyLoop dist n (w.copyByte dist)

/-- copy_back(dist, len) (R142): the checks in R203's order, all before the first write. -/
def Window.copyBack (far : FarDist) (dist len : Nat) (w : Window) : Res Window Unit :=
  if dist = 0 ∨ w.produced.toNat < dist then .raise .invalidBackReference w
  else if far = .fault ∧ w.cap.toNat < dist then .raise .invalidBackReference w
  else if w.remaining.toNat < len then .raise .outputOverrun w
  else .done () (Window.copyLoop dist len w)

/-- escape() (R153): the two bytes of the escape value, high byte first, or OutputOverrun with nothing written. -/
def Window.escape (w : Window) : Res Window Unit :=
  if w.remaining.toNat < 2 then .raise .outputOverrun w
  else .done () ((w.write Config.escHigh).write Config.escLow)

/-! ### Component operations on the whole state -/

/-- A BitReader operation on the state. -/
def onBits {α : Type} (f : BitReader → Res BitReader α) (s : State) : Res State α :=
  match f s.bits with
  | .done a b => .done a { s with bits := b }
  | .raise e b => .raise e { s with bits := b }

/-- A symbol-table operation on the state. -/
def onTab {α : Type} (f : SymTable → Res SymTable α) (s : State) : Res State α :=
  match f s.tab with
  | .done a t => .done a { s with tab := t }
  | .raise e t => .raise e { s with tab := t }

/-- A window operation on the state. -/
def onWin {α : Type} (f : Window → Res Window α) (s : State) : Res State α :=
  match f s.win with
  | .done a w => .done a { s with win := w }
  | .raise e w => .raise e { s with win := w }

/-! ### The error latch (R201): taking an exception -/

/-- raise E (R201): the record takes the kind and both offsets, unless an error is already latched. Nothing else is
saved and there is no vector; control goes to the host, which polls STATUS. There is no return (R205): only START and
reset clear the record. -/
def latch (e : ErrKind) (s : State) : State :=
  if s.err.kind = .none then
    { s with err := { kind := e, inOff := s.bits.srcPos, outOff := s.win.produced } }
  else s

/-- The state after an operation: an error that it raised is latched (R201). -/
def settle (r : Res State Unit) : State :=
  match r with
  | .done _ s => s
  | .raise e s => latch e s

/-- RESULT ← v (R43). -/
def setResult (v : Word) (s : State) : State := { s with ctl := { s.ctl with result := v } }

/-- The state after a result-producing operation: RESULT is written on success only (R43, R234). -/
def deliver (r : Res State Word) : State :=
  match r with
  | .done v s => setResult v s
  | .raise e s => latch e s

/-! ### Command acceptance (R180) -/

/-- A dropped command: CMD_DROPPED ← 1, and nothing executes (R180). -/
def dropped (s : State) : State := { s with ctl := { s.ctl with cmdDropped := true } }

/-- illegal() (R180): raise IllegalCommand, or drop where an error is already latched. -/
def illegal (s : State) : State := if s.err.kind = .none then latch .illegalCommand s else dropped s

/-- A command's meaning. -/
abbrev Meaning := State → Host.Outcome State Fault Refusal

/-- While BUSY every command but ABORT is dropped (R180, R232). -/
def whenIdle (f : Meaning) : Meaning := fun s => if s.ctl.busy then .next (dropped s) else f s

/-- A word whose operand is out of its legal range is illegal (R180); ok says that it is in range. -/
def whenLegal (ok : State → Bool) (f : Meaning) : Meaning := fun s => if ok s then f s else .next (illegal s)

/-- With ACTIVE = 0 a command is illegal (R180). -/
def whenActive (f : Meaning) : Meaning := fun s => if s.ctl.active then f s else .next (illegal s)

/-- With an error latched a mutating command is dropped (R180). -/
def whenClear (f : Meaning) : Meaning := fun s => if s.err.kind = .none then f s else .next (dropped s)

/-- Acceptance of a word that is no legal command (R92, R180). -/
def rejectWord : Meaning := whenIdle fun s => .next (illegal s)

/-! ### Session start and reset (R181, R230) -/

/-- CFG_CTRL.INIT_MODE (R41). -/
def CfgRegs.initMode (c : CfgRegs) : Mode := Mode.ofBit (c.ctrl.getLsbD 0)

/-- CFG_CTRL.FLAG_CNT_INIT (R41). -/
def CfgRegs.flagCntInit (c : CfgRegs) : Byte := c.ctrl.extractLsb' 8 8

/-- The check of START (R181): the capacity lies in 1..WINDOW_MAX. -/
def capacityLegal (s : State) : Bool :=
  decide (1 ≤ s.cfgRegs.winCap.toNat ∧ s.cfgRegs.winCap.toNat ≤ s.cfg.windowMax)

/-- START with a capacity outside 1..WINDOW_MAX (R181): ACTIVE ← 0, and the record is InvalidConfig with offsets 0. -/
def refuseSession (s : State) : State :=
  { s with
    err := { kind := .invalidConfig, inOff := 0, outOff := 0 }
    ctl := { s.ctl with active := false } }

/-- START that passes its check (R181, R47). RESULT and WIN are unchanged. -/
def beginSession (s : State) : State :=
  { s with
    bits := { acc := 0, valid := 0, srcPos := 0, sesSrcLen := s.cfgRegs.srcLen }
    tab := SymTable.identity
    win := { s.win with cap := s.cfgRegs.winCap, wptr := 0, remaining := s.cfgRegs.outLen, produced := 0, out := [] }
    dec :=
      { mode := s.cfgRegs.initMode, numHuf := 0, flagCnt := s.cfgRegs.flagCntInit
        avr := s.cfg.avrInit, nhfb := s.cfg.nhfbInit, nlzb := s.cfg.nlzbInit }
    err := { kind := .none, inOff := 0, outOff := 0 }
    ctl := { s.ctl with abortReq := false, aborted := false, cmdDropped := false, active := true } }

/-- Hardware reset (R230): every field of the block as after reset. The parameters, the source bytes and the host's own
turns are not the block's. -/
def hardReset (s : State) : State :=
  { State.resetWith s.cfg with
    src := s.src
    win := { (State.resetWith s.cfg).win with draws := s.win.draws }
    host := s.host }

/-- Whether a session holds the source (R77, R235: from START until the session ends): in every session, which lasts
from a START that passes its check to the next START or reset (00_scope.md section 6). A session that is DONE or failed
still reads the source by PEEK, CONSUME and DECODE. -/
def sourceIsHeld (s : State) : Bool := s.ctl.active

/-- The source that a START takes over (R240): the bytes handed over where it begins a session, else the source as it
was. -/
def takeSource (bytes : List Byte) (s : State) : State :=
  if s.ctl.busy = false ∧ capacityLegal s = true then { s with src := Memory.ofList 0 bytes } else s

end Sys2Proof.Machine
end

