-- ==== Sys2Proof/Machine/Flags.lean ====
section
/-! DEFINITION. Flags and counters: the STATUS word (R42), the EWMA update (R157), the saturating counters (R158), and the
literal counter with the LH → RL transition (R159). -/

namespace Sys2Proof.Machine

/-- STATUS.DONE, computed on read (R42). -/
def doneFlag (s : State) : Bool := s.ctl.active && decide (s.win.remaining = 0)

/-- STATUS.ERR, computed on read (R42). -/
def errFlag (s : State) : Bool := decide (s.err.kind ≠ .none)

/-- The STATUS word (R41, R42): bit 0 ACTIVE, 1 BUSY, 2 DONE, 3 ERR, 4 ABORTED, 5 CMD_DROPPED, 8 MODE; the others
read 0. -/
def statusWord (s : State) : Word :=
  0#23 ++ BitVec.ofBool s.dec.mode.bit ++ 0#2 ++ BitVec.ofBool s.ctl.cmdDropped ++ BitVec.ofBool s.ctl.aborted
    ++ BitVec.ofBool (errFlag s) ++ BitVec.ofBool (doneFlag s) ++ BitVec.ofBool s.ctl.busy ++ BitVec.ofBool s.ctl.active

/-- The EWMA estimator after a rank (R157): add, then decay by 1/256. -/
def ewma (avr : Half) (q : Byte) : Half :=
  let x := avr + q.setWidth 16
  x - (x >>> Config.ewmaShift)

/-- ewma_update(q) (R157). -/
def Decoder.ewmaUpdate (q : Byte) (d : Decoder) : Decoder := { d with avr := ewma d.avr q }

/-- counters_update() (R158): the sum is taken without a width, and a sum that reaches the saturation level reloads NHFB
and halves NLZB. -/
def Decoder.countersUpdate (step : Byte) (d : Decoder) : Decoder :=
  let t := d.nhfb.toNat + step.toNat
  if Config.nhfbSat ≤ t then { d with nhfb := Config.nhfbReload, nlzb := d.nlzb >>> 1 }
  else { d with nhfb := BitVec.ofNat 8 t }

/-- count_literal() (R159): the count wraps modulo 2^32, and LH → RL fires at SWITCH_COUNT while FLAG_CNT = 0. -/
def Decoder.countLiteral (d : Decoder) : Decoder :=
  let n := d.numHuf + 1
  if Config.switchCount ≤ n.toNat ∧ d.flagCnt = 0 then { d with numHuf := n, mode := .rl }
  else { d with numHuf := n }

/-- switch() (R154). -/
def Decoder.switchToLH (d : Decoder) : Decoder := { d with mode := .lh, numHuf := 0 }

end Sys2Proof.Machine
end

