-- ==== Sys2Proof/Machine/Operands.lean ====
section
/-! DEFINITION. Operand forms: the fields of a lookahead (R67), the operands of the tokens (R84), decode_symbol under each
fixed table pair (R120), and the reading of one token from the bitstream (R83, R150, R155). -/

namespace Sys2Proof.Machine

/-- The flag bit F[15] (R150). -/
def flagBit (f : Half) : Bool := f.getLsbD 15

/-- The length bit l = F[14], of the lookahead taken before the flag bit is consumed (R155). -/
def lengthBit (f : Half) : Bool := f.getLsbD 14

/-- The distance extension E[15:11] (R155). -/
def extBits (e : Half) : BitVec 5 := e.extractLsb' 11 5

/-- The length of a back-reference (R84): l = 1 gives 4, l = 0 gives 3. -/
def backrefLen (l : Bool) : Nat := if l then Config.backrefLong else Config.backrefShort

/-- The distance of a back-reference (R84): (d << 5) | e. -/
def backrefDist (d : BitVec 11) (e : BitVec 5) : Nat := d.toNat * 2 ^ Config.distExtBits + e.toNat

/-- The rank on which LIT-RL runs the literal path: r − RL_RANK_OFFSET (R152). -/
def literalRank (c : Config) (r : Byte) : Byte := r - c.rlRankOffset.setWidth 8

/-- decode_symbol under the table pair that t selects (R120, R121). -/
def decodeWith (c : Config) (t : TableSel) (src : Memory) (b : BitReader) : Res BitReader (Nat × Half) :=
  b.decodeSymbol (classify (c.table t).1 (c.table t).2) src

/-- The rest of a token in RL after SYM(0) with the lookahead at or below the threshold (R150, R155): the flag bit, then
for a back-reference the length bit, the distance code and the extension. -/
def fetchRest (c : Config) (src : Memory) (b : BitReader) : Res BitReader Token :=
  let (f, b) := b.peek src
  (b.consume src 1).bind fun _ b =>
  if flagBit f then .done .switch b
  else
    (b.consume src 1).bind fun _ b =>
    (decodeWith c .dist src b).bind fun d b =>
    let (e, b) := b.peek src
    (b.consume src Config.distExtBits).bind fun _ b =>
    .done (.backref (lengthBit f) (BitVec.ofNat 11 d.1) (extBits e)) b

/-- The token at the bit cursor in a mode, with all its bits consumed (R82, R83, R86, R150): the rank first, then the
lookahead against the threshold, then the flag bit. -/
def fetchToken (c : Config) (m : Mode) (src : Memory) (b : BitReader) : Res BitReader Token :=
  (decodeWith c .sym src b).bind fun rl b =>
  match m with
  | .lh => .done (.litLH (BitVec.ofNat 8 rl.1)) b
  | .rl =>
    if rl.1 = 0 then
      if c.escThreshold.toNat < rl.2.toNat then .done .esc b else fetchRest c src b
    else .done (.litRL (BitVec.ofNat 8 rl.1)) b

end Sys2Proof.Machine
end

