-- ==== Sys2Proof/Machine/Control.lean ====
section
/-! DEFINITION. The control commands NOP, START, RUN and ABORT and the reserved row (R92, R180 to R184). -/

namespace Sys2Proof.Machine

/-- NOP (R184): nothing, in every state but BUSY, where it is dropped. -/
def execNop (s : State) : Host.Outcome State Fault Refusal := whenIdle (fun s => .next s) s

/-- START (R181): legal in every state but BUSY, the error state and ACTIVE = 0 included. -/
def execStart (s : State) : Host.Outcome State Fault Refusal :=
  whenIdle (fun s => .next (if capacityLegal s then beginSession s else refuseSession s)) s

/-- RUN, the host step (R182): BUSY ← 1, ABORTED ← 0. The core's turns then run the loop. -/
def execRun (s : State) : Host.Outcome State Fault Refusal :=
  whenIdle (whenActive (whenClear fun s => .next { s with ctl := { s.ctl with busy := true, aborted := false } })) s

/-- ABORT (R183, R180): a request while BUSY, illegal with ACTIVE = 0, and otherwise of no effect. -/
def execAbort (s : State) : Host.Outcome State Fault Refusal :=
  if s.ctl.busy then .next { s with ctl := { s.ctl with abortReq := true } }
  else whenActive (fun s => .next s) s

/-- The reserved row OP 0xF (R92): an illegal command word, whatever its other bits. -/
def execReserved (_ : BitVec 28) (s : State) : Host.Outcome State Fault Refusal := rejectWord s

end Sys2Proof.Machine
end

