-- ==== Sys2Proof/Machine/Output.lean ====
section
/-! DEFINITION. The output-window commands PUSH, COPY and RDWIN (R141, R142, R145). -/

namespace Sys2Proof.Machine

/-- PUSH b (R141). -/
def execPush (b : Byte) (s : State) : Host.Outcome State Fault Refusal :=
  whenIdle (whenActive (whenClear fun s => .next (settle (onWin (fun w => w.push b) s)))) s

/-- COPY d, len (R142). -/
def execCopy (d : BitVec 16) (len : Byte) (s : State) : Host.Outcome State Fault Refusal :=
  whenIdle (whenActive (whenClear fun s =>
    .next (settle (onWin (fun w => w.copyBack s.cfg.farDist d.toNat len.toNat) s)))) s

/-- RDWIN a (R145): RESULT ← zext_32(WIN[a]); a ≥ C is illegal. An inspection command, allowed with an error latched
(R180). -/
def execRdwin (a : BitVec 24) (s : State) : Host.Outcome State Fault Refusal :=
  whenIdle (whenLegal (fun s => decide (a.toNat < s.win.cap.toNat)) (whenActive fun s =>
    .next (deliver (onWin (fun w => let (b, w') := w.read a.toNat; .done (b.setWidth 32) w') s)))) s

end Sys2Proof.Machine
end

