-- ==== Sys2Proof/Machine/Reader.lean ====
section
/-! DEFINITION. The BitReader commands PEEK and CONSUME (R111, R112) and DECODE (R121). -/

namespace Sys2Proof.Machine

/-- peek() on the state, as a 32-bit result (R111). -/
def peekWord (s : State) : Res State Word :=
  onBits (fun b => let (l, b') := b.peek s.src; .done (l.setWidth 32) b') s

/-- PEEK (R111): RESULT ← zext_32(peek()). -/
def execPeek (s : State) : Host.Outcome State Fault Refusal :=
  whenIdle (whenActive (whenClear fun s => .next (deliver (peekWord s)))) s

/-- CONSUME n (R112); n of 17..31 is illegal before every other check but BUSY (R92, R180). -/
def execConsume (n : BitVec 5) (s : State) : Host.Outcome State Fault Refusal :=
  whenIdle (whenLegal (fun _ => decide (n.toNat ≤ 16))
    (whenActive (whenClear fun s => .next (settle (onBits (fun b => b.consume s.src n.toNat) s))))) s

/-- DECODE t (R121): RESULT ← zext_32(s) on success. -/
def execDecode (t : TableSel) (s : State) : Host.Outcome State Fault Refusal :=
  whenIdle (whenActive (whenClear fun s =>
    .next (deliver ((onBits (decodeWith s.cfg t s.src) s).bind fun d s => .done (BitVec.ofNat 32 d.1) s)))) s

end Sys2Proof.Machine
end

