-- ==== Sys2Proof/Machine/Table.lean ====
section
/-! DEFINITION. The symbol-table commands LOOKUP, PROMOTE, CORRECT and RDPC (R130 to R134). -/

namespace Sys2Proof.Machine

/-- LOOKUP r (R130): RESULT ← zext_32(TABLE[r]). An inspection command, allowed with an error latched (R180). -/
def execLookup (r : Byte) (s : State) : Host.Outcome State Fault Refusal :=
  whenIdle (whenActive fun s => .next (setResult ((s.tab.lookup r).setWidth 32) s)) s

/-- PROMOTE r (R131). -/
def execPromote (r : Byte) (s : State) : Host.Outcome State Fault Refusal :=
  whenIdle (whenActive (whenClear fun s => .next (settle (onTab (fun t => t.promote s.cfg r) s)))) s

/-- CORRECT (R132). -/
def execCorrect (s : State) : Host.Outcome State Fault Refusal :=
  whenIdle (whenActive (whenClear fun s => .next { s with tab := s.tab.correct })) s

/-- RDPC v (R134): RESULT ← zext_32(PC[v]). An inspection command, allowed with an error latched (R180). -/
def execRdpc (v : Byte) (s : State) : Host.Outcome State Fault Refusal :=
  whenIdle (whenActive fun s => .next (setResult ((entry s.tab.pc v).setWidth 32) s)) s

end Sys2Proof.Machine
end

