-- ==== Sys2Proof/Machine/Tokens.lean ====
section
/-! DEFINITION. The bitstream tokens (R151 to R155) over the literal path (R156), and STEP, which reads one token and runs
it (R150). A token's meaning starts where all its bits have been consumed. -/

namespace Sys2Proof.Machine

/-- The literal path (R156), in its order: the byte before promotion, the push, the estimator, the saturating counters,
the promotion, and in LH the literal count. -/
def literal (q : Byte) (counting : Bool) (s : State) : Res State Unit :=
  (onWin (fun w => w.push (s.tab.lookup q)) s).bind fun _ s =>
  let s := { s with dec := (s.dec.ewmaUpdate q).countersUpdate s.cfg.nhfbStep }
  (onTab (fun t => t.promote s.cfg q) s).bind fun _ s =>
  .done () (if counting then { s with dec := s.dec.countLiteral } else s)

/-- LIT-LH (R151). -/
def execLitLH (r : Byte) (s : State) : Host.Outcome State Fault Refusal := .next (settle (literal r true s))

/-- LIT-RL (R152): the literal path on r − RL_RANK_OFFSET, not counting. -/
def execLitRL (r : Byte) (s : State) : Host.Outcome State Fault Refusal :=
  .next (settle (literal (literalRank s.cfg r) false s))

/-- ESC (R153). -/
def execEsc (s : State) : Host.Outcome State Fault Refusal := .next (settle (onWin (fun w => w.escape) s))

/-- SWITCH (R154): MODE ← LH, NUM_HUF ← 0, and nothing is emitted. -/
def execSwitch (s : State) : Host.Outcome State Fault Refusal := .next { s with dec := s.dec.switchToLH }

/-- BACKREF l, d, e (R155): copy_back(d·32 + e, l = 1 gives 4, else 3). -/
def execBackref (l : Bool) (d : BitVec 11) (e : BitVec 5) (s : State) : Host.Outcome State Fault Refusal :=
  .next (settle (onWin (fun w => w.copyBack s.cfg.farDist (backrefDist d e) (backrefLen l)) s))

/-- The meaning of a token, each one's own (R151 to R155). -/
def runToken (t : Token) (s : State) : Host.Outcome State Fault Refusal :=
  match t with
  | .litLH r => execLitLH r s
  | .litRL r => execLitRL r s
  | .esc => execEsc s
  | .switch => execSwitch s
  | .backref l d e => execBackref l d e s

/-- step() (R150): nothing with REMAINING = 0; else one token, read and run. An error in the reading latches with the
bits consumed before it (R202). -/
def tokenStep (s : State) : Host.Outcome State Fault Refusal :=
  if s.win.remaining = 0 then .next s
  else
    match onBits (fetchToken s.cfg s.dec.mode s.src) s with
    | .raise e s' => .next (latch e s')
    | .done t s' => runToken t s'

/-- STEP (R150). -/
def execStep (s : State) : Host.Outcome State Fault Refusal := whenIdle (whenActive (whenClear tokenStep)) s

/-- One turn of the core (R182): while BUSY one iteration of the RUN loop, the abort request first; else nothing (R209). -/
def coreTurn (s : State) : Host.Outcome State Fault Refusal :=
  if s.ctl.busy then
    if s.ctl.abortReq then .next { s with ctl := { s.ctl with abortReq := false, aborted := true, busy := false } }
    else if s.win.remaining = 0 ∨ s.err.kind ≠ .none then .next { s with ctl := { s.ctl with busy := false } }
    else tokenStep s
  else .next s

end Sys2Proof.Machine
end

