-- ==== Sys2Proof/Machine/Dispatch.lean ====
section
/-! DEFINITION. exec: one arm per row of the opcode table. A command's meaning starts at its acceptance (R180), a token's
where its bits have been consumed (R150). -/

namespace Sys2Proof.Machine

def exec (i : Instr) (s : State) : Host.Outcome State Fault Refusal :=
  match i with
  | .nop => Sys2Proof.Machine.execNop s
  | .start => Sys2Proof.Machine.execStart s
  | .step => Sys2Proof.Machine.execStep s
  | .run => Sys2Proof.Machine.execRun s
  | .abort => Sys2Proof.Machine.execAbort s
  | .peek => Sys2Proof.Machine.execPeek s
  | .consume n => Sys2Proof.Machine.execConsume n s
  | .decode t => Sys2Proof.Machine.execDecode t s
  | .lookup r => Sys2Proof.Machine.execLookup r s
  | .promote r => Sys2Proof.Machine.execPromote r s
  | .correct => Sys2Proof.Machine.execCorrect s
  | .push b => Sys2Proof.Machine.execPush b s
  | .copy d len => Sys2Proof.Machine.execCopy d len s
  | .rdwin a => Sys2Proof.Machine.execRdwin a s
  | .rdpc v => Sys2Proof.Machine.execRdpc v s
  | .reserved x => Sys2Proof.Machine.execReserved x s
  | .litLH r => Sys2Proof.Machine.execLitLH r s
  | .litRL r => Sys2Proof.Machine.execLitRL r s
  | .esc => Sys2Proof.Machine.execEsc s
  | .switch => Sys2Proof.Machine.execSwitch s
  | .backref l d e => Sys2Proof.Machine.execBackref l d e s

end Sys2Proof.Machine
end

