-- ==== Sys2Proof/Machine/Bus.lean ====
section
/-! DEFINITION. The host's turns and the interleaving of the two agents (R20, R73, R75, R182, R240): register reads and
writes (R41), command words (R180), source bytes (R60), reset (R230). -/

namespace Sys2Proof.Machine

/-- The value that a read of a register offset returns (R41); an offset not in the map returns 0. -/
def readReg (offset : Word) (s : State) : Word :=
  match offset.toNat with
  | 0x04 => statusWord s
  | 0x08 => s.ctl.result
  | 0x0C => s.err.kind.code.setWidth 32
  | 0x10 => s.err.inOff
  | 0x14 => s.err.outOff
  | 0x20 => s.cfgRegs.srcLen
  | 0x24 => s.cfgRegs.outLen
  | 0x28 => s.cfgRegs.winCap
  | 0x2C => s.cfgRegs.ctrl
  | 0x40 => s.bits.acc
  | 0x44 => s.bits.valid.setWidth 32
  | 0x48 => s.bits.srcPos
  | 0x4C => s.win.wptr
  | 0x50 => s.win.remaining
  | 0x54 => s.win.produced
  | 0x58 => s.dec.numHuf
  | 0x5C => s.dec.flagCnt.setWidth 32
  | 0x60 => s.dec.avr.setWidth 32
  | 0x64 => s.dec.nhfb.setWidth 32
  | 0x68 => s.dec.nlzb.setWidth 32
  | 0x6C => s.win.cap
  | 0x70 => s.bits.sesSrcLen
  | _ => 0

/-- The writable bits of CFG_CTRL: INIT_MODE and FLAG_CNT_INIT; the others are ignored on write and read 0 (R41). -/
def ctrlMask : Word := 0x0000FF01

/-- A write to a register offset other than CMD (R41): a CFG register stores, every other offset ignores. -/
def writeReg (offset v : Word) (s : State) : State :=
  match offset.toNat with
  | 0x20 => { s with cfgRegs := { s.cfgRegs with srcLen := v } }
  | 0x24 => { s with cfgRegs := { s.cfgRegs with outLen := v } }
  | 0x28 => { s with cfgRegs := { s.cfgRegs with winCap := v } }
  | 0x2C => { s with cfgRegs := { s.cfgRegs with ctrl := v &&& ctrlMask } }
  | _ => s

/-- The offset of CMD (R41). -/
def cmdOffset : Word := 0

/-- The word of START (R181). -/
def startWord : Word := 0x10000000

/-- A write of a word to CMD (R180): the command that it spells, or the acceptance of an illegal word. -/
def accept (w : Word) (s : State) : Host.Outcome State Fault Refusal :=
  match decode w with
  | .ok i => exec i s
  | .error _ => rejectWord s

/-- Whether a host access is inside the interface: an aligned 32-bit word access (R71). -/
def wordAccess (offset : Word) (size : AccessSize) : Bool :=
  decide (size = .word ∧ offset.toNat % 4 = 0)

/-- The host's turn on a move (R72, R240), the move already taken from the script. -/
def hostTurn (m : HostMove) (s : State) : Host.Outcome State Fault Refusal :=
  match m with
  | .write offset size v =>
    if wordAccess offset size then
      if offset = cmdOffset then accept v s else .next (writeReg offset v s)
    else .refused .registerAccess
  | .read offset size =>
    if wordAccess offset size then .next { s with host := { s.host with rdata := readReg offset s } }
    else .refused .registerAccess
  | .place p v =>
    if sourceIsHeld s ∧ p.toNat < s.bits.sesSrcLen.toNat ∧ s.src.read p.toNat ≠ some v then .fault .sourceHeld
    else .next { s with src := s.src.write p.toNat v }
  | .handOver bytes => accept startWord (takeSource bytes s)
  | .reset => .next (hardReset s)
  | .yield => coreTurn s

/-- One transition of the block and its host: the host's next turn, or the core's where the host has none left, so that
a RUN goes on once the host has nothing more to do (R239: weak fairness). -/
def transition (s : State) : Host.Outcome State Fault Refusal :=
  match s.host.script with
  | [] => coreTurn s
  | m :: rest => hostTurn m { s with host := { s.host with script := rest } }

/-- The host's next turn is a write of a word to CMD, before the turns already in its script. -/
def issue (w : Word) (s : State) : State :=
  { s with host := { s.host with script := .write cmdOffset .word w :: s.host.script } }

end Sys2Proof.Machine
end

