-- ==== Sys2Proof/Machine/Step.lean ====
section
/-! DEFINITION. The step function, and the placing of one command word where the next step takes it. -/

namespace Sys2Proof.Machine

/-- One atomic transition (R73, R75). -/
def step (s : State) : Host.Outcome State Fault Refusal := transition s

/-- The state in which the host's next turn writes to CMD the word whose low nbits bits are those of w. -/
def State.withFetchWord (s : State) (nbits w : Nat) : State := issue (BitVec.ofNat 32 (w % 2 ^ nbits)) s

end Sys2Proof.Machine
end

