-- ==== Sys2Proof/Safety.lean ====
section
/-! DEFINITION. The terms in which claims are stated: the invariants that the spec derives for each component, the
invariant of the whole machine, when a command is accepted, and the bits of the source stream. -/

namespace Sys2Proof.Machine

/-! ### The bitstream (R66, R113) -/

/-- Bit j of the stream: the source bytes in rising position, each most significant bit first (R66), and 0 past the end
of the session's source (R113). -/
def streamBit (src : Memory) (len j : Nat) : Bool :=
  if j / 8 < len then (srcRead src (j / 8)).getLsbD (7 - j % 8) else false

/-- The valid bits of the accumulator are the next stream bits: the first part of R113's law. -/
def BitReader.Coherent (src : Memory) (b : BitReader) : Prop :=
  ∀ i, i < b.valid.toNat →
    b.acc.getMsbD i = streamBit src b.sesSrcLen.toNat (8 * b.srcPos.toNat - b.valid.toNat + i)

/-! ### Invariants of the components -/

/-- BitReader: VALID ≤ 32 (R24), SRC_POS ≤ SRC_LEN (R25), BITPOS ≥ 0 (R22), and every bit of ACC below the valid bits is
zero (R26). -/
structure BitReader.Inv (b : BitReader) : Prop where
  valid_le : b.valid.toNat ≤ Config.accBits
  srcPos_le : b.srcPos.toNat ≤ b.sesSrcLen.toNat
  bitpos_nonneg : b.valid.toNat ≤ 8 * b.srcPos.toNat
  low_zero : b.acc.toNat % 2 ^ (Config.accBits - b.valid.toNat) = 0

/-- AdaptiveSymbolTable: TABLE is a permutation (R28, R133), and no counter exceeds QUOTA (R29). -/
structure SymTable.Inv (t : SymTable) : Prop where
  injective : ∀ r r', t.lookup r = t.lookup r' → r = r'
  pc_le : ∀ b, (entry t.pc b).toNat ≤ Config.quota

/-- OutputWindow in a started session: a legal capacity (R31), WPTR = PRODUCED mod C (R35), |OUT| = PRODUCED (R63), no
wrap of the counters (R34), and the window holds the last min(PRODUCED, C) bytes of OUT at position mod C (R35, R143). -/
structure Window.Inv (w : Window) : Prop where
  cap_pos : 1 ≤ w.cap.toNat
  wptr_eq : w.wptr.toNat = w.produced.toNat % w.cap.toNat
  out_length : w.out.length = w.produced.toNat
  no_wrap : w.produced.toNat + w.remaining.toNat < 2 ^ 32
  history : ∀ k, k < w.produced.toNat → w.produced.toNat ≤ k + w.cap.toNat →
    w.ram.read (k % w.cap.toNat) = w.out[k]?

/-- Decoder: AVR ≤ 0xFF00 (R39), NHFB ≤ 0xFE (R40), and in LH with FLAG_CNT = 0 the literal count is below 16 (R159). -/
structure Decoder.Inv (d : Decoder) : Prop where
  avr_le : d.avr.toNat ≤ 0xFF00
  nhfb_le : d.nhfb.toNat ≤ 0xFE
  count_lt : d.mode = .lh → d.flagCnt = 0 → d.numHuf.toNat < Config.switchCount

/-- The status flags: a RUN is in progress only in a started session, and an abort is requested only of a RUN (R45,
R183). -/
structure Control.Inv (c : Control) : Prop where
  busy_active : c.busy = true → c.active = true
  abort_busy : c.abortReq = true → c.busy = true

/-- The reserved bits of CFG_CTRL read 0 (R41). -/
def CfgRegs.Inv (c : CfgRegs) : Prop := c.ctrl &&& ~~~ctrlMask = 0

/-- The invariant of the machine. -/
structure State.Inv (s : State) : Prop where
  cfg : s.cfg.ok
  src_wf : Memory.wf s.src
  ram_wf : Memory.wf s.win.ram
  bits : s.bits.Inv
  tab : s.tab.Inv
  win : s.ctl.active = true → s.win.Inv ∧ s.win.cap.toNat ≤ s.cfg.windowMax
  dec : s.dec.Inv
  ctl : s.ctl.Inv
  cfgRegs : s.cfgRegs.Inv

/-! ### Acceptance (R180) -/

/-- No RUN is in progress: a write to CMD is not dropped for BUSY. -/
abbrev State.Idle (s : State) : Prop := s.ctl.busy = false

/-- An inspection command is accepted: not BUSY, and a session is started. -/
abbrev State.Active (s : State) : Prop := s.ctl.busy = false ∧ s.ctl.active = true

/-- A mutating command is accepted: not BUSY, a session is started, and no error is latched. -/
abbrev State.Ready (s : State) : Prop := s.ctl.busy = false ∧ s.ctl.active = true ∧ s.err.kind = .none

/-- A row of the opcode table that is a command word (R91), not a token. -/
def isCommand : Instr → Bool
  | .nop => true
  | .start => true
  | .step => true
  | .run => true
  | .abort => true
  | .peek => true
  | .consume _ => true
  | .decode _ => true
  | .lookup _ => true
  | .promote _ => true
  | .correct => true
  | .push _ => true
  | .copy _ _ => true
  | .rdwin _ => true
  | .rdpc _ => true
  | .reserved _ => true
  | .litLH _ => false
  | .litRL _ => false
  | .esc => false
  | .switch => false
  | .backref _ _ _ => false

/-- The inspection commands (R180): allowed with an error latched, they change RESULT alone. -/
def isInspection : Instr → Bool
  | .nop => false
  | .start => false
  | .step => false
  | .run => false
  | .abort => false
  | .peek => false
  | .consume _ => false
  | .decode _ => false
  | .lookup _ => true
  | .promote _ => false
  | .correct => false
  | .push _ => false
  | .copy _ _ => false
  | .rdwin _ => true
  | .rdpc _ => true
  | .reserved _ => false
  | .litLH _ => false
  | .litRL _ => false
  | .esc => false
  | .switch => false
  | .backref _ _ _ => false

/-- The host's next turn, if it has one. -/
def State.nextMove (s : State) : Option HostMove := s.host.script.head?

/-- The state with the host's next turn taken from its script. -/
def State.advanced (s : State) : State := { s with host := { s.host with script := s.host.script.tail } }

/-- The next turn is the core's: the host has none left, or leaves it to the core (R239). -/
abbrev State.coreNext (s : State) : Prop := s.nextMove = none ∨ s.nextMove = some .yield

/-! ### What an operation leaves, said without its definition -/

/-- One byte written to the window (R140): where it is stored, what is left alone, and the counters. -/
structure Pushed (b : Byte) (w w' : Window) : Prop where
  stored : w'.ram.read w.wptr.toNat = some b
  kept : ∀ a, a ≠ w.wptr.toNat → w'.ram.read a = w.ram.read a
  cap : w'.cap = w.cap
  wptr : w'.wptr.toNat = (w.wptr.toNat + 1) % w.cap.toNat
  remaining : w'.remaining.toNat + 1 = w.remaining.toNat
  produced : w'.produced = w.produced + 1
  out : w'.out = w.out ++ [b]
  draws : w'.draws = w.draws

/-- len bytes copied from dist back (R142, R143, R144). Byte k of the copy is the output byte ((dist − 1) mod C) + 1
back, which is dist back for dist ≤ C and the aliased byte for a greater distance. No free value is drawn. -/
structure Copied (dist len : Nat) (w w' : Window) : Prop where
  cap : w'.cap = w.cap
  wptr : w'.wptr.toNat = (w.wptr.toNat + len) % w.cap.toNat
  remaining : w'.remaining.toNat + len = w.remaining.toNat
  produced : w'.produced.toNat = w.produced.toNat + len
  outLength : w'.out.length = w.out.length + len
  outPrefix : w'.out.take w.out.length = w.out
  copied : ∀ k, k < len → w'.out[w.out.length + k]? = w'.out[w.out.length + k - ((dist - 1) % w.cap.toNat + 1)]?
  stored : ∀ k, k < len → len ≤ k + w.cap.toNat →
    w'.ram.read ((w.wptr.toNat + k) % w.cap.toNat) = w'.out[w.out.length + k]?
  kept : ∀ a, (∀ k, k < len → a ≠ (w.wptr.toNat + k) % w.cap.toNat) → w'.ram.read a = w.ram.read a
  draws : w'.draws = w.draws

/-- The table after correct() (R132, R135). -/
structure Corrected (t' : SymTable) : Prop where
  table : ∀ i, t'.lookup i = i
  pc : ∀ b, entry t'.pc b = 0

/-- The table after promote(r), whose literal is b and whose updated counter is c (R131). Within the quota, TABLE[r] and
TABLE[c] are exchanged and PC[b] is c; above it, SPEC leaves the corrected table, and REFLOOP counts the rank once more
in the corrected table. -/
structure Promoted (cfg : Config) (r : Byte) (t t' : SymTable) : Prop where
  within : (entry t.pc (t.lookup r)).toNat + 1 ≤ 0xA1 →
    (∀ j, t'.lookup j =
      if j = r then t.lookup (entry t.pc (t.lookup r) + 1)
      else if j = entry t.pc (t.lookup r) + 1 then t.lookup r
      else t.lookup j) ∧
    (∀ b, entry t'.pc b = if b = t.lookup r then entry t.pc b + 1 else entry t.pc b)
  above_spec : 0xA1 < (entry t.pc (t.lookup r)).toNat + 1 → cfg.promoteMode = .spec → Corrected t'
  above_refloop : 0xA1 < (entry t.pc (t.lookup r)).toNat + 1 → cfg.promoteMode = .refloop →
    (∀ j, t'.lookup j = if j = r then 1 else if j = 1 then r else j) ∧ (∀ b, entry t'.pc b = if b = r then 1 else 0)

/-- The estimator and the saturating counters after a literal of rank q (R157, R158); the flag counter is left alone. -/
structure Estimated (cfg : Config) (q : Byte) (d d' : Decoder) : Prop where
  avr : d'.avr.toNat = (d.avr.toNat + q.toNat) - (d.avr.toNat + q.toNat) / 256
  reload : 0xFF ≤ d.nhfb.toNat + cfg.nhfbStep.toNat → d'.nhfb = 0x90 ∧ d'.nlzb.toNat = d.nlzb.toNat / 2
  add : d.nhfb.toNat + cfg.nhfbStep.toNat < 0xFF →
    d'.nhfb.toNat = d.nhfb.toNat + cfg.nhfbStep.toNat ∧ d'.nlzb = d.nlzb
  flagCnt : d'.flagCnt = d.flagCnt

/-- The error record that a raise leaves where none is latched (R201). -/
def ErrRecord.now (e : ErrKind) (b : BitReader) (w : Window) : ErrRecord :=
  { kind := e, inOff := b.srcPos, outOff := w.produced }

/-- The state after an illegal command word (R92, R180): the record where none is latched, else CMD_DROPPED. -/
def State.afterIllegal (s : State) : State :=
  if s.err.kind = .none then { s with err := .now .illegalCommand s.bits s.win }
  else { s with ctl := { s.ctl with cmdDropped := true } }

end Sys2Proof.Machine
end

