-- ==== Sys2Proof/Certificates/Slice0/Obligations.lean ====
section
/-! DEFINITION. The statements for the provers, each a definition of a proposition about the model. -/

open Sys2Proof Sys2Proof.Machine

/-! ### Reset and the start of a session -/

/-- R47: every piece of state, in both columns of its table: after reset, and after a START that passes its check. -/
def Obligations.ResetAndStartValues : Prop :=
  (∀ c : Config,
    (State.resetWith c).bits = { acc := 0, valid := 0, srcPos := 0, sesSrcLen := 0 } ∧
    (∀ r, (State.resetWith c).tab.lookup r = r) ∧ (∀ b, entry (State.resetWith c).tab.pc b = 0) ∧
    (∀ a, (State.resetWith c).win.held a = none) ∧
    (State.resetWith c).win.cap = 0 ∧ (State.resetWith c).win.wptr = 0 ∧ (State.resetWith c).win.remaining = 0 ∧
    (State.resetWith c).win.produced = 0 ∧ (State.resetWith c).win.out = [] ∧
    (State.resetWith c).dec =
      { mode := .lh, numHuf := 0, flagCnt := 0, avr := c.avrInit, nhfb := c.nhfbInit, nlzb := c.nlzbInit } ∧
    (State.resetWith c).cfgRegs = { srcLen := 0, outLen := 0, winCap := 0, ctrl := 0 } ∧
    (State.resetWith c).ctl =
      { active := false, busy := false, aborted := false, cmdDropped := false, abortReq := false, result := 0 } ∧
    (State.resetWith c).err = { kind := .none, inOff := 0, outOff := 0 }) ∧
  State.reset = State.resetWith Config.platform ∧
  (∀ s : State, s.Idle → 1 ≤ s.cfgRegs.winCap.toNat → s.cfgRegs.winCap.toNat ≤ s.cfg.windowMax →
    ∃ t, exec .start s = .next t ∧
      t.bits = { acc := 0, valid := 0, srcPos := 0, sesSrcLen := s.cfgRegs.srcLen } ∧
      (∀ r, t.tab.lookup r = r) ∧ (∀ b, entry t.tab.pc b = 0) ∧
      t.win.ram = s.win.ram ∧ (∀ a, t.win.held a = none) ∧
      t.win.cap = s.cfgRegs.winCap ∧ t.win.wptr = 0 ∧ t.win.remaining = s.cfgRegs.outLen ∧
      t.win.produced = 0 ∧ t.win.out = [] ∧
      t.dec.mode.bit = s.cfgRegs.ctrl.getLsbD 0 ∧ t.dec.numHuf = 0 ∧ t.dec.flagCnt = s.cfgRegs.ctrl.extractLsb' 8 8 ∧
      t.dec.avr = s.cfg.avrInit ∧ t.dec.nhfb = s.cfg.nhfbInit ∧ t.dec.nlzb = s.cfg.nlzbInit ∧
      t.cfgRegs = s.cfgRegs ∧
      t.ctl =
        { active := true, busy := false, aborted := false, cmdDropped := false, abortReq := false
          result := s.ctl.result } ∧
      t.err = { kind := .none, inOff := 0, outOff := 0 })

/-- R181: START where no RUN is in progress, in both cases of its check, with its frame. -/
def Obligations.StartCommand : Prop :=
  encode .start = some 0x10000000 ∧ ∀ s : State, s.Idle →
    (1 ≤ s.cfgRegs.winCap.toNat ∧ s.cfgRegs.winCap.toNat ≤ s.cfg.windowMax →
      ∃ t, exec .start s = .next t ∧
        t = { s with bits := t.bits, tab := t.tab, win := t.win, dec := t.dec, err := t.err, ctl := t.ctl } ∧
        t.bits = { acc := 0, valid := 0, srcPos := 0, sesSrcLen := s.cfgRegs.srcLen } ∧ Corrected t.tab ∧
        t.win = { s.win with cap := s.cfgRegs.winCap, wptr := 0, remaining := s.cfgRegs.outLen, produced := 0, out := [] } ∧
        t.dec.mode.bit = s.cfgRegs.ctrl.getLsbD 0 ∧ t.dec.numHuf = 0 ∧ t.dec.flagCnt = s.cfgRegs.ctrl.extractLsb' 8 8 ∧
        t.dec.avr = s.cfg.avrInit ∧ t.dec.nhfb = s.cfg.nhfbInit ∧ t.dec.nlzb = s.cfg.nlzbInit ∧
        t.ctl = { s.ctl with abortReq := false, aborted := false, cmdDropped := false, active := true } ∧
        t.err = { kind := .none, inOff := 0, outOff := 0 }) ∧
    (s.cfgRegs.winCap.toNat < 1 ∨ s.cfg.windowMax < s.cfgRegs.winCap.toNat →
      exec .start s = .next { s with
        err := { kind := .invalidConfig, inOff := 0, outOff := 0 }, ctl := { s.ctl with active := false } })

/-- R230: hardware reset at any time. The block's state is that after reset; the parameters, the source bytes and the
host's own turns are not the block's (log entry 14). -/
def Obligations.HardwareResetMove : Prop :=
  ∀ s : State, s.nextMove = some .reset →
    step s = .next { State.resetWith s.cfg with
      src := s.src, host := s.advanced.host, win := { (State.resetWith s.cfg).win with draws := s.win.draws } }

/-- The invariant of the machine holds after reset. -/
def Obligations.ResetMeetsInvariant : Prop := State.reset.Inv

/-- Every step keeps the invariant of the machine: VALID ≤ 32 and the zero low bits of ACC (R24, R26), TABLE a permutation
(R133), the counters within their bounds (R29, R39, R40), the window's cursor, counts and history (R34, R35, R63), canonical
byte spaces, and the reserved bits of CFG_CTRL (R41). -/
def Obligations.StepKeepsInvariant : Prop :=
  ∀ s t : State, s.Inv → step s = .next t → t.Inv

/-! ### Encoding -/

/-- R90, R91: decoding the word of any well-formed command gives the command back, for every operand value. -/
def Obligations.CommandWordRoundTrip : Prop :=
  ∀ (i : Instr) (w : Word), i.wellFormed = true → encode i = some w → decode w = .ok i

/-- R90, R91, R92: a word that decodes is the word of a well-formed command, so each word has one meaning at most. For RDWIN
it rests on the model's reading of R90 to R92 (log entry 21). -/
def Obligations.DecodedWordIsTheCommandsWord : Prop :=
  ∀ (w : Word) (i : Instr), decode w = .ok i → i.wellFormed = true ∧ isCommand i = true ∧ encode i = some w

/-- Words written out from R91's encodings decode to what they stand for; that 0xD1000010 is illegal is the model's reading
of R90 to R92 (log entry 21). -/
def Obligations.SampleWordsDecode : Prop :=
  decode 0x00000000 = .ok .nop ∧ decode 0x60000005 = .ok (.consume 5) ∧ decode 0x70000001 = .ok (.decode .dist) ∧
  decode 0x90000005 = .ok (.promote 5) ∧ decode 0xC0030004 = .ok (.copy 4 3) ∧ decode 0xD0000010 = .ok (.rdwin 16) ∧
  decode 0xF0000000 = .ok (.reserved 0) ∧ decode 0x00000001 = .error .noRow ∧ decode 0x70000002 = .error .noRow ∧
  decode 0xD1000010 = .error .noRow ∧
  decode 0x60000011 = .error .operandRange

/-- R81, R120: a lookahead is a symbol with a code length exactly where its class, the smallest index whose boundary
exceeds the masked lookahead, has a length of at most 16 and a symbol below the alphabet size. -/
def Obligations.ClassifyIsTheCodeSpace : Prop :=
  ∀ (t : TablePair) (alpha : Nat) (l : Half) (s k : Nat),
    classify t alpha l = some (s, k) ↔
      ∃ i, ∃ hi : i < t.bnd.length, ∃ hk : k < 17,
        (l &&& 0xFFF0).toNat < (t.bnd[i]).toNat ∧
        (∀ j (hj : j < i), (t.bnd[j]'(by omega)).toNat ≤ (l &&& 0xFFF0).toNat) ∧
        k = t.start + i ∧
        s = ((l &&& 0xFFF0).toNat - (if h : i = 0 then 0 else (t.bnd[i - 1]'(by omega)).toNat)) / 2 ^ (16 - k) + t.base[k] ∧
        s < alpha

/-- R80: the code of a symbol decodes to the symbol, whatever bits follow it in the lookahead. -/
def Obligations.SymbolCodeDecodes : Prop :=
  ∀ (t : TablePair) (alpha s : Nat) (code : List Bool), symbolCode t alpha s = some code →
    ∀ l : Half, (∀ i (h : i < code.length), l.getMsbD i = code[i]) → classify t alpha l = some (s, code.length)

/-- R82, R83, R150, R155: the bits of a token, standing next in the stream, are read as that token, and the bit cursor
moves by exactly their number. The mode is the token's, and the lookahead is on the token's side of the threshold. -/
def Obligations.TokenRoundTrip : Prop :=
  ∀ (c : Config) (src : Memory) (b : BitReader) (m : Mode) (k : Token) (code : List Bool),
    b.Inv → b.Coherent src → encodeToken c k = some code →
    (∀ i (h : i < code.length),
      streamBit src b.sesSrcLen.toNat (8 * b.srcPos.toNat - b.valid.toNat + i) = code[i]) →
    b.bitpos + code.length ≤ 8 * b.sesSrcLen.toNat →
    (m = .lh ↔ ∃ r, k = .litLH r) →
    (k = .esc → c.escThreshold.toNat < (b.peek src).1.toNat) →
    ((k = .switch ∨ ∃ l d e, k = .backref l d e) → (b.peek src).1.toNat ≤ c.escThreshold.toNat) →
    ∃ b', fetchToken c m src b = .done k b' ∧ b'.bitpos = b.bitpos + code.length ∧ b'.Inv ∧ b'.Coherent src

/-! ### Steps and command acceptance -/

/-- A write to CMD of a word that decodes runs the decoded command, on the state with the host's turn taken (R180). -/
def Obligations.StepRunsTheDecodedCommand : Prop :=
  ∀ (s : State) (w : Word) (i : Instr), s.nextMove = some (.write 0 .word w) → decode w = .ok i →
    step s = exec i s.advanced

/-- A turn of the core in a RUN runs the token that stands next in the bitstream, with its bits consumed (R150, R182). -/
def Obligations.StepRunsTheNextToken : Prop :=
  ∀ (s : State) (k : Token) (b : BitReader), s.coreNext → s.ctl.busy = true → s.ctl.abortReq = false →
    s.win.remaining ≠ 0 → s.err.kind = .none → fetchToken s.cfg s.dec.mode s.src s.bits = .done k b →
    step s = exec k.toInstr { s.advanced with bits := b }

/-- No instruction stops: exec answers a next state for every instruction in every state. -/
def Obligations.ExecAlwaysAnswers : Prop := ∀ (i : Instr) (s : State), ∃ t, exec i s = .next t

/-- R92: the illegal command words. Each executes nothing, and latches IllegalCommand unless an error is latched. The
reserved bits are those that R90 and R91's operand fields leave, for each OP. That w[27:24] of RDWIN are reserved, where
R91's mask cell reads otherwise, is the model's reading of R90 to R92 (log entry 21). -/
def Obligations.IllegalCommandWords : Prop :=
  ∀ s : State, s.Idle →
    (∀ x, exec (.reserved x) s = .next s.afterIllegal) ∧
    (∀ n : BitVec 5, 16 < n.toNat → exec (.consume n) s = .next s.afterIllegal) ∧
    (∀ a : BitVec 24, s.win.cap.toNat ≤ a.toNat → exec (.rdwin a) s = .next s.afterIllegal) ∧
    (∀ w : Word, w.extractLsb' 28 4 = 0xF → accept w s = .next s.afterIllegal) ∧
    (∀ w : Word, w.extractLsb' 28 4 ∈ ([0x0, 0x1, 0x2, 0x3, 0x4, 0x5, 0xA] : List (BitVec 4)) → w.extractLsb' 0 28 ≠ 0 →
      accept w s = .next s.afterIllegal) ∧
    (∀ w : Word, w.extractLsb' 28 4 = 0x6 → w.extractLsb' 5 23 ≠ 0 → accept w s = .next s.afterIllegal) ∧
    (∀ w : Word, w.extractLsb' 28 4 = 0x7 → w.extractLsb' 1 27 ≠ 0 → accept w s = .next s.afterIllegal) ∧
    (∀ w : Word, w.extractLsb' 28 4 ∈ ([0x8, 0x9, 0xB, 0xE] : List (BitVec 4)) → w.extractLsb' 8 20 ≠ 0 →
      accept w s = .next s.afterIllegal) ∧
    (∀ w : Word, w.extractLsb' 28 4 = 0xC → w.extractLsb' 24 4 ≠ 0 → accept w s = .next s.afterIllegal) ∧
    (∀ w : Word, w.extractLsb' 28 4 = 0xD → w.extractLsb' 24 4 ≠ 0 → accept w s = .next s.afterIllegal) ∧
    (∀ w : Word, 0x60000011 ≤ w.toNat → w.toNat ≤ 0x6000001F → accept w s = .next s.afterIllegal)

/-- R180, R232: while BUSY every command but ABORT, and every word that is no command, is dropped and sets
CMD_DROPPED. -/
def Obligations.BusyDropsCommands : Prop :=
  ∀ s : State, s.ctl.busy = true →
    (∀ i, isCommand i = true → i ≠ .abort → exec i s = .next { s with ctl := { s.ctl with cmdDropped := true } }) ∧
    (∀ w e, decode w = .error e → accept w s = .next { s with ctl := { s.ctl with cmdDropped := true } })

/-- R180: with ACTIVE = 0 every command but NOP and START is illegal. -/
def Obligations.InactiveCommandsAreIllegal : Prop :=
  ∀ (s : State) (i : Instr), s.Idle → s.ctl.active = false → isCommand i = true → i ≠ .nop → i ≠ .start →
    exec i s = .next s.afterIllegal

/-- R180: with an error latched every command but NOP, START, ABORT and the inspection commands is dropped. -/
def Obligations.ErrorStateDropsMutatingCommands : Prop :=
  ∀ (s : State) (i : Instr), s.Active → s.err.kind ≠ .none → isCommand i = true → isInspection i = false →
    i ≠ .nop → i ≠ .start → i ≠ .abort → exec i s = .next { s with ctl := { s.ctl with cmdDropped := true } }

/-! ### Control commands -/

/-- R184: NOP does nothing in every state but BUSY, where it is dropped. -/
def Obligations.NopCommand : Prop :=
  encode .nop = some 0x00000000 ∧ ∀ s : State,
    (s.ctl.busy = false → exec .nop s = .next s) ∧
    (s.ctl.busy = true → exec .nop s = .next { s with ctl := { s.ctl with cmdDropped := true } })

/-- R182: RUN sets BUSY and clears ABORTED; each turn of the core while BUSY is one iteration of the loop, the abort
request checked first, then the end of the output or a latched error; and the loop's step is STEP's own. -/
def Obligations.RunLoop : Prop :=
  ∀ s : State,
    (s.Ready → exec .run s = .next { s with ctl := { s.ctl with busy := true, aborted := false } }) ∧
    (s.coreNext → s.ctl.busy = true →
      (s.ctl.abortReq = true → step s = .next { s.advanced with
        ctl := { s.ctl with abortReq := false, aborted := true, busy := false } }) ∧
      (s.ctl.abortReq = false → s.win.remaining = 0 ∨ s.err.kind ≠ .none →
        step s = .next { s.advanced with ctl := { s.ctl with busy := false } }) ∧
      (s.ctl.abortReq = false → s.win.remaining ≠ 0 → s.err.kind = .none → s.ctl.active = true →
        ∃ t u, exec .step { s.advanced with ctl := { s.ctl with busy := false } } = .next t ∧ step s = .next u ∧
          u = { t with ctl := { t.ctl with busy := true } }))

/-- R183: ABORT requests while BUSY, has no effect in an idle session, and is illegal with ACTIVE = 0; a second request
changes nothing further, and the core's next turn honours the request before any step. -/
def Obligations.AbortCommand : Prop :=
  encode .abort = some 0x40000000 ∧ ∀ s : State,
    (s.ctl.busy = true → exec .abort s = .next { s with ctl := { s.ctl with abortReq := true } }) ∧
    (s.ctl.busy = true → s.ctl.abortReq = true → exec .abort s = .next s) ∧
    (s.Active → exec .abort s = .next s) ∧
    (s.ctl.busy = false → s.ctl.active = false → exec .abort s = .next s.afterIllegal) ∧
    (s.coreNext → s.ctl.busy = true → s.ctl.abortReq = true → step s = .next { s.advanced with
      ctl := { s.ctl with abortReq := false, aborted := true, busy := false } })

/-- R150, R202, R203: STEP does nothing with REMAINING = 0; else it reads one token and runs it, and an error in the
reading leaves the bits consumed before it and the record. The last clause goes through the raising points of a step in
stream order: the rank decode, the escape, the flag bit, the length bit, the distance decode, the extension bits, and last
copy_back; r0 to r4 are the reader after the refill at each point. -/
def Obligations.StepCommand : Prop :=
  ∀ s : State, s.Ready →
    (s.win.remaining = 0 → exec .step s = .next s) ∧
    (∀ k b, s.win.remaining ≠ 0 → fetchToken s.cfg s.dec.mode s.src s.bits = .done k b →
      ∃ t, exec .step s = .next t ∧ exec k.toInstr { s with bits := b } = .next t) ∧
    (∀ e b, s.win.remaining ≠ 0 → fetchToken s.cfg s.dec.mode s.src s.bits = .raise e b →
      exec .step s = .next { s with bits := b, err := .now e b s.win }) ∧
    (s.win.remaining ≠ 0 →
      let raises (e : ErrKind) (b : BitReader) : Prop :=
        exec .step s = .next { s with bits := b, err := .now e b s.win }
      let r0 := s.bits.refill s.src
      (classify s.cfg.symTbl 256 r0.lookahead = none → raises .corruptTable r0) ∧
      ∀ v k, classify s.cfg.symTbl 256 r0.lookahead = some (v, k) →
        (r0.valid.toNat < k → raises .bitstreamExhausted r0) ∧
        (k ≤ r0.valid.toNat → s.dec.mode = .rl → v = 0 → s.cfg.escThreshold.toNat < r0.lookahead.toNat →
          s.win.remaining.toNat < 2 → raises .outputOverrun (r0.drop k)) ∧
        (k ≤ r0.valid.toNat → s.dec.mode = .rl → v = 0 → r0.lookahead.toNat ≤ s.cfg.escThreshold.toNat →
          let r1 := (r0.drop k).refill s.src
          (r1.valid.toNat < 1 → raises .bitstreamExhausted r1) ∧
          (1 ≤ r1.valid.toNat → r1.lookahead.getLsbD 15 = false →
            let r2 := (r1.drop 1).refill s.src
            (r2.valid.toNat < 1 → raises .bitstreamExhausted r2) ∧
            (1 ≤ r2.valid.toNat →
              let r3 := (r2.drop 1).refill s.src
              (classify s.cfg.distTbl s.cfg.distAlphabet r3.lookahead = none → raises .corruptTable r3) ∧
              ∀ d k', classify s.cfg.distTbl s.cfg.distAlphabet r3.lookahead = some (d, k') →
                (r3.valid.toNat < k' → raises .bitstreamExhausted r3) ∧
                (k' ≤ r3.valid.toNat →
                  let r4 := (r3.drop k').refill s.src
                  let dist := d * 32 + (r4.lookahead.extractLsb' 11 5).toNat
                  (r4.valid.toNat < 5 → raises .bitstreamExhausted r4) ∧
                  (5 ≤ r4.valid.toNat →
                    (dist = 0 ∨ s.win.produced.toNat < dist ∨ (s.cfg.farDist = .fault ∧ s.win.cap.toNat < dist) →
                      raises .invalidBackReference (r4.drop 5)) ∧
                    (1 ≤ dist → dist ≤ s.win.produced.toNat → ¬ (s.cfg.farDist = .fault ∧ s.win.cap.toNat < dist) →
                      s.win.remaining.toNat < (if r1.lookahead.getLsbD 14 then 4 else 3) →
                      raises .outputOverrun (r4.drop 5))))))))

/-- R185: a RUN that is not aborted ends within 2·R + 1 calls of step, R being REMAINING at its start (here with the
iteration that clears BUSY), with REMAINING = 0 or an error latched. -/
def Obligations.RunTerminates : Prop :=
  ∀ s : State, s.Inv → s.ctl.busy = true → s.ctl.abortReq = false → s.host.script = [] →
    ∃ t, Host.Core.run core (2 * s.win.remaining.toNat + 2) s = .next t ∧ t.ctl.busy = false ∧
      t.ctl.aborted = s.ctl.aborted ∧ (t.err.kind = .none → t.win.remaining = 0)

/-! ### BitReader -/

/-- R110: after a refill VALID is above 24 or the source is empty, at most 4 bytes were read, and the bit cursor, the
session's length and the reader's invariant are kept. -/
def Obligations.RefillEndsAndKeepsTheCursor : Prop :=
  ∀ (src : Memory) (b : BitReader), b.Inv →
    (24 < (b.refill src).valid.toNat ∨ (b.refill src).srcPos = b.sesSrcLen) ∧
    b.srcPos.toNat ≤ (b.refill src).srcPos.toNat ∧ (b.refill src).srcPos.toNat ≤ b.srcPos.toNat + 4 ∧
    (b.refill src).bitpos = b.bitpos ∧ (b.refill src).sesSrcLen = b.sesSrcLen ∧ (b.refill src).Inv

/-- R111: PEEK delivers the 16-bit lookahead after a refill, changes nothing else, never fails, and a second PEEK with no
consume in between changes nothing; the bits below the valid ones are 0. -/
def Obligations.PeekCommand : Prop :=
  encode .peek = some 0x50000000 ∧ ∀ s : State, s.Ready →
    ∃ t, exec .peek s = .next t ∧
      t = { s with
        bits := s.bits.refill s.src
        ctl := { s.ctl with result := ((s.bits.refill s.src).acc.extractLsb' 16 16).setWidth 32 } } ∧
      exec .peek t = .next t ∧
      (s.bits.Inv → ∀ i, t.bits.valid.toNat ≤ i → i < 16 → t.ctl.result.getLsbD (15 - i) = false)

/-- R113: the lookahead is the next 16 bits of the stream, with zeros past the end of the source. -/
def Obligations.PeekShowsTheNextStreamBits : Prop :=
  ∀ (src : Memory) (b : BitReader), b.Inv → b.Coherent src →
    ∀ i, i < 16 → (b.peek src).1.getMsbD i =
      streamBit src b.sesSrcLen.toNat (8 * b.srcPos.toNat - b.valid.toNat + i)

/-- R112: CONSUME n discards exactly the top n bits after a refill, or raises BitstreamExhausted with the state after the
refill; n of 17..31 is illegal. -/
def Obligations.ConsumeCommand : Prop :=
  ∀ (s : State) (n : BitVec 5), encode (.consume n) = some (0x6#4 ++ 0#23 ++ n) ∧ (s.Ready →
    (n.toNat ≤ 16 → n.toNat ≤ (s.bits.refill s.src).valid.toNat →
      exec (.consume n) s = .next { s with bits := { s.bits.refill s.src with
        acc := (s.bits.refill s.src).acc <<< n.toNat
        valid := BitVec.ofNat 6 ((s.bits.refill s.src).valid.toNat - n.toNat) } }) ∧
    (n.toNat ≤ 16 → (s.bits.refill s.src).valid.toNat < n.toNat →
      exec (.consume n) s = .next { s with
        bits := s.bits.refill s.src, err := .now .bitstreamExhausted (s.bits.refill s.src) s.win }) ∧
    (s.bits.Inv → n.toNat ≤ 16 → (s.bits.refill s.src).valid.toNat < n.toNat →
      (s.bits.refill s.src).srcPos = s.bits.sesSrcLen) ∧
    (16 < n.toNat → exec (.consume n) s = .next s.afterIllegal))

/-- R22, R113: consume(n) moves the bit cursor by exactly n, and the valid bits stay the next bits of the stream. -/
def Obligations.ConsumeMovesTheCursorExactly : Prop :=
  ∀ (src : Memory) (n : Nat) (b b' : BitReader), b.Inv → b.Coherent src → b.consume src n = .done () b' →
    b'.bitpos = b.bitpos + n ∧ b'.Inv ∧ b'.Coherent src

/-- R113, R235: in a session every step keeps the valid bits of the accumulator the next bits of the source, whatever the
host does. When the source is held, and that a START may take over another, are the model's choices (log entries 6
and 23). -/
def Obligations.StepKeepsTheStream : Prop :=
  ∀ s t : State, s.Inv → (s.ctl.active = true → s.bits.Coherent s.src) → step s = .next t → t.ctl.active = true →
    t.bits.Coherent t.src

/-- R120, R121: DECODE delivers the symbol of the lookahead under the selected table pair and consumes its code; a failed
table check is CorruptTable and consumes nothing, and is reported before BitstreamExhausted. -/
def Obligations.DecodeCommand : Prop :=
  ∀ (s : State) (t : TableSel), s.Ready →
    (∀ v k, classify (s.cfg.table t).1 (s.cfg.table t).2 ((s.bits.refill s.src).acc.extractLsb' 16 16) = some (v, k) →
      (k ≤ (s.bits.refill s.src).valid.toNat →
        exec (.decode t) s = .next { s with
          bits := { s.bits.refill s.src with
            acc := (s.bits.refill s.src).acc <<< k
            valid := BitVec.ofNat 6 ((s.bits.refill s.src).valid.toNat - k) }
          ctl := { s.ctl with result := BitVec.ofNat 32 v } }) ∧
      ((s.bits.refill s.src).valid.toNat < k →
        exec (.decode t) s = .next { s with
          bits := s.bits.refill s.src, err := .now .bitstreamExhausted (s.bits.refill s.src) s.win })) ∧
    (classify (s.cfg.table t).1 (s.cfg.table t).2 ((s.bits.refill s.src).acc.extractLsb' 16 16) = none →
      exec (.decode t) s = .next { s with
        bits := s.bits.refill s.src, err := .now .corruptTable (s.bits.refill s.src) s.win })

/-- R22, R25: within a session the bit cursor and SRC_POS never go back. -/
def Obligations.CursorNeverGoesBack : Prop :=
  ∀ (i : Instr) (s t : State), s.Inv → i ≠ .start → exec i s = .next t →
    s.bits.bitpos ≤ t.bits.bitpos ∧ s.bits.srcPos.toNat ≤ t.bits.srcPos.toNat ∧ t.bits.sesSrcLen = s.bits.sesSrcLen

/-! ### AdaptiveSymbolTable -/

/-- R130: LOOKUP r delivers TABLE[r], with an error latched or not, and changes nothing else. -/
def Obligations.LookupCommand : Prop :=
  ∀ (s : State) (r : Byte), encode (.lookup r) = some (0x8#4 ++ 0#20 ++ r) ∧
    (s.Active → exec (.lookup r) s = .next { s with
      ctl := { s.ctl with result := (s.tab.table[r.toNat]'r.isLt).setWidth 32 } })

/-- R134: RDPC v delivers PC[v], with an error latched or not, and changes nothing else. -/
def Obligations.RdpcCommand : Prop :=
  ∀ (s : State) (v : Byte), encode (.rdpc v) = some (0xE#4 ++ 0#20 ++ v) ∧
    (s.Active → exec (.rdpc v) s = .next { s with
      ctl := { s.ctl with result := (s.tab.pc[v.toNat]'v.isLt).setWidth 32 } })

/-- R131: PROMOTE r in both modes, within the quota and above it; it changes the table alone and raises nothing. -/
def Obligations.PromoteCommand : Prop :=
  ∀ (s : State) (r : Byte), encode (.promote r) = some (0x9#4 ++ 0#20 ++ r) ∧
    (s.Ready → s.cfg.ok →
      ∃ t, exec (.promote r) s = .next t ∧ t = { s with tab := t.tab } ∧ Promoted s.cfg r s.tab t.tab)

/-- R132, R135: after CORRECT every rank maps to itself and every placement counter is 0; nothing else changes, and
a second CORRECT changes nothing. -/
def Obligations.CorrectCommand : Prop :=
  encode .correct = some 0xA0000000 ∧ ∀ s : State, s.Ready →
    ∃ t, exec .correct s = .next t ∧ t = { s with tab := t.tab } ∧ Corrected t.tab ∧ exec .correct t = .next t

/-- R133: every operation keeps TABLE a permutation: distinct ranks hold distinct bytes, and every byte is held. -/
def Obligations.TableStaysAPermutation : Prop :=
  ∀ (i : Instr) (s t : State), (∀ r r', s.tab.lookup r = s.tab.lookup r' → r = r') → exec i s = .next t →
    (∀ r r', t.tab.lookup r = t.tab.lookup r' → r = r') ∧ (∀ b, ∃ r, t.tab.lookup r = b)

/-! ### OutputWindow -/

/-- R141: PUSH b writes one byte at the cursor, or raises OutputOverrun with nothing changed, which a STEP with
REMAINING = 0 does not. -/
def Obligations.PushCommand : Prop :=
  ∀ (s : State) (b : Byte), encode (.push b) = some (0xB#4 ++ 0#20 ++ b) ∧ (s.Ready → 1 ≤ s.win.cap.toNat →
    (s.win.remaining ≠ 0 →
      ∃ t, exec (.push b) s = .next t ∧ t = { s with win := t.win } ∧ Pushed b s.win t.win) ∧
    (s.win.remaining = 0 →
      exec (.push b) s = .next { s with err := .now .outputOverrun s.bits s.win }) ∧
    (s.win.remaining = 0 → exec .step s = .next s))

/-- R142, R144: a COPY that passes its checks copies byte by byte, so that a later byte may read an earlier one; it
stores at the cursor's next len addresses and nowhere else, and reads no byte that the session has not written. -/
def Obligations.CopyCommandCopies : Prop :=
  ∀ (s : State) (d : BitVec 16) (len : Byte), s.Ready → s.win.Inv → 1 ≤ d.toNat → d.toNat ≤ s.win.produced.toNat →
    ¬ (s.cfg.farDist = .fault ∧ s.win.cap.toNat < d.toNat) → len.toNat ≤ s.win.remaining.toNat →
    ∃ t, exec (.copy d len) s = .next t ∧ t = { s with win := t.win } ∧ Copied d.toNat len.toNat s.win t.win

/-- R142, R203: the checks of COPY in their order, each before the first write. -/
def Obligations.CopyCommandChecks : Prop :=
  ∀ (s : State) (d : BitVec 16) (len : Byte), s.Ready →
    (d.toNat = 0 ∨ s.win.produced.toNat < d.toNat →
      exec (.copy d len) s = .next { s with err := .now .invalidBackReference s.bits s.win }) ∧
    (1 ≤ d.toNat → d.toNat ≤ s.win.produced.toNat → s.cfg.farDist = .fault → s.win.cap.toNat < d.toNat →
      exec (.copy d len) s = .next { s with err := .now .invalidBackReference s.bits s.win }) ∧
    (1 ≤ d.toNat → d.toNat ≤ s.win.produced.toNat → ¬ (s.cfg.farDist = .fault ∧ s.win.cap.toNat < d.toNat) →
      s.win.remaining.toNat < len.toNat →
      exec (.copy d len) s = .next { s with err := .now .outputOverrun s.bits s.win })

/-- R145, R30, R35: RDWIN a delivers the byte that the session has written at a, an unspecified byte where it has written
none, and is illegal for a ≥ C. That exactly the addresses below min(PRODUCED, C) count as written, and that an
unspecified byte is a fresh free value which advances the draw counter, are the model's choices (log entries 3 and 4). -/
def Obligations.RdwinCommand : Prop :=
  ∀ (s : State) (a : BitVec 24), encode (.rdwin a) = some (0xD#4 ++ 0#4 ++ a) ∧ (s.Active →
    (∀ b, a.toNat < s.win.cap.toNat → a.toNat < s.win.produced.toNat → s.win.ram.read a.toNat = some b →
      exec (.rdwin a) s = .next { s with ctl := { s.ctl with result := b.setWidth 32 } }) ∧
    (a.toNat < s.win.cap.toNat → s.win.produced.toNat ≤ a.toNat →
      ∃ v : Byte, exec (.rdwin a) s = .next { s with
        win := { s.win with draws := s.win.draws + 1 }, ctl := { s.ctl with result := v.setWidth 32 } }) ∧
    (s.win.cap.toNat ≤ a.toNat → exec (.rdwin a) s = .next s.afterIllegal))

/-- R33, R34, R63: but for START, every instruction keeps PRODUCED + REMAINING, takes nothing from the output stream, and
keeps |OUT| = PRODUCED. -/
def Obligations.OutputIsAccountedFor : Prop :=
  ∀ (i : Instr) (s t : State), s.Inv → s.ctl.active = true → i ≠ .start → exec i s = .next t →
    t.win.produced.toNat + t.win.remaining.toNat = s.win.produced.toNat + s.win.remaining.toNat ∧
    t.win.out.take s.win.out.length = s.win.out ∧ t.win.out.length = t.win.produced.toNat ∧ t.win.cap = s.win.cap

/-! ### Decoder: the tokens -/

/-- R151: LIT-LH r pushes TABLE[r] as it stood, updates the estimator and the counters with the rank, promotes the rank,
and counts the literal; the 16th count with FLAG_CNT = 0 switches to RL. -/
def Obligations.LiteralInHuffmanMode : Prop :=
  ∀ (s : State) (r : Byte), s.cfg.ok → 1 ≤ s.win.cap.toNat → s.win.remaining ≠ 0 → s.dec.avr.toNat ≤ 0xFF00 →
    ∃ t, exec (.litLH r) s = .next t ∧ t = { s with win := t.win, tab := t.tab, dec := t.dec } ∧
      Pushed (s.tab.lookup r) s.win t.win ∧ Promoted s.cfg r s.tab t.tab ∧ Estimated s.cfg r s.dec t.dec ∧
      t.dec.numHuf = s.dec.numHuf + 1 ∧
      (16 ≤ (s.dec.numHuf + 1).toNat ∧ s.dec.flagCnt = 0 → t.dec.mode = .rl) ∧
      (¬ (16 ≤ (s.dec.numHuf + 1).toNat ∧ s.dec.flagCnt = 0) → t.dec.mode = s.dec.mode)

/-- R152: LIT-RL r runs the literal path on r − RL_RANK_OFFSET without counting: NUM_HUF and MODE are unchanged. -/
def Obligations.LiteralInRunLengthMode : Prop :=
  ∀ (s : State) (r q : Byte), s.cfg.ok → 1 ≤ s.win.cap.toNat → s.win.remaining ≠ 0 → s.dec.avr.toNat ≤ 0xFF00 →
    r ≠ 0 → q.toNat = r.toNat - s.cfg.rlRankOffset.toNat →
    ∃ t, exec (.litRL r) s = .next t ∧ t = { s with win := t.win, tab := t.tab, dec := t.dec } ∧
      Pushed (s.tab.lookup q) s.win t.win ∧ Promoted s.cfg q s.tab t.tab ∧ Estimated s.cfg q s.dec t.dec ∧
      t.dec.numHuf = s.dec.numHuf ∧ t.dec.mode = s.dec.mode

/-- R153: ESC writes 0x01 then 0x00 and touches the window alone; with fewer than two bytes owed it raises OutputOverrun
and writes nothing. -/
def Obligations.EscapeToken : Prop :=
  ∀ s : State, 1 ≤ s.win.cap.toNat →
    (2 ≤ s.win.remaining.toNat →
      ∃ t w, exec .esc s = .next t ∧ t = { s with win := t.win } ∧ Pushed 0x01 s.win w ∧ Pushed 0x00 w t.win) ∧
    (s.win.remaining.toNat < 2 → s.err.kind = .none →
      exec .esc s = .next { s with err := .now .outputOverrun s.bits s.win })

/-- R154: SWITCH sets MODE to LH and NUM_HUF to 0, and changes nothing else. -/
def Obligations.SwitchToken : Prop :=
  ∀ s : State, exec .switch s = .next { s with dec := { s.dec with mode := .lh, numHuf := 0 } }

/-- R155: BACKREF l, d, e copies 4 bytes (l = 1) or 3 (l = 0) from d·32 + e back, and changes the window alone. -/
def Obligations.BackReferenceToken : Prop :=
  ∀ (s : State) (l : Bool) (d : BitVec 11) (e : BitVec 5), s.win.Inv →
    1 ≤ d.toNat * 32 + e.toNat → d.toNat * 32 + e.toNat ≤ s.win.produced.toNat →
    ¬ (s.cfg.farDist = .fault ∧ s.win.cap.toNat < d.toNat * 32 + e.toNat) →
    (if l then 4 else 3) ≤ s.win.remaining.toNat →
    ∃ t, exec (.backref l d e) s = .next t ∧ t = { s with win := t.win } ∧
      Copied (d.toNat * 32 + e.toNat) (if l then 4 else 3) s.win t.win

/-- R155, R156, R203: a back-reference that fails a check, or a literal with no byte owed, leaves the record and changes
nothing else. -/
def Obligations.TokenErrors : Prop :=
  ∀ (s : State) (r : Byte) (l : Bool) (d : BitVec 11) (e : BitVec 5), s.err.kind = .none →
    (s.win.remaining = 0 →
      exec (.litLH r) s = .next { s with err := .now .outputOverrun s.bits s.win } ∧
      exec (.litRL r) s = .next { s with err := .now .outputOverrun s.bits s.win }) ∧
    (d.toNat * 32 + e.toNat = 0 ∨ s.win.produced.toNat < d.toNat * 32 + e.toNat ∨
        (s.cfg.farDist = .fault ∧ s.win.cap.toNat < d.toNat * 32 + e.toNat) →
      exec (.backref l d e) s = .next { s with err := .now .invalidBackReference s.bits s.win }) ∧
    (1 ≤ d.toNat * 32 + e.toNat → d.toNat * 32 + e.toNat ≤ s.win.produced.toNat →
      ¬ (s.cfg.farDist = .fault ∧ s.win.cap.toNat < d.toNat * 32 + e.toNat) →
      s.win.remaining.toNat < (if l then 4 else 3) →
      exec (.backref l d e) s = .next { s with err := .now .outputOverrun s.bits s.win })

/-- R158: a sum that reaches 0xFF reloads NHFB with 0x90 and halves NLZB; any other sum is stored. -/
def Obligations.SaturatingCounters : Prop :=
  ∀ (d : Decoder) (step : Byte),
    (0xFF ≤ d.nhfb.toNat + step.toNat →
      d.countersUpdate step = { d with nhfb := 0x90, nlzb := BitVec.ofNat 8 (d.nlzb.toNat / 2) }) ∧
    (d.nhfb.toNat + step.toNat < 0xFF →
      d.countersUpdate step = { d with nhfb := BitVec.ofNat 8 (d.nhfb.toNat + step.toNat) })

/-- R160: from LH with NUM_HUF = 0 and FLAG_CNT = 0 the block is in LH after each of the first 15 literals and in RL
right after the 16th, whatever the ranks; with FLAG_CNT not 0 it stays in LH. -/
def Obligations.SixteenLiteralsSwitchTheMode : Prop :=
  ∀ (s : State) (rs : List Byte), s.Inv → s.ctl.active = true → s.dec.mode = .lh → s.dec.numHuf = 0 →
    rs.length ≤ 16 → rs.length ≤ s.win.remaining.toNat →
    ∃ t, rs.foldl (fun (o : Option State) r => o.bind fun u =>
        match exec (.litLH r) u with
        | .next v => some v
        | _ => none) (some s) = some t ∧ t.err = s.err ∧
      (t.dec.mode = .rl ↔ rs.length = 16 ∧ s.dec.flagCnt = 0)

/-- R160: RL → LH happens only by SWITCH and LH → RL only by a counted literal; the two commands under which MODE may
change are START, which loads it, and STEP, which runs a token. -/
def Obligations.ModeChangesOnlyByItsTokens : Prop :=
  ∀ (i : Instr) (s t : State), exec i s = .next t → t.dec.mode ≠ s.dec.mode → i ≠ .start → i ≠ .step →
    (t.dec.mode = .lh ∧ i = .switch) ∨ (t.dec.mode = .rl ∧ ∃ r, i = .litLH r)

/-! ### Errors -/

/-- R201: an error that a step of the machine latches holds the offsets of the state that the step leaves, but for
START's InvalidConfig, whose offsets are 0. -/
def Obligations.ErrorRecordHoldsTheOffsets : Prop :=
  ∀ (i : Instr) (s t : State), i ≠ .start → s.err.kind = .none → exec i s = .next t → t.err.kind ≠ .none →
    t.err.inOff = t.bits.srcPos ∧ t.err.outOff = t.win.produced ∧ t.err.kind ≠ .invalidConfig

/-- R44, R205: a latched error record is kept by every step but a START and a hardware reset. That a START may also come as
the move handOver is the model's choice (log entry 23). -/
def Obligations.ErrorRecordIsSticky : Prop :=
  ∀ s t : State, s.err.kind ≠ .none → step s = .next t → s.nextMove ≠ some .reset →
    (∀ w, s.nextMove = some (.write 0 .word w) → decode w ≠ .ok .start) → (∀ b, s.nextMove ≠ some (.handOver b)) →
    t.err = s.err

/-! ### The host interface -/

/-- R42: the bits of STATUS. -/
def Obligations.StatusBits : Prop :=
  ∀ s : State,
    (readReg 0x04 s).getLsbD 0 = s.ctl.active ∧ (readReg 0x04 s).getLsbD 1 = s.ctl.busy ∧
    (readReg 0x04 s).getLsbD 2 = (s.ctl.active && decide (s.win.remaining = 0)) ∧
    (readReg 0x04 s).getLsbD 3 = decide (s.err.kind ≠ .none) ∧ (readReg 0x04 s).getLsbD 4 = s.ctl.aborted ∧
    (readReg 0x04 s).getLsbD 5 = s.ctl.cmdDropped ∧ (readReg 0x04 s).getLsbD 8 = s.dec.mode.bit ∧
    (∀ k, k = 6 ∨ k = 7 ∨ 9 ≤ k → (readReg 0x04 s).getLsbD k = false)

/-- R41, R72: an aligned word read returns the register's value and has no side effect; CMD and every offset not in the
map read 0. -/
def Obligations.RegisterReads : Prop :=
  (∀ (s : State) (o : Word), s.nextMove = some (.read o .word) → o.toNat % 4 = 0 →
    step s = .next { s.advanced with host := { s.advanced.host with rdata := readReg o s } }) ∧
  (∀ s : State,
    readReg 0x00 s = 0 ∧ readReg 0x08 s = s.ctl.result ∧ readReg 0x0C s = s.err.kind.code.setWidth 32 ∧
    readReg 0x10 s = s.err.inOff ∧ readReg 0x14 s = s.err.outOff ∧ readReg 0x20 s = s.cfgRegs.srcLen ∧
    readReg 0x24 s = s.cfgRegs.outLen ∧ readReg 0x28 s = s.cfgRegs.winCap ∧ readReg 0x2C s = s.cfgRegs.ctrl ∧
    readReg 0x40 s = s.bits.acc ∧ readReg 0x44 s = s.bits.valid.setWidth 32 ∧ readReg 0x48 s = s.bits.srcPos ∧
    readReg 0x4C s = s.win.wptr ∧ readReg 0x50 s = s.win.remaining ∧ readReg 0x54 s = s.win.produced ∧
    readReg 0x58 s = s.dec.numHuf ∧ readReg 0x5C s = s.dec.flagCnt.setWidth 32 ∧
    readReg 0x60 s = s.dec.avr.setWidth 32 ∧ readReg 0x64 s = s.dec.nhfb.setWidth 32 ∧
    readReg 0x68 s = s.dec.nlzb.setWidth 32 ∧ readReg 0x6C s = s.win.cap ∧ readReg 0x70 s = s.bits.sesSrcLen ∧
    (∀ o : Word, o ∉ ([0x04, 0x08, 0x0C, 0x10, 0x14, 0x20, 0x24, 0x28, 0x2C, 0x40, 0x44, 0x48, 0x4C, 0x50, 0x54, 0x58,
      0x5C, 0x60, 0x64, 0x68, 0x6C, 0x70] : List Word) → readReg o s = 0))

/-- R41, R233: an aligned word write to a CFG register stores it (the reserved bits of CFG_CTRL as 0), and to any other
offset but CMD is ignored; it may come at any time and touches nothing of the session. -/
def Obligations.RegisterWrites : Prop :=
  ∀ (s : State) (o v : Word), s.nextMove = some (.write o .word v) → o.toNat % 4 = 0 → o ≠ 0 →
    ∃ t, step s = .next t ∧ t = { s.advanced with cfgRegs := t.cfgRegs } ∧
      t.cfgRegs.srcLen = (if o = 0x20 then v else s.cfgRegs.srcLen) ∧
      t.cfgRegs.outLen = (if o = 0x24 then v else s.cfgRegs.outLen) ∧
      t.cfgRegs.winCap = (if o = 0x28 then v else s.cfgRegs.winCap) ∧
      t.cfgRegs.ctrl = (if o = 0x2C then v &&& 0x0000FF01 else s.cfgRegs.ctrl)

/-- R71: a sub-word or misaligned register access is refused: no step is defined. -/
def Obligations.NarrowAccessIsRefused : Prop :=
  ∀ (s : State) (o v : Word) (z : AccessSize), z ≠ .word ∨ o.toNat % 4 ≠ 0 →
    (s.nextMove = some (.read o z) → step s = .refused .registerAccess) ∧
    (s.nextMove = some (.write o z v) → step s = .refused .registerAccess)

/-- R60, R235, R240: the host may place a source byte, but not change one of SRC[0..SES_SRC_LEN−1] during a session;
placing the value that a byte already has changes nothing. A START that begins a session takes over the source that the
host hands over with it, and one that does not leaves the source as it was. What an unplaced byte reads as, when the
source is held, and the move handOver are the model's choices (log entries 5, 6 and 23). -/
def Obligations.SourcePlacement : Prop :=
  (∀ (s : State) (p : Word) (v : Byte), s.nextMove = some (.place p v) →
    (s.ctl.active = true → p.toNat < s.bits.sesSrcLen.toNat → s.src.read p.toNat ≠ some v →
      step s = .fault .sourceHeld) ∧
    (s.ctl.active = false ∨ s.bits.sesSrcLen.toNat ≤ p.toNat ∨ s.src.read p.toNat = some v →
      ∃ t, step s = .next t ∧ t = { s.advanced with src := t.src } ∧ t.src.read p.toNat = some v ∧
        (∀ a, a ≠ p.toNat → t.src.read a = s.src.read a))) ∧
  (∀ (s : State) (bytes : List Byte), s.nextMove = some (.handOver bytes) →
    (s.Idle → 1 ≤ s.cfgRegs.winCap.toNat → s.cfgRegs.winCap.toNat ≤ s.cfg.windowMax →
      ∃ t u, exec .start s.advanced = .next u ∧ step s = .next t ∧ t = { u with src := t.src } ∧
        ∀ a, t.src.read a = bytes[a]?) ∧
    (¬ (s.Idle ∧ 1 ≤ s.cfgRegs.winCap.toNat ∧ s.cfgRegs.winCap.toNat ≤ s.cfg.windowMax) →
      step s = exec .start s.advanced))

/-- R60, R65, R6: no step changes a parameter, and only the host's own moves change a source byte. -/
def Obligations.ParametersAndSourceAreNotWritten : Prop :=
  ∀ s t : State, step s = .next t →
    t.cfg = s.cfg ∧
      ((∀ p v, s.nextMove ≠ some (.place p v)) → (∀ b, s.nextMove ≠ some (.handOver b)) → t.src = s.src)

/-- R233: only START reads the CFG registers: every other instruction does the same whatever they hold. -/
def Obligations.OnlyStartReadsConfiguration : Prop :=
  ∀ (i : Instr) (s t : State) (c : CfgRegs), i ≠ .start → exec i s = .next t →
    exec i { s with cfgRegs := c } = .next { t with cfgRegs := c }

/-- R39, R40: no operation reads AVR, NHFB or NLZB to make a decoding decision: two states that differ in them alone
still differ in them alone after any instruction. -/
def Obligations.EstimatorDecidesNothing : Prop :=
  ∀ (i : Instr) (s t : State) (a : Half) (h l : Byte), exec i s = .next t →
    ∃ a' h' l', exec i { s with dec := { s.dec with avr := a, nhfb := h, nlzb := l } } =
      .next { t with dec := { t.dec with avr := a', nhfb := h', nlzb := l' } }
end

