-- ==== Sys2Proof/Laws/Decode.lean ====
section
/-! SUPPORT. Decoding: the rows of R91 do not overlap, because a word that matches a row has the row's OP field. -/

namespace Sys2Proof

/-- A word that matches a row has the row's OP field (R90, R91). -/
theorem row_op {w : Word} {r : Row} (hr : r ∈ rows) (h : (w &&& r.mask) = r.pattern) :
    w.extractLsb' 28 4 = r.pattern.extractLsb' 28 4 := by
  have hm : ∀ q ∈ rows, q.mask.extractLsb' 28 4 = BitVec.allOnes 4 := by decide
  rw [← h, BitVec.extractLsb'_and, hm r hr, BitVec.and_allOnes]

/-- The row that a word matches is the row that the decoder finds. -/
theorem find_row {w : Word} {pre post : List Row} {r : Row} (h : rows = pre ++ r :: post)
    (hr : (w &&& r.mask) = r.pattern)
    (hp : ∀ q ∈ pre, q.pattern.extractLsb' 28 4 ≠ r.pattern.extractLsb' 28 4) :
    rows.find? (fun q => q.accepts w) = some r := by
  have hmem : r ∈ rows := by rw [h]; exact List.mem_append_right _ (List.mem_cons_self ..)
  rw [h, List.find?_append, List.find?_eq_none.mpr, Option.none_or,
    List.find?_cons_of_pos (by simp [Row.accepts, hr])]
  intro q hq ha
  have ha : (w &&& q.mask) = q.pattern := by simpa [Row.accepts] using ha
  have hqm : q ∈ rows := by rw [h]; exact List.mem_append_left _ hq
  exact hp q hq ((row_op hqm ha).symm.trans (row_op hmem hr))

/-- What decode can do: no row, a row whose operand is out of range, or the row's instruction. -/
theorem decode_cases (w : Word) :
    (rows.find? (fun r => r.accepts w) = none ∧ decode w = .error .noRow) ∨
      (∃ r, rows.find? (fun r => r.accepts w) = some r ∧
        (((r.operands w).wellFormed = true ∧ decode w = .ok (r.operands w)) ∨
          ((r.operands w).wellFormed = false ∧ decode w = .error .operandRange))) := by
  unfold decode
  cases h : rows.find? (fun r => r.accepts w) with
  | none => exact .inl ⟨rfl, rfl⟩
  | some r =>
    refine .inr ⟨r, rfl, ?_⟩
    by_cases hw : (r.operands w).wellFormed = true
    · exact .inl ⟨hw, by simp [hw]⟩
    · rw [Bool.not_eq_true] at hw
      exact .inr ⟨hw, by simp [hw]⟩

/-- A word that matches no row of R91 decodes to nothing. -/
theorem decode_noRow {w : Word} (h : ∀ r ∈ rows, (w &&& r.mask) ≠ r.pattern) : decode w = .error .noRow := by
  rcases decode_cases w with ⟨_, h2⟩ | ⟨r, h1, _⟩
  · exact h2
  · exact absurd (by simpa [Row.accepts] using List.find?_some h1) (h r (List.mem_of_find?_eq_some h1))

end Sys2Proof
end

