-- ==== Sys2Proof/Laws/Ops.lean ====
section
/-! SUPPORT. What the shared operations can do: sequencing, the lifts of component operations to the state, and the gates
of command acceptance (R180). -/

namespace Sys2Proof.Machine

/-! ### Sequencing -/

@[simp] theorem Res.bind_done {σ α β : Type} (a : α) (s : σ) (f : α → σ → Res σ β) :
    (Res.done a s).bind f = f a s := rfl

@[simp] theorem Res.bind_raise {σ α β : Type} (e : ErrKind) (s : σ) (f : α → σ → Res σ β) :
    (Res.raise e s : Res σ α).bind f = .raise e s := rfl

/-- A sequence is done only where both parts are. -/
theorem Res.bind_eq_done {σ α β : Type} {r : Res σ α} {f : α → σ → Res σ β} {b : β} {t : σ} :
    r.bind f = .done b t ↔ ∃ a s, r = .done a s ∧ f a s = .done b t := by
  cases r <;> simp

/-- A sequence raises where its first part does, or its second after the first. -/
theorem Res.bind_eq_raise {σ α β : Type} {r : Res σ α} {f : α → σ → Res σ β} {e : ErrKind} {t : σ} :
    r.bind f = .raise e t ↔ r = .raise e t ∨ ∃ a s, r = .done a s ∧ f a s = .raise e t := by
  cases r <;> simp

/-- The state that an operation leaves, whichever way it ends. -/
def Res.state {σ α : Type} : Res σ α → σ
  | .done _ s => s
  | .raise _ s => s

@[simp] theorem Res.state_done {σ α : Type} (a : α) (s : σ) : (Res.done a s).state = s := rfl
@[simp] theorem Res.state_raise {σ α : Type} (e : ErrKind) (s : σ) : (Res.raise e s : Res σ α).state = s := rfl

/-- A property that both parts keep is kept by their sequence. -/
theorem Res.state_bind {σ α β : Type} (P : σ → Prop) {r : Res σ α} {f : α → σ → Res σ β} (hr : P r.state)
    (hf : ∀ a s, r = .done a s → P s → P (f a s).state) : P (r.bind f).state := by
  cases r with
  | done a s => exact hf a s rfl hr
  | raise e s => exact hr

/-! ### Lifts: a component operation changes its component alone -/

theorem onBits_state {α : Type} (f : BitReader → Res BitReader α) (s : State) :
    (onBits f s).state = { s with bits := (f s.bits).state } := by
  unfold onBits; cases f s.bits <;> rfl

theorem onTab_state {α : Type} (f : SymTable → Res SymTable α) (s : State) :
    (onTab f s).state = { s with tab := (f s.tab).state } := by
  unfold onTab; cases f s.tab <;> rfl

theorem onWin_state {α : Type} (f : Window → Res Window α) (s : State) :
    (onWin f s).state = { s with win := (f s.win).state } := by
  unfold onWin; cases f s.win <;> rfl

theorem onBits_eq_done {α : Type} {f : BitReader → Res BitReader α} {s t : State} {a : α} :
    onBits f s = .done a t ↔ ∃ b, f s.bits = .done a b ∧ t = { s with bits := b } := by
  unfold onBits; cases f s.bits <;> simp [eq_comm]

theorem onTab_eq_done {α : Type} {f : SymTable → Res SymTable α} {s t : State} {a : α} :
    onTab f s = .done a t ↔ ∃ b, f s.tab = .done a b ∧ t = { s with tab := b } := by
  unfold onTab; cases f s.tab <;> simp [eq_comm]

theorem onWin_eq_done {α : Type} {f : Window → Res Window α} {s t : State} {a : α} :
    onWin f s = .done a t ↔ ∃ b, f s.win = .done a b ∧ t = { s with win := b } := by
  unfold onWin; cases f s.win <;> simp [eq_comm]

theorem onBits_eq_raise {α : Type} {f : BitReader → Res BitReader α} {s t : State} {e : ErrKind} :
    onBits f s = .raise e t ↔ ∃ b, f s.bits = .raise e b ∧ t = { s with bits := b } := by
  unfold onBits; cases f s.bits <;> simp [eq_comm]

theorem onTab_eq_raise {α : Type} {f : SymTable → Res SymTable α} {s t : State} {e : ErrKind} :
    onTab f s = .raise e t ↔ ∃ b, f s.tab = .raise e b ∧ t = { s with tab := b } := by
  unfold onTab; cases f s.tab <;> simp [eq_comm]

theorem onWin_eq_raise {α : Type} {f : Window → Res Window α} {s t : State} {e : ErrKind} :
    onWin f s = .raise e t ↔ ∃ b, f s.win = .raise e b ∧ t = { s with win := b } := by
  unfold onWin; cases f s.win <;> simp [eq_comm]

/-- An operation's settled state is the state it leaves, but for the error record. -/
theorem settle_eq (r : Res State Unit) : settle r = { r.state with err := (settle r).err } := by
  cases r with
  | done a s => rfl
  | raise e s => simp only [settle, Res.state_raise]; unfold latch; split <;> rfl

/-- A delivered result changes the state that the operation leaves in RESULT and the error record alone. -/
theorem deliver_eq (r : Res State Word) :
    deliver r = { r.state with err := (deliver r).err, ctl := { r.state.ctl with result := (deliver r).ctl.result } } := by
  cases r with
  | done a s => rfl
  | raise e s => simp only [deliver, Res.state_raise]; unfold latch; split <;> rfl

/-! ### Acceptance (R180) -/

theorem whenIdle_busy {f : Meaning} {s : State} (h : s.ctl.busy = true) : whenIdle f s = .next (dropped s) := by
  simp [whenIdle, h]

theorem whenIdle_idle {f : Meaning} {s : State} (h : s.ctl.busy = false) : whenIdle f s = f s := by
  simp [whenIdle, h]

theorem whenLegal_ok {ok : State → Bool} {f : Meaning} {s : State} (h : ok s = true) : whenLegal ok f s = f s := by
  simp [whenLegal, h]

theorem whenLegal_not {ok : State → Bool} {f : Meaning} {s : State} (h : ok s = false) :
    whenLegal ok f s = .next (illegal s) := by
  simp [whenLegal, h]

theorem whenActive_active {f : Meaning} {s : State} (h : s.ctl.active = true) : whenActive f s = f s := by
  simp [whenActive, h]

theorem whenActive_not {f : Meaning} {s : State} (h : s.ctl.active = false) :
    whenActive f s = .next (illegal s) := by
  simp [whenActive, h]

theorem whenClear_clear {f : Meaning} {s : State} (h : s.err.kind = .none) : whenClear f s = f s := by
  simp [whenClear, h]

theorem whenClear_error {f : Meaning} {s : State} (h : s.err.kind ≠ .none) :
    whenClear f s = .next (dropped s) := by
  simp [whenClear, h]

/-- A mutating command is executed where it is accepted. -/
theorem mutating_ready {f : Meaning} {s : State} (h : s.Ready) : whenIdle (whenActive (whenClear f)) s = f s := by
  rw [whenIdle_idle h.1, whenActive_active h.2.1, whenClear_clear h.2.2]

/-- An inspection command is executed where it is accepted. -/
theorem inspecting_active {f : Meaning} {s : State} (h : s.Active) : whenIdle (whenActive f) s = f s := by
  rw [whenIdle_idle h.1, whenActive_active h.2]

/-- An illegal command word executes nothing: the error record or CMD_DROPPED changes, nothing else. -/
theorem illegal_eq (s : State) :
    illegal s = { s with
      err := (illegal s).err
      ctl := { s.ctl with cmdDropped := (illegal s).ctl.cmdDropped } } := by
  unfold illegal
  split
  · next h => rw [latch_eq h]
  · rfl
where
  latch_eq {s : State} (h : s.err.kind = .none) :
      latch .illegalCommand s =
        { s with err := { kind := .illegalCommand, inOff := s.bits.srcPos, outOff := s.win.produced } } := if_pos h

/-- A property that the state keeps when a command is dropped, found illegal or executed is kept by every gate. -/
theorem gates_keep (P : State → Prop) {f : Meaning} {s : State} (hd : P (dropped s)) (hi : P (illegal s))
    (hf : ∀ t, f s = .next t → P t) :
    (∀ t, whenIdle f s = .next t → P t) ∧ (∀ ok t, whenLegal ok f s = .next t → P t) ∧
      (∀ t, whenActive f s = .next t → P t) ∧ (∀ t, whenClear f s = .next t → P t) := by
  refine ⟨fun t h => ?_, fun ok t h => ?_, fun t h => ?_, fun t h => ?_⟩
  · unfold whenIdle at h; split at h
    · cases h; exact hd
    · exact hf t h
  · unfold whenLegal at h; split at h
    · exact hf t h
    · cases h; exact hi
  · unfold whenActive at h; split at h
    · exact hf t h
    · cases h; exact hi
  · unfold whenClear at h; split at h
    · exact hf t h
    · cases h; exact hd

/-- A START takes over a source and touches nothing else (R240). -/
theorem takeSource_eq (bytes : List Byte) (s : State) :
    takeSource bytes s = { s with src := (takeSource bytes s).src } := by
  unfold takeSource; split <;> rfl

/-- The source after a START that hands one over: the bytes handed over, or the source as it was. -/
theorem takeSource_src (bytes : List Byte) (s : State) :
    (takeSource bytes s).src =
      if s.ctl.busy = false ∧ capacityLegal s = true then Memory.ofList 0 bytes else s.src := by
  unfold takeSource; split <;> rfl

/-- The meaning of a token is exec of it. -/
theorem exec_token (t : Token) (s : State) : exec t.toInstr s = runToken t s := by cases t <;> rfl

end Sys2Proof.Machine
end

