-- ==== Sys2Proof/Laws/Reader.lean ====
section
/-! SUPPORT. BitReader: what refill, peek, consume and decode_symbol can do (R110 to R112, R120). -/

namespace Sys2Proof.Machine

/-- refill's loop condition (R110). -/
theorem BitReader.wants_iff (b : BitReader) :
    b.wants = true ↔ b.valid.toNat ≤ 24 ∧ b.srcPos.toNat < b.sesSrcLen.toNat := by
  exact decide_eq_true_iff

/-- What one fold does to VALID: it adds 8. -/
theorem BitReader.fold_valid {src : Memory} {b : BitReader} (h : b.wants = true) :
    (b.fold src).valid.toNat = b.valid.toNat + 8 := by
  have := (b.wants_iff.mp h).1
  simp [BitReader.fold, BitVec.toNat_add]; omega

/-- What one fold does to SRC_POS: it adds 1. -/
theorem BitReader.fold_srcPos {src : Memory} {b : BitReader} (h : b.wants = true) :
    (b.fold src).srcPos.toNat = b.srcPos.toNat + 1 := by
  have := (b.wants_iff.mp h).2
  have := b.sesSrcLen.isLt
  simp [BitReader.fold, BitVec.toNat_add]; omega

@[simp] theorem BitReader.fold_sesSrcLen (src : Memory) (b : BitReader) :
    (b.fold src).sesSrcLen = b.sesSrcLen := rfl

/-- A property that every fold keeps is kept by refill. -/
theorem BitReader.refillLoop_keeps (P : BitReader → Prop) (src : Memory)
    (hf : ∀ b, b.wants = true → P b → P (b.fold src)) :
    ∀ (n : Nat) (b : BitReader), P b → P (BitReader.refillLoop src n b)
  | 0, _, h => h
  | n + 1, b, h => by
    unfold BitReader.refillLoop
    split
    · next hw => exact BitReader.refillLoop_keeps P src hf n _ (hf b hw h)
    · exact h

theorem BitReader.refill_keeps (P : BitReader → Prop) (src : Memory)
    (hf : ∀ b, b.wants = true → P b → P (b.fold src)) {b : BitReader} (h : P b) : P (b.refill src) :=
  BitReader.refillLoop_keeps P src hf 4 b h

/-- A loop that can still make n folds has ended where VALID is above 24 − 8n before it. -/
theorem BitReader.refillLoop_ended (src : Memory) :
    ∀ (n : Nat) (b : BitReader), 24 < b.valid.toNat + 8 * n → (BitReader.refillLoop src n b).wants = false
  | 0, b, h => by
    rw [← Bool.not_eq_true, BitReader.refillLoop, b.wants_iff]; omega
  | n + 1, b, h => by
    unfold BitReader.refillLoop
    split
    · next hw => exact BitReader.refillLoop_ended src n _ (by rw [BitReader.fold_valid hw]; omega)
    · next hw => simpa using hw

/-- After a refill the loop condition is false: VALID is above 24, or the source is empty (R110). -/
theorem BitReader.refill_ended (src : Memory) (b : BitReader) : (b.refill src).wants = false :=
  BitReader.refillLoop_ended src 4 b (by omega)

/-- A refill with nothing to do changes nothing. -/
theorem BitReader.refill_of_ended {src : Memory} {b : BitReader} (h : b.wants = false) : b.refill src = b := by
  simp [BitReader.refill, BitReader.refillLoop, h]

/-- refill is idempotent, and with it peek (R111). -/
theorem BitReader.refill_refill (src : Memory) (b : BitReader) : (b.refill src).refill src = b.refill src :=
  BitReader.refill_of_ended (b.refill_ended src)

@[simp] theorem BitReader.refill_sesSrcLen (src : Memory) (b : BitReader) :
    (b.refill src).sesSrcLen = b.sesSrcLen :=
  BitReader.refill_keeps (fun c => c.sesSrcLen = b.sesSrcLen) src (fun _ _ h => h) rfl

/-- refill leaves BITPOS unchanged (R22). -/
theorem BitReader.refill_bitpos (src : Memory) (b : BitReader) : (b.refill src).bitpos = b.bitpos :=
  BitReader.refill_keeps (fun c => c.bitpos = b.bitpos) src
    (fun c hw h => by
      rw [← h, BitReader.bitpos, BitReader.bitpos, BitReader.fold_valid hw, BitReader.fold_srcPos hw]; push_cast; ring)
    rfl

/-- VALID only increases via refill (R24). -/
theorem BitReader.refill_valid_le (src : Memory) (b : BitReader) : b.valid.toNat ≤ (b.refill src).valid.toNat :=
  BitReader.refill_keeps (fun c => b.valid.toNat ≤ c.valid.toNat) src
    (fun c hw h => by rw [BitReader.fold_valid hw]; omega) le_rfl

@[simp] theorem BitReader.peek_fst (src : Memory) (b : BitReader) : (b.peek src).1 = (b.refill src).lookahead := rfl
@[simp] theorem BitReader.peek_snd (src : Memory) (b : BitReader) : (b.peek src).2 = b.refill src := rfl

@[simp] theorem BitReader.drop_srcPos (n : Nat) (b : BitReader) : (b.drop n).srcPos = b.srcPos := rfl
@[simp] theorem BitReader.drop_sesSrcLen (n : Nat) (b : BitReader) : (b.drop n).sesSrcLen = b.sesSrcLen := rfl
@[simp] theorem BitReader.drop_acc (n : Nat) (b : BitReader) : (b.drop n).acc = b.acc <<< n := rfl

theorem BitReader.drop_valid (n : Nat) (b : BitReader) : (b.drop n).valid.toNat = b.valid.toNat - n := by
  have := b.valid.isLt
  simp [BitReader.drop]; omega

/-- What consume can do (R112). -/
theorem BitReader.consume_cases (src : Memory) (n : Nat) (b : BitReader) :
    (n ≤ (b.refill src).valid.toNat ∧ b.consume src n = .done () ((b.refill src).drop n)) ∨
      ((b.refill src).valid.toNat < n ∧ b.consume src n = .raise .bitstreamExhausted (b.refill src)) := by
  unfold BitReader.consume
  by_cases h : (b.refill src).valid.toNat < n
  · exact .inr ⟨h, if_pos h⟩
  · exact .inl ⟨not_lt.mp h, if_neg h⟩

/-- What decode_symbol can do (R120): a failed table check leaves the refill alone, and otherwise the code is consumed. -/
theorem BitReader.decodeSymbol_cases (f : Half → Option (Nat × Nat)) (src : Memory) (b : BitReader) :
    (f (b.refill src).lookahead = none ∧ b.decodeSymbol f src = .raise .corruptTable (b.refill src)) ∨
      (∃ s k, f (b.refill src).lookahead = some (s, k) ∧
        ((k ≤ (b.refill src).valid.toNat ∧
            b.decodeSymbol f src = .done (s, (b.refill src).lookahead) ((b.refill src).drop k)) ∨
          ((b.refill src).valid.toNat < k ∧
            b.decodeSymbol f src = .raise .bitstreamExhausted (b.refill src)))) := by
  unfold BitReader.decodeSymbol
  simp only [BitReader.peek]
  cases h : f (b.refill src).lookahead with
  | none => exact .inl ⟨rfl, rfl⟩
  | some p =>
    obtain ⟨s, k⟩ := p
    refine .inr ⟨s, k, rfl, ?_⟩
    rcases (b.refill src).consume_cases src k with ⟨h1, h2⟩ | ⟨h1, h2⟩
    · rw [BitReader.refill_refill] at h1 h2
      exact .inl ⟨h1, by simp [h2]⟩
    · rw [BitReader.refill_refill] at h1 h2
      exact .inr ⟨h1, by simp [h2]⟩

/-- decode_symbol in its order of checks, with the refill of its consume, which has nothing to do, left out (R120). -/
theorem BitReader.decodeSymbol_eq (f : Half → Option (Nat × Nat)) (src : Memory) (b : BitReader) :
    b.decodeSymbol f src =
      match f (b.refill src).lookahead with
      | none => .raise .corruptTable (b.refill src)
      | some (s, k) =>
        if (b.refill src).valid.toNat < k then .raise .bitstreamExhausted (b.refill src)
        else .done (s, (b.refill src).lookahead) ((b.refill src).drop k) := by
  rcases b.decodeSymbol_cases f src with ⟨h1, h2⟩ | ⟨s, k, h1, ⟨h3, h2⟩ | ⟨h3, h2⟩⟩
  · rw [h2, h1]
  · rw [h2, h1]; exact (if_neg (not_lt.mpr h3)).symm
  · rw [h2, h1]; exact (if_pos h3).symm

/-- A consume right after a refill needs no refill of its own. -/
theorem BitReader.consume_refill (src : Memory) (n : Nat) (b : BitReader) :
    (b.refill src).consume src n =
      if (b.refill src).valid.toNat < n then .raise .bitstreamExhausted (b.refill src)
      else .done () ((b.refill src).drop n) := by
  rw [BitReader.consume, BitReader.refill_refill]

/-- The reading of SWITCH and BACKREF after SYM(0), in stream order, each reader the one after its refill (R155, R203). -/
theorem fetchRest_eq (c : Config) (src : Memory) (b : BitReader) :
    fetchRest c src b =
      let r1 := b.refill src
      if r1.valid.toNat < 1 then .raise .bitstreamExhausted r1
      else if flagBit r1.lookahead then .done .switch (r1.drop 1)
      else
        let r2 := (r1.drop 1).refill src
        if r2.valid.toNat < 1 then .raise .bitstreamExhausted r2
        else
          (decodeWith c .dist src (r2.drop 1)).bind fun d b4 =>
          let r4 := b4.refill src
          if r4.valid.toNat < Config.distExtBits then .raise .bitstreamExhausted r4
          else .done (.backref (lengthBit r1.lookahead) (BitVec.ofNat 11 d.1) (extBits r4.lookahead))
            (r4.drop Config.distExtBits) := by
  simp only [fetchRest, BitReader.peek, BitReader.consume_refill]
  by_cases h1 : (b.refill src).valid.toNat < 1
  · rw [if_pos h1, if_pos h1]; rfl
  rw [if_neg h1, if_neg h1, Res.bind]
  split
  · rfl
  rcases ((b.refill src).drop 1).consume_cases src 1 with ⟨h2, h3⟩ | ⟨h2, h3⟩ <;> rw [h3]
  · rw [if_neg (not_lt.mpr h2), Res.bind]
    refine congrArg _ (funext fun d => funext fun b4 => ?_)
    split <;> rfl
  · rw [if_pos h2]; rfl

/-- A property that refill and drop keep is kept by the reading of a token (R150, R155), however it ends. -/
theorem fetchToken_keeps (P : BitReader → Prop) (c : Config) (m : Mode) (src : Memory)
    (hr : ∀ b, P b → P (b.refill src)) (hd : ∀ n b, n ≤ b.valid.toNat → P b → P (b.drop n))
    {b : BitReader} (h : P b) : P (fetchToken c m src b).state := by
  have hc : ∀ n b, P b → P (b.consume src n).state := by
    intro n b hb
    rcases b.consume_cases src n with ⟨h1, h2⟩ | ⟨_, h2⟩ <;> rw [h2]
    · exact hd n _ h1 (hr b hb)
    · exact hr b hb
  have hs : ∀ t b, P b → P (decodeWith c t src b).state := by
    intro t b hb
    rcases b.decodeSymbol_cases (classify (c.table t).1 (c.table t).2) src with ⟨_, h2⟩ | ⟨s, k, _, ⟨h1, h2⟩ | ⟨_, h2⟩⟩ <;>
      rw [decodeWith, h2]
    · exact hr b hb
    · exact hd k _ h1 (hr b hb)
    · exact hr b hb
  have hf : ∀ b, P b → P (fetchRest c src b).state := by
    intro b hb
    unfold fetchRest
    refine Res.state_bind P (hc 1 _ (hr b hb)) fun _ b1 _ h1 => ?_
    split
    · exact h1
    refine Res.state_bind P (hc 1 _ h1) fun _ b2 _ h2 => ?_
    refine Res.state_bind P (hs .dist _ h2) fun _ b3 _ h3 => ?_
    exact Res.state_bind P (hc _ _ (hr _ h3)) fun _ b4 _ h4 => h4
  unfold fetchToken
  refine Res.state_bind P (hs .sym _ h) fun rl b1 _ h1 => ?_
  cases m with
  | lh => exact h1
  | rl =>
    dsimp only
    split
    · split
      · exact h1
      · exact hf _ h1
    · exact h1

end Sys2Proof.Machine
end

