-- ==== Sys2Proof/Laws/State.lean ====
section
/-! SUPPORT. One lemma per field per named update of the state, so that no proof unfolds a record update. -/

namespace Sys2Proof.Machine

/-! ### A dropped command -/

@[simp] theorem dropped_cfg (s : State) : (dropped s).cfg = s.cfg := rfl
@[simp] theorem dropped_src (s : State) : (dropped s).src = s.src := rfl
@[simp] theorem dropped_bits (s : State) : (dropped s).bits = s.bits := rfl
@[simp] theorem dropped_tab (s : State) : (dropped s).tab = s.tab := rfl
@[simp] theorem dropped_win (s : State) : (dropped s).win = s.win := rfl
@[simp] theorem dropped_dec (s : State) : (dropped s).dec = s.dec := rfl
@[simp] theorem dropped_err (s : State) : (dropped s).err = s.err := rfl
@[simp] theorem dropped_cfgRegs (s : State) : (dropped s).cfgRegs = s.cfgRegs := rfl
@[simp] theorem dropped_host (s : State) : (dropped s).host = s.host := rfl

@[simp] theorem dropped_ctl (s : State) : (dropped s).ctl = { s.ctl with cmdDropped := true } := rfl

/-! ### RESULT -/

@[simp] theorem setResult_cfg (v : Word) (s : State) : (setResult v s).cfg = s.cfg := rfl
@[simp] theorem setResult_src (v : Word) (s : State) : (setResult v s).src = s.src := rfl
@[simp] theorem setResult_bits (v : Word) (s : State) : (setResult v s).bits = s.bits := rfl
@[simp] theorem setResult_tab (v : Word) (s : State) : (setResult v s).tab = s.tab := rfl
@[simp] theorem setResult_win (v : Word) (s : State) : (setResult v s).win = s.win := rfl
@[simp] theorem setResult_dec (v : Word) (s : State) : (setResult v s).dec = s.dec := rfl
@[simp] theorem setResult_err (v : Word) (s : State) : (setResult v s).err = s.err := rfl
@[simp] theorem setResult_cfgRegs (v : Word) (s : State) : (setResult v s).cfgRegs = s.cfgRegs := rfl
@[simp] theorem setResult_host (v : Word) (s : State) : (setResult v s).host = s.host := rfl

@[simp] theorem setResult_ctl (v : Word) (s : State) : (setResult v s).ctl = { s.ctl with result := v } := rfl

/-! ### The error latch (R201) -/

@[simp] theorem latch_cfg (e : ErrKind) (s : State) : (latch e s).cfg = s.cfg := by unfold latch; split <;> rfl
@[simp] theorem latch_src (e : ErrKind) (s : State) : (latch e s).src = s.src := by unfold latch; split <;> rfl
@[simp] theorem latch_bits (e : ErrKind) (s : State) : (latch e s).bits = s.bits := by unfold latch; split <;> rfl
@[simp] theorem latch_tab (e : ErrKind) (s : State) : (latch e s).tab = s.tab := by unfold latch; split <;> rfl
@[simp] theorem latch_win (e : ErrKind) (s : State) : (latch e s).win = s.win := by unfold latch; split <;> rfl
@[simp] theorem latch_dec (e : ErrKind) (s : State) : (latch e s).dec = s.dec := by unfold latch; split <;> rfl
@[simp] theorem latch_cfgRegs (e : ErrKind) (s : State) : (latch e s).cfgRegs = s.cfgRegs := by unfold latch; split <;> rfl
@[simp] theorem latch_ctl (e : ErrKind) (s : State) : (latch e s).ctl = s.ctl := by unfold latch; split <;> rfl
@[simp] theorem latch_host (e : ErrKind) (s : State) : (latch e s).host = s.host := by unfold latch; split <;> rfl

/-- With no error latched, the record takes the kind and both offsets. -/
theorem latch_of_none {s : State} (e : ErrKind) (h : s.err.kind = .none) :
    latch e s = { s with err := { kind := e, inOff := s.bits.srcPos, outOff := s.win.produced } } := if_pos h

/-- A latched record is kept. -/
theorem latch_of_latched {s : State} (e : ErrKind) (h : s.err.kind ≠ .none) : latch e s = s := if_neg h

/-! ### START refused -/

@[simp] theorem refuseSession_cfg (s : State) : (refuseSession s).cfg = s.cfg := rfl
@[simp] theorem refuseSession_src (s : State) : (refuseSession s).src = s.src := rfl
@[simp] theorem refuseSession_bits (s : State) : (refuseSession s).bits = s.bits := rfl
@[simp] theorem refuseSession_tab (s : State) : (refuseSession s).tab = s.tab := rfl
@[simp] theorem refuseSession_win (s : State) : (refuseSession s).win = s.win := rfl
@[simp] theorem refuseSession_dec (s : State) : (refuseSession s).dec = s.dec := rfl
@[simp] theorem refuseSession_cfgRegs (s : State) : (refuseSession s).cfgRegs = s.cfgRegs := rfl
@[simp] theorem refuseSession_host (s : State) : (refuseSession s).host = s.host := rfl

@[simp] theorem refuseSession_err (s : State) :
    (refuseSession s).err = { kind := .invalidConfig, inOff := 0, outOff := 0 } := rfl
@[simp] theorem refuseSession_ctl (s : State) : (refuseSession s).ctl = { s.ctl with active := false } := rfl

/-! ### START accepted -/

@[simp] theorem beginSession_cfg (s : State) : (beginSession s).cfg = s.cfg := rfl
@[simp] theorem beginSession_src (s : State) : (beginSession s).src = s.src := rfl
@[simp] theorem beginSession_cfgRegs (s : State) : (beginSession s).cfgRegs = s.cfgRegs := rfl
@[simp] theorem beginSession_host (s : State) : (beginSession s).host = s.host := rfl

@[simp] theorem beginSession_bits (s : State) :
    (beginSession s).bits = { acc := 0, valid := 0, srcPos := 0, sesSrcLen := s.cfgRegs.srcLen } := rfl
@[simp] theorem beginSession_tab (s : State) : (beginSession s).tab = SymTable.identity := rfl
@[simp] theorem beginSession_win (s : State) :
    (beginSession s).win =
      { s.win with cap := s.cfgRegs.winCap, wptr := 0, remaining := s.cfgRegs.outLen, produced := 0, out := [] } := rfl
@[simp] theorem beginSession_dec (s : State) :
    (beginSession s).dec =
      { mode := s.cfgRegs.initMode, numHuf := 0, flagCnt := s.cfgRegs.flagCntInit
        avr := s.cfg.avrInit, nhfb := s.cfg.nhfbInit, nlzb := s.cfg.nlzbInit } := rfl
@[simp] theorem beginSession_err (s : State) : (beginSession s).err = { kind := .none, inOff := 0, outOff := 0 } := rfl
@[simp] theorem beginSession_ctl (s : State) :
    (beginSession s).ctl = { s.ctl with abortReq := false, aborted := false, cmdDropped := false, active := true } := rfl

/-! ### A command word placed in the host's script -/

@[simp] theorem issue_cfg (w : Word) (s : State) : (issue w s).cfg = s.cfg := rfl
@[simp] theorem issue_src (w : Word) (s : State) : (issue w s).src = s.src := rfl
@[simp] theorem issue_bits (w : Word) (s : State) : (issue w s).bits = s.bits := rfl
@[simp] theorem issue_tab (w : Word) (s : State) : (issue w s).tab = s.tab := rfl
@[simp] theorem issue_win (w : Word) (s : State) : (issue w s).win = s.win := rfl
@[simp] theorem issue_dec (w : Word) (s : State) : (issue w s).dec = s.dec := rfl
@[simp] theorem issue_err (w : Word) (s : State) : (issue w s).err = s.err := rfl
@[simp] theorem issue_cfgRegs (w : Word) (s : State) : (issue w s).cfgRegs = s.cfgRegs := rfl
@[simp] theorem issue_ctl (w : Word) (s : State) : (issue w s).ctl = s.ctl := rfl

/-! ### Register writes: only a CFG register can change (R41) -/

@[simp] theorem writeReg_cfg (o v : Word) (s : State) : (writeReg o v s).cfg = s.cfg := by unfold writeReg; split <;> rfl
@[simp] theorem writeReg_src (o v : Word) (s : State) : (writeReg o v s).src = s.src := by unfold writeReg; split <;> rfl
@[simp] theorem writeReg_bits (o v : Word) (s : State) : (writeReg o v s).bits = s.bits := by unfold writeReg; split <;> rfl
@[simp] theorem writeReg_tab (o v : Word) (s : State) : (writeReg o v s).tab = s.tab := by unfold writeReg; split <;> rfl
@[simp] theorem writeReg_win (o v : Word) (s : State) : (writeReg o v s).win = s.win := by unfold writeReg; split <;> rfl
@[simp] theorem writeReg_dec (o v : Word) (s : State) : (writeReg o v s).dec = s.dec := by unfold writeReg; split <;> rfl
@[simp] theorem writeReg_err (o v : Word) (s : State) : (writeReg o v s).err = s.err := by unfold writeReg; split <;> rfl
@[simp] theorem writeReg_ctl (o v : Word) (s : State) : (writeReg o v s).ctl = s.ctl := by unfold writeReg; split <;> rfl
@[simp] theorem writeReg_host (o v : Word) (s : State) : (writeReg o v s).host = s.host := by unfold writeReg; split <;> rfl

end Sys2Proof.Machine
end

