-- ==== Sys2Proof/Laws/Table.lean ====
section
/-! SUPPORT. The symbol table: entries after a store, the identity table, and what promote can do (R131, R132). -/

namespace Sys2Proof.Machine

/-- An entry after a store. -/
theorem entry_setEntry (v : Vector Byte 256) (i j x : Byte) :
    entry (setEntry v i x) j = if i = j then x else entry v j := by
  unfold entry setEntry
  rw [Vector.getElem_set]
  simp only [BitVec.toNat_inj]

/-- The identity table (R28, R132). -/
@[simp] theorem SymTable.identity_lookup (r : Byte) : SymTable.identity.lookup r = r := by
  simp [SymTable.lookup, entry, SymTable.identity]

@[simp] theorem SymTable.identity_pc (b : Byte) : entry SymTable.identity.pc b = 0 := by
  simp [entry, SymTable.identity]

/-- TABLE after an exchange: b at rank c, the entry that stood at c at rank r, every other rank as before (R131). -/
theorem SymTable.lookup_exchange (t : SymTable) (r c j : Byte) :
    (t.exchange r c).lookup j = if r = j then t.lookup c else if c = j then t.lookup r else t.lookup j := by
  simp only [SymTable.lookup, SymTable.exchange, entry_setEntry]

/-- PC after an exchange: the counter of the literal at rank r, every other as before (R131). -/
theorem SymTable.pc_exchange (t : SymTable) (r c b : Byte) :
    entry (t.exchange r c).pc b = if t.lookup r = b then c else entry t.pc b := by
  simp only [SymTable.exchange, entry_setEntry]

/-- After correct every counter is 0, so the next count is 1 (R131, R132). -/
@[simp] theorem SymTable.count_correct (t : SymTable) (r : Byte) : t.correct.count r = 1 := by
  simp [SymTable.count, SymTable.correct]

/-- What promote can do in SPEC mode (R131). -/
theorem SymTable.promoteSpec_cases (t : SymTable) (r : Byte) :
    (0xA1 < t.count r ∧ t.promoteSpec r = SymTable.identity) ∨
      (t.count r ≤ 0xA1 ∧ t.promoteSpec r = t.exchange r (BitVec.ofNat 8 (t.count r))) := by
  unfold SymTable.promoteSpec Config.quota
  by_cases h : 0xA1 < t.count r
  · exact .inl ⟨h, if_pos h⟩
  · exact .inr ⟨not_lt.mp h, if_neg h⟩

/-- A property that correct and every exchange within the quota keep is kept by promote, in both modes. -/
theorem SymTable.promote_keeps (P : SymTable → Prop) (c : Config) (r : Byte) (hc : ∀ t, P t → P t.correct)
    (he : ∀ t, P t → t.count r ≤ 0xA1 → P (t.exchange r (BitVec.ofNat 8 (t.count r)))) {t : SymTable} (h : P t) :
    P (t.promote c r).state := by
  have loop : ∀ (n : Nat) (t : SymTable), P t → P (SymTable.promoteLoop r n t).state := by
    intro n
    induction n with
    | zero =>
      intro t h
      unfold SymTable.promoteLoop
      split
      · exact h
      · next hq => exact he t h (not_lt.mp hq)
    | succ n ih =>
      intro t h
      unfold SymTable.promoteLoop
      split
      · exact ih _ (hc t h)
      · next hq => exact he t h (not_lt.mp hq)
  unfold SymTable.promote
  split
  · rcases t.promoteSpec_cases r with ⟨_, h2⟩ | ⟨h1, h2⟩
    · rw [h2]; exact hc t h
    · rw [h2]; exact he t h h1
  · exact loop _ t h

end Sys2Proof.Machine
end

