-- ==== Sys2Proof/Laws/Memory.lean ====
section
/-! SUPPORT. The byte spaces: a read after a write, and the canonical form, which every memory operation keeps. -/

namespace Sys2Proof.Machine

@[simp] theorem Memory.read_nil (a : Nat) : Memory.read [] a = none := rfl

theorem Memory.read_cons (c : Host.Cell) (m : Memory) (a : Nat) :
    Memory.read (c :: m) a = if a = c.1 then some c.2 else Memory.read m a := rfl

/-- A read of the address written gives the value written. -/
@[simp] theorem Memory.read_write_same (m : Memory) (a : Nat) (v : Byte) : (m.write a v).read a = some v := by
  induction m with
  | nil => simp [Memory.write, Memory.read_cons]
  | cons c m ih =>
    unfold Memory.write
    split
    · simp [Memory.read_cons]
    · split
      · simp [Memory.read_cons]
      · rename_i h1 h2
        rw [Memory.read_cons, if_neg (fun h => h2 h), ih]

/-- A write leaves every other address alone. -/
theorem Memory.read_write_other (m : Memory) {a x : Nat} (v : Byte) (h : x ≠ a) :
    (m.write a v).read x = m.read x := by
  induction m with
  | nil => simp [Memory.write, Memory.read_cons, h]
  | cons c m ih =>
    unfold Memory.write
    split
    · rw [Memory.read_cons, if_neg h]
    · split
      · rename_i h1 h2
        rw [Memory.read_cons, Memory.read_cons, if_neg h, if_neg (fun e => h (e.trans h2.symm))]
      · rw [Memory.read_cons, Memory.read_cons, ih]

/-- Both cases of a read after a write. -/
theorem Memory.read_write (m : Memory) (a x : Nat) (v : Byte) :
    (m.write a v).read x = if x = a then some v else m.read x := by
  split
  · next h => rw [h, Memory.read_write_same]
  · next h => exact Memory.read_write_other m v h

/-- The addresses of a written space: the address written, or one listed before. -/
theorem Memory.mem_write {m : Memory} {a : Nat} {v : Byte} {c : Host.Cell} (h : c ∈ m.write a v) :
    c.1 = a ∨ c ∈ m := by
  induction m with
  | nil => simp [Memory.write] at h; simp [h]
  | cons d m ih =>
    unfold Memory.write at h
    split at h
    · rcases List.mem_cons.mp h with rfl | h
      · exact .inl rfl
      · exact .inr h
    · split at h
      · rcases List.mem_cons.mp h with rfl | h
        · exact .inl rfl
        · exact .inr (List.mem_cons_of_mem _ h)
      · rcases List.mem_cons.mp h with rfl | h
        · exact .inr (List.mem_cons_self ..)
        · exact (ih h).imp id (List.mem_cons_of_mem _)

@[simp] theorem Memory.wf_nil : Memory.wf [] := List.Pairwise.nil

/-- A write keeps the canonical form. -/
theorem Memory.wf_write {m : Memory} (a : Nat) (v : Byte) (h : Memory.wf m) : Memory.wf (m.write a v) := by
  induction m with
  | nil => simp [Memory.write, Memory.wf]
  | cons d m ih =>
    have hd := List.pairwise_cons.mp h
    unfold Memory.write
    split
    · next h1 =>
      refine List.pairwise_cons.mpr ⟨fun c hc => ?_, h⟩
      rcases List.mem_cons.mp hc with rfl | hc
      · exact h1
      · exact lt_trans h1 (hd.1 c hc)
    · split
      · next h1 h2 => exact List.pairwise_cons.mpr ⟨fun c hc => h2 ▸ hd.1 c hc, hd.2⟩
      · next h1 h2 =>
        refine List.pairwise_cons.mpr ⟨fun c hc => ?_, ih hd.2⟩
        rcases Memory.mem_write hc with h3 | h3
        · rw [h3]; exact lt_of_le_of_ne (not_lt.mp h1) (fun e => h2 e.symm)
        · exact hd.1 c h3

/-- The bytes of a list stand at the addresses from p on, and nothing else does. -/
theorem Memory.read_ofList (vs : List Byte) (p a : Nat) :
    (Memory.ofList p vs).read a = if a < p then none else vs[a - p]? := by
  induction vs generalizing p with
  | nil => simp [Memory.ofList]
  | cons v vs ih =>
    rw [Memory.ofList, Memory.read_cons, ih]
    rcases lt_trichotomy a p with h | h | h
    · rw [if_neg h.ne, if_pos (Nat.lt_succ_of_lt h), if_pos h]
    · subst h; simp
    · rw [if_neg h.ne', if_neg (by omega), if_neg (by omega), show a - p = a - (p + 1) + 1 by omega,
        List.getElem?_cons_succ]

/-- The addresses of a listed space are not below the first. -/
theorem Memory.le_of_mem_ofList {vs : List Byte} {p : Nat} {c : Host.Cell} (h : c ∈ Memory.ofList p vs) : p ≤ c.1 := by
  induction vs generalizing p with
  | nil => simp [Memory.ofList] at h
  | cons v vs ih =>
    rcases List.mem_cons.mp h with rfl | h
    · exact le_rfl
    · exact le_trans (Nat.le_succ p) (ih h)

/-- A listed space is canonical. -/
theorem Memory.wf_ofList (vs : List Byte) (p : Nat) : Memory.wf (Memory.ofList p vs) := by
  induction vs generalizing p with
  | nil => exact List.Pairwise.nil
  | cons v vs ih => exact List.pairwise_cons.mpr ⟨fun c hc => Memory.le_of_mem_ofList hc, ih (p + 1)⟩

/-- Reset's byte spaces are canonical. -/
theorem State.reset_mem_wf : Memory.wf State.reset.win.ram ∧ Memory.wf State.reset.src :=
  ⟨Memory.wf_nil, Memory.wf_nil⟩

end Sys2Proof.Machine
end

