-- ==== Sys2Proof/Laws/Window.lean ====
section
/-! SUPPORT. The output window: a window write, a read, and copy_back's loop (R140, R142). -/

namespace Sys2Proof.Machine

@[simp] theorem Window.write_ram (b : Byte) (w : Window) : (w.write b).ram = w.ram.write w.wptr.toNat b := rfl
@[simp] theorem Window.write_out (b : Byte) (w : Window) : (w.write b).out = w.out ++ [b] := rfl
@[simp] theorem Window.write_cap (b : Byte) (w : Window) : (w.write b).cap = w.cap := rfl
@[simp] theorem Window.write_remaining (b : Byte) (w : Window) : (w.write b).remaining = w.remaining - 1 := rfl
@[simp] theorem Window.write_produced (b : Byte) (w : Window) : (w.write b).produced = w.produced + 1 := rfl
@[simp] theorem Window.write_draws (b : Byte) (w : Window) : (w.write b).draws = w.draws := rfl

/-- What a read can do: the byte that the session holds, or a free value and one draw. -/
theorem Window.read_cases (w : Window) (a : Nat) :
    (∃ b, w.held a = some b ∧ w.read a = (b, w)) ∨
      (w.held a = none ∧ w.read a = (Config.freeByte w.draws, { w with draws := w.draws + 1 })) := by
  unfold Window.read
  cases h : w.held a with
  | none => exact .inr ⟨rfl, rfl⟩
  | some b => exact .inl ⟨b, rfl, rfl⟩

/-- A read changes the draw counter at most. -/
theorem Window.read_snd (w : Window) (a : Nat) : (w.read a).2 = { w with draws := (w.read a).2.draws } := by
  rcases w.read_cases a with ⟨b, _, h⟩ | ⟨_, h⟩ <;> rw [h]

/-- One iteration of copy_back is a window write of the byte read, after the draw counter. -/
theorem Window.copyByte_eq (dist : Nat) (w : Window) :
    w.copyByte dist = (w.read (w.backAddr dist)).2.write (w.read (w.backAddr dist)).1 := rfl

@[simp] theorem Window.copyByte_cap (dist : Nat) (w : Window) : (w.copyByte dist).cap = w.cap := by
  rw [Window.copyByte_eq, Window.write_cap, Window.read_snd]

@[simp] theorem Window.copyByte_remaining (dist : Nat) (w : Window) :
    (w.copyByte dist).remaining = w.remaining - 1 := by
  rw [Window.copyByte_eq, Window.write_remaining, Window.read_snd]

@[simp] theorem Window.copyByte_produced (dist : Nat) (w : Window) :
    (w.copyByte dist).produced = w.produced + 1 := by
  rw [Window.copyByte_eq, Window.write_produced, Window.read_snd]

/-- A property that every window write keeps while bytes are owed is kept by copy_back's loop. -/
theorem Window.copyLoop_keeps (P : Window → Prop) (dist : Nat)
    (hp : ∀ w, 1 ≤ w.remaining.toNat → P w → P (w.copyByte dist)) :
    ∀ (n : Nat) (w : Window), n ≤ w.remaining.toNat → P w → P (Window.copyLoop dist n w)
  | 0, _, _, h => h
  | n + 1, w, hn, h => by
    have h1 : (w.copyByte dist).remaining.toNat = w.remaining.toNat - 1 := by
      rw [Window.copyByte_remaining, BitVec.toNat_sub]
      have := w.remaining.isLt
      simp; omega
    exact Window.copyLoop_keeps P dist hp n _ (by omega) (hp w (by omega) h)

/-- What copy_back can do (R142), with its checks in R203's order. -/
theorem Window.copyBack_cases (far : FarDist) (dist len : Nat) (w : Window) :
    ((dist = 0 ∨ w.produced.toNat < dist ∨ (far = .fault ∧ w.cap.toNat < dist)) ∧
        w.copyBack far dist len = .raise .invalidBackReference w) ∨
      (1 ≤ dist ∧ dist ≤ w.produced.toNat ∧ ¬ (far = .fault ∧ w.cap.toNat < dist) ∧
        ((w.remaining.toNat < len ∧ w.copyBack far dist len = .raise .outputOverrun w) ∨
          (len ≤ w.remaining.toNat ∧ w.copyBack far dist len = .done () (Window.copyLoop dist len w)))) := by
  unfold Window.copyBack
  by_cases h1 : dist = 0 ∨ w.produced.toNat < dist
  · exact .inl ⟨by tauto, if_pos h1⟩
  by_cases h2 : far = .fault ∧ w.cap.toNat < dist
  · exact .inl ⟨by tauto, by rw [if_neg h1, if_pos h2]⟩
  refine .inr ⟨by omega, by omega, h2, ?_⟩
  by_cases h3 : w.remaining.toNat < len
  · exact .inl ⟨h3, by rw [if_neg h1, if_neg h2, if_pos h3]⟩
  · exact .inr ⟨not_lt.mp h3, by rw [if_neg h1, if_neg h2, if_neg h3]⟩

/-- A property that every window write keeps while bytes are owed is kept by copy_back, however it ends. -/
theorem Window.copyBack_keeps (P : Window → Prop) (far : FarDist) (dist len : Nat) {w : Window}
    (hp : 1 ≤ dist → dist ≤ w.produced.toNat → ∀ w', 1 ≤ w'.remaining.toNat → P w' → P (w'.copyByte dist)) (h : P w) :
    P (w.copyBack far dist len).state := by
  rcases w.copyBack_cases far dist len with ⟨_, h2⟩ | ⟨h1, h2, _, ⟨_, h3⟩ | ⟨h3, h4⟩⟩
  · rw [h2]; exact h
  · rw [h3]; exact h
  · rw [h4]; exact Window.copyLoop_keeps P dist (hp h1 h2) len w h3 h

/-- What push_literal can do (R141). -/
theorem Window.push_cases (b : Byte) (w : Window) :
    (w.remaining = 0 ∧ w.push b = .raise .outputOverrun w) ∨ (w.remaining ≠ 0 ∧ w.push b = .done () (w.write b)) := by
  unfold Window.push
  by_cases h : w.remaining = 0
  · exact .inl ⟨h, if_pos h⟩
  · exact .inr ⟨h, if_neg h⟩

/-- What escape can do (R153). -/
theorem Window.escape_cases (w : Window) :
    (w.remaining.toNat < 2 ∧ w.escape = .raise .outputOverrun w) ∨
      (2 ≤ w.remaining.toNat ∧ w.escape = .done () ((w.write 0x01).write 0x00)) := by
  unfold Window.escape
  by_cases h : w.remaining.toNat < 2
  · exact .inl ⟨h, if_pos h⟩
  · exact .inr ⟨not_lt.mp h, if_neg h⟩

end Sys2Proof.Machine
end

