-- ==== Sys2Proof/Laws/Invariants.lean ====
section
/-! SUPPORT. The component operations keep their components' invariants (R26, R29, R34, R35, R133). -/

namespace Sys2Proof.Machine

/-- An OR of values with k low zero bits has them too. -/
theorem or_low_zero (a x k : Nat) (ha : a % 2^k = 0) (hx : x % 2^k = 0) : (a ||| x) % 2^k = 0 := by
  rw [← Nat.and_two_pow_sub_one_eq_mod] at *
  rw [Nat.and_or_distrib_right, ha, hx]; rfl

/-- A fold keeps the reader's invariant: the byte falls into bits that were zero (R26). -/
theorem bits_fold {src : Memory} {b : BitReader} (hw : b.wants = true) (h : b.Inv) : (b.fold src).Inv := by
  obtain ⟨w1, w2⟩ := b.wants_iff.mp hw
  have hv := BitReader.fold_valid (src := src) hw
  have hp := BitReader.fold_srcPos (src := src) hw
  refine ⟨?_, ?_, ?_, ?_⟩
  · rw [hv]; simp [Config.accBits]; omega
  · rw [hp, BitReader.fold_sesSrcLen]; omega
  · rw [hv, hp]; have := h.bitpos_nonneg; omega
  · rw [hv]
    have hl := h.low_zero
    simp only [Config.accBits] at *
    show (b.acc ||| ((srcRead src b.srcPos.toNat).setWidth 32 <<< (24 - b.valid.toNat))).toNat % _ = 0
    rw [BitVec.toNat_or]
    apply or_low_zero
    · have : (2:Nat)^(32 - (b.valid.toNat+8)) ∣ 2^(32 - b.valid.toNat) := Nat.pow_dvd_pow _ (by omega)
      exact Nat.mod_eq_zero_of_dvd (dvd_trans this (Nat.dvd_of_mod_eq_zero hl))
    · rw [BitVec.toNat_shiftLeft, BitVec.toNat_setWidth, Nat.shiftLeft_eq]
      have e : 32 - (b.valid.toNat + 8) = 24 - b.valid.toNat := by omega
      rw [e]
      have hlt := (srcRead src b.srcPos.toNat).isLt
      rw [Nat.mod_eq_of_lt (a := (srcRead src b.srcPos.toNat).toNat) (b := 2^32) (by omega)]
      have hb : (srcRead src b.srcPos.toNat).toNat * 2^(24 - b.valid.toNat) < 2^32 := by
        have : (2:Nat)^(24 - b.valid.toNat) ≤ 2^24 := Nat.pow_le_pow_right (by norm_num) (by omega)
        calc _ < 2^8 * 2^(24 - b.valid.toNat) := by
              apply Nat.mul_lt_mul_of_pos_right hlt; positivity
          _ ≤ 2^8 * 2^24 := Nat.mul_le_mul_left _ this
          _ = 2^32 := by norm_num
      rw [Nat.mod_eq_of_lt hb, Nat.mul_mod_left]

/-- Discarding valid bits keeps the reader's invariant: zeros are shifted in (R26). -/
theorem bits_drop {n : Nat} {b : BitReader} (hn : n ≤ b.valid.toNat) (h : b.Inv) : (b.drop n).Inv := by
  have hv := b.drop_valid n
  refine ⟨?_, h.srcPos_le, ?_, ?_⟩
  · rw [hv]; have := h.valid_le; omega
  · rw [hv]; have := h.bitpos_nonneg; simp; omega
  · rw [hv]
    have hl := h.low_zero
    have h32 := h.valid_le
    simp only [Config.accBits, BitReader.drop_acc] at *
    rw [BitVec.toNat_shiftLeft, Nat.shiftLeft_eq]
    have e : 32 - (b.valid.toNat - n) = (32 - b.valid.toNat) + n := by omega
    rw [e, Nat.pow_add]
    have hd : (2:Nat)^(32 - b.valid.toNat) * 2^n ∣ b.acc.toNat * 2^n := Nat.mul_dvd_mul_right (Nat.dvd_of_mod_eq_zero hl) _
    have h3 : (2:Nat)^(32 - b.valid.toNat) * 2^n ∣ 2^32 := by rw [← Nat.pow_add]; exact Nat.pow_dvd_pow _ (by omega)
    exact Nat.mod_eq_zero_of_dvd ((Nat.dvd_mod_iff h3).mpr hd)

/-- A refill keeps the reader's invariant. -/
theorem bits_refill {src : Memory} {b : BitReader} (h : b.Inv) : (b.refill src).Inv :=
  BitReader.refill_keeps _ src (fun _ hw hb => bits_fold hw hb) h

/-- The identity table is a permutation with zero counters. -/
theorem tab_identity : SymTable.identity.Inv := ⟨by intro r r'; simp, by intro b; simp⟩

/-- An exchange within the quota keeps the permutation and the counters' bound (R29, R133). -/
theorem tab_exchange {t : SymTable} {r : Byte} (h : t.Inv) (hc : t.count r ≤ 0xA1) :
    (t.exchange r (BitVec.ofNat 8 (t.count r))).Inv := by
  refine ⟨?_, ?_⟩
  · intro a b
    simp only [SymTable.lookup_exchange]
    set c := BitVec.ofNat 8 (t.count r)
    intro hab
    have inj := h.injective
    -- the ranks are permuted by the swap of r and c before the lookup
    have key : ∀ x, (if r = x then t.lookup c else if c = x then t.lookup r else t.lookup x) =
        t.lookup (if r = x then c else if c = x then r else x) := by
      intro x; split <;> [rfl; split <;> rfl]
    rw [key, key] at hab
    have hp := inj _ _ hab
    clear hab key
    by_cases h1 : r = a <;> by_cases h2 : r = b <;> by_cases h3 : c = a <;> by_cases h4 : c = b <;>
      simp only [h1, h2, h3, h4, if_true, if_false] at hp <;> grind
  · intro b
    rw [SymTable.pc_exchange]
    split
    · simp [Config.quota]; omega
    · exact h.pc_le b

/-- The cursor after a write: (WPTR + 1) mod C is (PRODUCED + 1) mod C (R35). -/
theorem wrap_next {w : Window} (h : w.Inv) :
    w.wrap ((w.wptr.toNat : Int) + 1) = (w.produced.toNat + 1) % w.cap.toNat := by
  unfold Window.wrap
  rw [h.wptr_eq]
  have : ((w.produced.toNat % w.cap.toNat : Nat) : Int) + 1 = ((w.produced.toNat % w.cap.toNat + 1 : Nat) : Int) := by
    push_cast; ring
  rw [this, ← Int.natCast_emod, Int.toNat_natCast, Nat.mod_add_mod]

/-- A window write with a byte owed keeps the window's invariant (R34, R35). -/
theorem win_write {w : Window} (b : Byte) (hr : 1 ≤ w.remaining.toNat) (h : w.Inv) : (w.write b).Inv := by
  have hp : (w.write b).produced.toNat = w.produced.toNat + 1 := by
    have := h.no_wrap
    simp [BitVec.toNat_add]; omega
  have hrr : (w.write b).remaining.toNat = w.remaining.toNat - 1 := by
    have := w.remaining.isLt
    simp [BitVec.toNat_sub]; omega
  have hw : (w.write b).wptr.toNat = (w.produced.toNat + 1) % w.cap.toNat := by
    show (BitVec.ofNat 32 (w.wrap ((w.wptr.toNat : Int) + 1))).toNat = _
    rw [wrap_next h, BitVec.toNat_ofNat, Nat.mod_eq_of_lt]
    have := Nat.mod_lt (w.produced.toNat + 1) (show 0 < w.cap.toNat from h.cap_pos)
    have := w.cap.isLt
    omega
  refine ⟨h.cap_pos, ?_, ?_, ?_, ?_⟩
  · rw [hw, hp]; rfl
  · rw [hp, Window.write_out, List.length_append, h.out_length]; rfl
  · rw [hp, hrr]; have := h.no_wrap; omega
  · intro k hk hk2
    rw [hp] at hk hk2
    simp only [Window.write_ram, Window.write_out, Window.write_cap] at *
    rw [Memory.read_write]
    rcases Nat.lt_or_eq_of_le (Nat.le_of_lt_succ hk) with hlt | rfl
    · have hne : k % w.cap.toNat ≠ w.wptr.toNat := by
        rw [h.wptr_eq]
        intro e
        have := (Nat.modEq_iff_dvd' hlt.le).mp e
        have := Nat.le_of_dvd (by omega) this
        omega
      rw [if_neg hne, h.history k hlt (by omega), List.getElem?_append_left (by rw [h.out_length]; exact hlt)]
    · rw [if_pos h.wptr_eq.symm, List.getElem?_append_right (by rw [h.out_length]), h.out_length]; simp

/-- The address that copy_back reads is (PRODUCED − dist) mod C (R142, R144). -/
theorem back_addr {w : Window} {dist : Nat} (h : w.Inv) (hd : dist ≤ w.produced.toNat) :
    w.backAddr dist = (w.produced.toNat - dist) % w.cap.toNat := by
  unfold Window.backAddr Window.wrap
  rw [h.wptr_eq]
  have : ((w.produced.toNat - dist : Nat) : Int) = (w.produced.toNat : Int) - dist := by omega
  rw [Int.natCast_emod, Int.emod_sub_emod, ← this, ← Int.natCast_emod, Int.toNat_natCast]

/-- One iteration of copy_back keeps the window's invariant. -/
theorem win_copyByte {w : Window} (dist : Nat) (hr : 1 ≤ w.remaining.toNat) (h : w.Inv) :
    (w.copyByte dist).Inv := by
  rw [Window.copyByte_eq]
  apply win_write
  · rw [Window.read_snd]; exact hr
  · rw [Window.read_snd]; exact ⟨h.cap_pos, h.wptr_eq, h.out_length, h.no_wrap, h.history⟩

end Sys2Proof.Machine
end

