-- ==== Sys2Proof/Laws/PerInstr.lean ====
section
/-! SUPPORT. Statements made of every instruction as syntax, one lemma per constructor. OpField: the word of a command has
the OP field that R91 gives its row, and a token has no command word. -/

namespace Sys2Proof.Laws

/-- The OP field of R91 for each command; a token has none. -/
def OpField.op : Instr → Option (BitVec 4)
  | .nop => some 0x0
  | .start => some 0x1
  | .step => some 0x2
  | .run => some 0x3
  | .abort => some 0x4
  | .peek => some 0x5
  | .consume _ => some 0x6
  | .decode _ => some 0x7
  | .lookup _ => some 0x8
  | .promote _ => some 0x9
  | .correct => some 0xA
  | .push _ => some 0xB
  | .copy _ _ => some 0xC
  | .rdwin _ => some 0xD
  | .rdpc _ => some 0xE
  | .reserved _ => some 0xF
  | .litLH _ => none
  | .litRL _ => none
  | .esc => none
  | .switch => none
  | .backref _ _ _ => none

/-- The word of an instruction, where it has one, carries its OP field in bits 31..28 (R90). -/
def OpField.Statement (i : Instr) : Prop :=
  (encode i).map (fun w => w.extractLsb' 28 4) = OpField.op i

/-- Bits 31..28 of a word built with its OP field first. -/
theorem OpField.top (p : BitVec 4) (x : BitVec 28) : (p ++ x).extractLsb' 28 4 = p := by
  apply BitVec.eq_of_getLsbD_eq
  intro i hi
  have h1 : ¬ 28 + i < 28 := by omega
  have h2 : 28 + i - 28 = i := by omega
  simp only [BitVec.getLsbD_extractLsb', BitVec.getLsbD_append, hi, h1, h2, decide_true, Bool.true_and, if_false]

/-- The same with a reserved field after the OP field. -/
theorem OpField.top2 {n k : Nat} (p : BitVec 4) (z : BitVec n) (x : BitVec k) (h : n + k = 28) :
    ((p ++ z ++ x).extractLsb' 28 4) = p := by
  apply BitVec.eq_of_getLsbD_eq
  intro i hi
  have h1 : ¬ 28 + i < k := by omega
  have h2 : ¬ 28 + i - k < n := by omega
  have h3 : 28 + i - k - n = i := by omega
  simp only [BitVec.getLsbD_extractLsb', BitVec.getLsbD_append, hi, h1, h2, h3, decide_true, Bool.true_and, if_false]

theorem OpField.nop : OpField.Statement .nop := rfl
theorem OpField.start : OpField.Statement .start := rfl
theorem OpField.step : OpField.Statement .step := rfl
theorem OpField.run : OpField.Statement .run := rfl
theorem OpField.abort : OpField.Statement .abort := rfl
theorem OpField.peek : OpField.Statement .peek := rfl
theorem OpField.consume (n : BitVec 5) : OpField.Statement (.consume n) := congrArg some (OpField.top2 0x6#4 0#23 n rfl)
theorem OpField.decode (t : TableSel) : OpField.Statement (.decode t) := congrArg some (OpField.top2 0x7#4 0#27 t.bit rfl)
theorem OpField.lookup (r : Byte) : OpField.Statement (.lookup r) := congrArg some (OpField.top2 0x8#4 0#20 r rfl)
theorem OpField.promote (r : Byte) : OpField.Statement (.promote r) := congrArg some (OpField.top2 0x9#4 0#20 r rfl)
theorem OpField.correct : OpField.Statement .correct := rfl
theorem OpField.push (b : Byte) : OpField.Statement (.push b) := congrArg some (OpField.top2 0xB#4 0#20 b rfl)
theorem OpField.copy (d : BitVec 16) (len : Byte) : OpField.Statement (.copy d len) := by
  refine congrArg some ?_
  apply BitVec.eq_of_getLsbD_eq
  intro i hi
  have h1 : ¬ 28 + i < 16 := by omega
  have h2 : ¬ 28 + i - 16 < 8 := by omega
  have h3 : ¬ 28 + i - 16 - 8 < 4 := by omega
  have h4 : 28 + i - 16 - 8 - 4 = i := by omega
  simp only [BitVec.getLsbD_extractLsb', BitVec.getLsbD_append, hi, h1, h2, h3, h4, decide_true, Bool.true_and, if_false]
  rfl
theorem OpField.rdwin (a : BitVec 24) : OpField.Statement (.rdwin a) := congrArg some (OpField.top2 0xD#4 0#4 a rfl)
theorem OpField.rdpc (v : Byte) : OpField.Statement (.rdpc v) := congrArg some (OpField.top2 0xE#4 0#20 v rfl)
theorem OpField.reserved (x : BitVec 28) : OpField.Statement (.reserved x) := congrArg some (OpField.top 0xF#4 x)
theorem OpField.litLH (r : Byte) : OpField.Statement (.litLH r) := rfl
theorem OpField.litRL (r : Byte) : OpField.Statement (.litRL r) := rfl
theorem OpField.esc : OpField.Statement .esc := rfl
theorem OpField.switch : OpField.Statement .switch := rfl
theorem OpField.backref (l : Bool) (d : BitVec 11) (e : BitVec 5) : OpField.Statement (.backref l d e) := rfl

end Sys2Proof.Laws
end

