-- ==== Sys2Proof/Tests/Slice0.lean ====
section
/-! SUPPORT. Tests of single steps against the vectors of spec/95_test_vectors.md and the rules' own examples, decoding
tests on words written out from the encodings, and the smoke test of well-formedness. -/

namespace Sys2Proof.Tests
open Sys2Proof.Machine

/-! ### The test configuration CFG-T (95 section 1), which is not the format -/

/-- SYM-T. -/
def symT : TablePair :=
  ⟨2, [0x4000, 0x4000, 0x4000, 0x4000, 0x4000, 0x4000, 0x4000, 0xFFFF], (Vector.replicate 17 0).set 9 1⟩

/-- DIST-T. -/
def distT : TablePair := ⟨3, [0xFFFF], Vector.replicate 17 0⟩

/-- CFG-T. -/
def cfgT : Config :=
  { symTbl := symT, distTbl := distT, escThreshold := 0x2FFF, windowMaxM1 := 65535, distAlphabetM1 := 255
    promoteMode := .spec, rlRankOffset := 0, farDist := .aliasing, avrInit := 0x3500, nhfbInit := 0x80, nlzbInit := 0x80
    nhfbStep := 16, corrCap := 1, regBase := 0, srcBase := 0 }

/-- A session just begun under CFG-T: the source bytes placed from position 0, OUT_LEN, C and the mode. -/
def session (src : List Byte) (outLen cap : Nat) (m : Mode) : State :=
  let s := State.resetWith cfgT
  { s with
    src := src.zipIdx.map (fun x => (x.2, x.1))
    bits := { s.bits with sesSrcLen := BitVec.ofNat 32 src.length }
    win := { s.win with cap := BitVec.ofNat 32 cap, remaining := BitVec.ofNat 32 outLen }
    dec := { s.dec with mode := m }
    ctl := { s.ctl with active := true } }

/-- The state with its window replaced. -/
def withWin (w : Window → Window) (s : State) : State := { s with win := w s.win }

/-- A check of the next state, false where there is none. -/
def check (o : Host.Outcome State Fault Refusal) (p : State → Bool) : Bool :=
  match o with
  | .next t => p t
  | .fault _ => false
  | .refused _ => false

/-- The token read at the start of a source under CFG-T, with the bits left in the accumulator. -/
def tokenOf (src : List Byte) (m : Mode) : Option (Token × Nat) :=
  let s := session src 8 8 m
  match fetchToken s.cfg m s.src s.bits with
  | .done k b => some (k, b.valid.toNat)
  | .raise _ _ => none

/-! ### WellFormed: each check refuses an ill-formed term -/

theorem test_consume17_ill_formed : Instr.wellFormed (.consume 17) = false := by decide
theorem test_consume16_well_formed : Instr.wellFormed (.consume 16) = true := by decide
theorem test_litRL0_ill_formed : Instr.wellFormed (.litRL 0) = false := by decide
theorem test_consume17_word_refused : decode 0x60000011 = .error .operandRange := by decide

/-! ### Decoding: words written out from R91 -/

theorem test_decode_nop : decode 0x00000000 = .ok .nop := by decide
theorem test_decode_start : decode 0x10000000 = .ok .start := by decide
theorem test_decode_step : decode 0x20000000 = .ok .step := by decide
theorem test_decode_run : decode 0x30000000 = .ok .run := by decide
theorem test_decode_abort : decode 0x40000000 = .ok .abort := by decide
theorem test_decode_peek : decode 0x50000000 = .ok .peek := by decide
theorem test_decode_consume : decode 0x60000010 = .ok (.consume 16) := by decide
theorem test_decode_decode : decode 0x70000001 = .ok (.decode .dist) := by decide
theorem test_decode_lookup : decode 0x800000C8 = .ok (.lookup 200) := by decide
theorem test_decode_promote : decode 0x90000005 = .ok (.promote 5) := by decide
theorem test_decode_correct : decode 0xA0000000 = .ok .correct := by decide
theorem test_decode_push : decode 0xB0000041 = .ok (.push 0x41) := by decide
theorem test_decode_copy : decode 0xC0030004 = .ok (.copy 4 3) := by decide
theorem test_decode_rdwin : decode 0xD0000010 = .ok (.rdwin 16) := by decide
theorem test_decode_rdpc : decode 0xE0000005 = .ok (.rdpc 5) := by decide
theorem test_decode_reserved : decode 0xF0000001 = .ok (.reserved 1) := by decide
theorem test_decode_reserved_bit : decode 0x00000001 = .error .noRow := by decide
theorem test_decode_reserved_bit_rdwin : decode 0xD1000010 = .error .noRow := by decide
theorem test_decode_reserved_bit_decode : decode 0x70000002 = .error .noRow := by decide

/-- LIT 5 of P1: 010000100, 9 bits of the 32 that 42 21 10 88 fills. -/
theorem test_token_litLH : tokenOf [0x42, 0x21, 0x10, 0x88] .lh = some (.litLH 5, 23) := by decide
/-- LIT 65 of P2: 011000000. -/
theorem test_token_litRL : tokenOf [0x60, 0x08, 0x0B, 0x04] .rl = some (.litRL 65, 23) := by decide
/-- ESC: 00 with L = 0x3000 above the threshold. -/
theorem test_token_esc : tokenOf [0x30] .rl = some (.esc, 6) := by decide
/-- SWITCH: 00 1 with L = 0x2C10 (P3). -/
theorem test_token_switch : tokenOf [0x2C, 0x10] .rl = some (.switch, 13) := by decide
/-- BREF 1, 0, 1 of P2: 00 0 1 000 00001, the bits of 0x1010. -/
theorem test_token_backref : tokenOf [0x10, 0x10] .rl = some (.backref true 0 1, 4) := by decide

/-- The codes of 95 section 1: rank 5 = 010000100, rank 255 = 101111110. -/
theorem test_code_rank5 :
    symbolCode symT 256 5 = some [false, true, false, false, false, false, true, false, false] := by decide
theorem test_code_rank255 :
    symbolCode symT 256 255 = some [true, false, true, true, true, true, true, true, false] := by decide
/-- TX and TY of V-DEC. -/
theorem test_classify_tx : classify ⟨1, [0x8000], Vector.replicate 17 0⟩ 2 0x7FFF = some (0, 1) := by decide
theorem test_classify_tx_none : classify ⟨1, [0x8000], Vector.replicate 17 0⟩ 2 0x8000 = none := by decide
theorem test_classify_ty : classify ⟨16, [0x1000, 0xFFFF], Vector.replicate 17 0⟩ 65536 0x0FFF = some (0x0FF0, 16) := by
  decide
theorem test_classify_ty_long : classify ⟨16, [0x1000, 0xFFFF], Vector.replicate 17 0⟩ 65536 0x1000 = none := by decide

/-! ### Control (V-CTL) -/

/-- Row 1: STEP after reset is IllegalCommand, STATUS 0x008. -/
theorem test_step_after_reset :
    check (step ((State.resetWith cfgT).withFetchWord 32 0x20000000)) (fun t => statusWord t == 0x008
      && t.err.kind.code == 5 && t.err.inOff == 0) = true := by decide
/-- Row 3: CFG_WIN_CAP 0, START gives InvalidConfig and ACTIVE 0. -/
theorem test_start_refused :
    check (exec .start (State.resetWith cfgT)) (fun t => t.err.kind.code == 6 && !t.ctl.active) = true := by decide
/-- The example of R181. -/
theorem test_start_example :
    check (exec .start { State.resetWith cfgT with
        cfgRegs := { srcLen := 4, outLen := 3, winCap := 32, ctrl := 0x00000001 } })
      (fun t => t.ctl.active && t.dec.mode == .rl && t.win.remaining == 3 && t.win.cap == 32 && t.bits.sesSrcLen == 4)
      = true := by decide
/-- Row 5: RUN sets BUSY, STATUS 0x007. -/
theorem test_run : check (exec .run (session [] 0 4 .lh)) (fun t => statusWord t == 0x007) = true := by decide
/-- Row 6: one core turn clears BUSY with no step. -/
theorem test_run_done :
    check (exec .run (session [] 0 4 .lh)) (fun s => check (step s) (fun t => statusWord t == 0x005)) = true := by decide
/-- ABORT before any core step: STATUS 0x111, PRODUCED 0. -/
theorem test_abort :
    check (exec .run (session [0x60, 0x08] 11 8 .rl)) (fun s => check (exec .abort s) (fun u =>
      check (step u) (fun t => statusWord t == 0x111 && t.win.produced == 0))) = true := by decide
/-- ABORT with no RUN in progress has no effect. -/
theorem test_abort_idle :
    check (exec .abort (session [] 1 4 .lh)) (fun t => decide (t.ctl = (session [] 1 4 .lh).ctl)) = true := by decide
theorem test_nop : check (exec .nop (State.resetWith cfgT)) (fun t => statusWord t == 0) = true := by decide
/-- Row 2: 0xF0000000 with an error latched is dropped. -/
theorem test_reserved_dropped :
    check (exec (.reserved 0) { State.resetWith cfgT with err := { kind := .illegalCommand, inOff := 0, outOff := 0 } })
      (fun t => statusWord t == 0x028) = true := by decide
theorem test_reserved_illegal :
    check (exec (.reserved 0) (session [] 1 4 .lh)) (fun t => statusWord t == 0x009 && t.err.kind.code == 5) = true := by
  decide

/-! ### BitReader (V-BR) and DECODE (V-DEC) -/

theorem test_peek :
    check (exec .peek (session [0xA5, 0x3C, 0xFF, 0x01, 0x80] 10 4 .lh)) (fun t => t.ctl.result == 0xA53C
      && t.bits.acc == 0xA53CFF01 && t.bits.valid == 32 && t.bits.srcPos == 4) = true := by decide
theorem test_peek_short :
    check (exec .peek (session [0xC3] 10 4 .lh)) (fun t => t.ctl.result == 0xC300 && t.bits.valid == 8) = true := by decide
/-- Row 3: CONSUME 3, with the refill's four bytes folded most significant bit first. -/
theorem test_consume :
    check (exec (.consume 3) (session [0xA5, 0x3C, 0xFF, 0x01, 0x80] 10 4 .lh)) (fun t => t.bits.acc == 0x29E7F808
      && t.bits.valid == 29 && t.bits.srcPos == 4) = true := by decide
/-- CONSUME 1 of an empty source. -/
theorem test_consume_exhausted :
    check (exec (.consume 1) (session [] 10 4 .lh)) (fun t => t.err.kind.code == 1 && t.bits.valid == 0) = true := by decide
theorem test_decode_rank255 :
    check (exec (.decode .sym) (session [0xBF, 0x7F] 10 4 .lh)) (fun t => t.ctl.result == 255
      && t.bits.acc == 0xFE000000 && t.bits.valid == 7) = true := by decide
/-- FF with one byte: CorruptTable, reported before exhaustion, nothing consumed. -/
theorem test_decode_corrupt :
    check (exec (.decode .sym) (session [0xFF] 10 4 .lh)) (fun t => t.err.kind.code == 3
      && t.bits.acc == 0xFF000000 && t.bits.valid == 8 && t.err.inOff == 1 && t.ctl.result == 0) = true := by decide

/-! ### AdaptiveSymbolTable (V-TBL) -/

/-- A session whose table holds byte 9 at rank 3 with counter n (V-TBL rows 6 to 8). -/
def atQuota (n : Byte) : State :=
  let s := session [] 10 4 .lh
  { s with tab := { table := setEntry (setEntry s.tab.table 3 9) 9 3, pc := setEntry s.tab.pc 9 n } }

theorem test_lookup : check (exec (.lookup 200) (session [] 1 4 .lh)) (fun t => t.ctl.result == 200) = true := by decide
theorem test_promote_quota :
    check (exec (.promote 3) (atQuota 0xA0)) (fun t => entry t.tab.pc 9 == 0xA1 && t.tab.lookup 3 == 161
      && t.tab.lookup 161 == 9) = true := by decide
theorem test_promote_corrects :
    check (exec (.promote 3) (atQuota 0xA1)) (fun t => entry t.tab.pc 9 == 0 && t.tab.lookup 3 == 3
      && t.tab.lookup 1 == 1) = true := by decide
theorem test_promote_refloop :
    check (exec (.promote 3) { atQuota 0xA1 with cfg := { cfgT with promoteMode := .refloop } })
      (fun t => entry t.tab.pc 3 == 1 && t.tab.lookup 1 == 3 && t.tab.lookup 3 == 1) = true := by decide
theorem test_correct :
    check (exec .correct (atQuota 7)) (fun t => t.tab.lookup 3 == 3 && entry t.tab.pc 9 == 0) = true := by decide
theorem test_rdpc : check (exec (.rdpc 9) (atQuota 0xA0)) (fun t => t.ctl.result == 0xA0) = true := by decide

/-! ### OutputWindow (V-WIN, X1) -/

/-- V-WIN's start state: C = 4, WIN = 05 06 03 04, WPTR 2, PRODUCED 6, REMAINING 4. -/
def winStart : State :=
  withWin (fun w => { w with ram := [(0, 5), (1, 6), (2, 3), (3, 4)], wptr := 2, produced := 6, remaining := 4
                             out := [1, 2, 3, 4, 5, 6] }) (session [] 10 4 .lh)

/-- The example of R140: C = 16, WPTR = 15 wraps to 0. -/
theorem test_push_wraps :
    check (exec (.push 0x41) (withWin (fun w => { w with wptr := 15 }) (session [] 5 16 .lh)))
      (fun t => t.win.ram.read 15 == some 0x41 && t.win.wptr == 0 && t.win.remaining == 4) = true := by decide
theorem test_push_overrun :
    check (exec (.push 0x42) (session [] 0 4 .lh)) (fun t => t.err.kind.code == 4 && t.win.out == []) = true := by decide
/-- Row 1: COPY 5, 1 with ALIAS reads address 1. -/
theorem test_copy_alias :
    check (exec (.copy 5 1) winStart) (fun t => t.win.out == [1, 2, 3, 4, 5, 6, 6] && t.win.ram.read 2 == some 6
      && t.win.remaining == 3) = true := by decide
/-- Row 8: COPY 7, 7, both conditions: the distance is checked first. -/
theorem test_copy_order :
    check (exec (.copy 7 7) winStart) (fun t => t.err.kind.code == 2 && t.err.outOff == 6) = true := by decide
theorem test_rdwin : check (exec (.rdwin 1) winStart) (fun t => t.ctl.result == 6) = true := by decide
theorem test_rdwin_illegal : check (exec (.rdwin 4) winStart) (fun t => t.err.kind.code == 5) = true := by decide

/-! ### Tokens (V-TOK) -/

/-- STEP, the first of P1. -/
theorem test_step_litLH :
    check (exec .step (session [0x42, 0x21, 0x10, 0x88] 17 16 .lh)) (fun t => t.bits.acc == 0x42211000
      && t.bits.valid == 23 && t.win.wptr == 1 && t.win.out == [5] && t.dec.numHuf == 1 && t.dec.avr == 0x34D0
      && t.dec.nhfb == 0x90 && entry t.tab.pc 5 == 1 && t.tab.lookup 1 == 5) = true := by decide
theorem test_litLH_switches :
    check (exec (.litLH 5) { session [] 17 16 .lh with
        dec := { mode := .lh, numHuf := 15, flagCnt := 0, avr := 0xFF00, nhfb := 0xEF, nlzb := 0x10 } })
      (fun t => t.dec.mode == .rl && t.dec.nhfb == 0x90 && t.dec.nlzb == 0x08) = true := by decide
theorem test_step_litRL :
    check (exec .step (session [0x60, 0x08, 0x0B, 0x04] 11 8 .rl)) (fun t => t.win.out == [0x41]
      && t.dec.avr == 0x350C && t.dec.numHuf == 0 && t.bits.valid == 23) = true := by decide
theorem test_litRL_offset :
    check (exec (.litRL 65) { session [] 11 8 .rl with cfg := { cfgT with rlRankOffset := 1 } })
      (fun t => t.win.out == [0x40]) = true := by decide
theorem test_step_esc :
    check (exec .step (session [0x30] 2 8 .rl)) (fun t => t.win.out == [1, 0] && t.bits.acc == 0xC0000000
      && t.bits.valid == 6) = true := by decide
theorem test_step_esc_overrun :
    check (exec .step (session [0x30] 1 8 .rl)) (fun t => t.err.kind.code == 4 && t.err.inOff == 1
      && t.win.produced == 0 && t.bits.valid == 6) = true := by decide
theorem test_step_switch :
    check (exec .step (session [0x2C, 0x10] 2 8 .rl)) (fun t => t.dec.mode == .lh && t.win.out == []) = true := by decide
theorem test_backref_overlap :
    check (exec (.backref true 0 1) (withWin (fun w => { w with ram := [(0, 0x41)], wptr := 1, produced := 1
                                                                out := [0x41] }) (session [] 10 8 .rl)))
      (fun t => t.win.out == [0x41, 0x41, 0x41, 0x41, 0x41] && t.win.wptr == 5 && t.win.remaining == 6) = true := by decide
/-- E2E: distance 35 with nothing produced. -/
theorem test_step_backref_error :
    check (exec .step (session [0x12, 0x34, 0x56, 0x78] 3 32 .rl)) (fun t => t.err.kind.code == 2 && t.err.inOff == 4
      && t.bits.acc == 0x45678000 && t.bits.valid == 20) = true := by decide

end Sys2Proof.Tests
end

