-- ==== Sys2Proof/Tests/Witnesses.lean ====
section
/-! SUPPORT. For every statement that has hypotheses, a concrete state and operands that meet them all, at the boundary
values of its clauses. -/

namespace Sys2Proof.Tests
open Sys2Proof.Machine

/-! ### Concrete states that meet the invariants -/

/-- The source of P1's first token, in a session just begun. -/
def s1 : State := session [0x42, 0x21] 17 16 .lh

/-- A session just begun meets the invariant of the machine. -/
theorem s1_inv : s1.Inv where
  cfg := by decide
  src_wf := by decide
  ram_wf := Memory.wf_nil
  bits := ⟨by decide, by decide, by decide, by decide⟩
  tab := tab_identity
  win := fun _ => ⟨⟨by decide, by decide, by decide, by decide, fun k hk => absurd hk (Nat.not_lt_zero k)⟩, by decide⟩
  dec := ⟨by decide, by decide, by decide⟩
  ctl := ⟨by decide, by decide⟩
  cfgRegs := by unfold CfgRegs.Inv; decide

theorem s1_coherent : s1.bits.Coherent s1.src := fun i hi => absurd hi (Nat.not_lt_zero i)

/-- A window with four bytes owed, four produced and a capacity of four: COPY's distance may equal both. -/
def fullWin : Window :=
  { ram := [(0, 1), (1, 2), (2, 3), (3, 4)], cap := 4, wptr := 0, remaining := 4, produced := 4, out := [1, 2, 3, 4], draws := 0 }

theorem fullWin_inv : fullWin.Inv where
  cap_pos := by decide
  wptr_eq := by decide
  out_length := by decide
  no_wrap := by decide
  history := by
    intro k hk _
    have hk : k < 4 := hk
    interval_cases k <;> rfl

/-- A session over that window. -/
def full : State := withWin (fun _ => fullWin) (session [] 8 4 .rl)

/-- V-WIN's start state with its invariant: a distance of 5 is above the capacity. -/
theorem winStart_inv : winStart.win.Inv where
  cap_pos := by decide
  wptr_eq := by decide
  out_length := by decide
  no_wrap := by decide
  history := by
    intro k hk hk2
    have hk : k < 6 := hk
    have hk2 : 6 ≤ k + 4 := hk2
    interval_cases k <;> first | rfl | omega

/-- A RUN in progress. -/
def running (s : State) : State := { s with ctl := { s.ctl with busy := true } }

/-- A state with an error latched. -/
def failed (s : State) : State := { s with err := { kind := .corruptTable, inOff := 0, outOff := 0 } }

/-- A state with one host turn to take. -/
def withMove (m : HostMove) (s : State) : State := { s with host := { s.host with script := [m] } }

/-! ### Reset and start -/

/-- ResetAndStartValues, StartCommand: capacities 1 and WINDOW_MAX pass, 0 and WINDOW_MAX + 1 do not. -/
theorem witness_start :
    let s (c : Word) : State := { State.resetWith cfgT with cfgRegs := { srcLen := 0, outLen := 0, winCap := c, ctrl := 0 } }
    (s 1).Idle ∧ 1 ≤ (s 1).cfgRegs.winCap.toNat ∧ (s 1).cfgRegs.winCap.toNat ≤ (s 1).cfg.windowMax ∧
      (s 65536).cfgRegs.winCap.toNat = (s 65536).cfg.windowMax ∧ (s 0).Idle ∧ (s 0).cfgRegs.winCap.toNat < 1 ∧
      (s 65537).Idle ∧ (s 65537).cfg.windowMax < (s 65537).cfgRegs.winCap.toNat := by decide

/-- HardwareResetMove. -/
theorem witness_reset_move : (withMove .reset s1).nextMove = some .reset := rfl

/-- StepKeepsInvariant, StepKeepsTheStream, ParametersAndSourceAreNotWritten: a step of a live session. -/
theorem witness_step :
    s1.Inv ∧ (s1.ctl.active = true → s1.bits.Coherent s1.src) ∧ ∃ t, step s1 = .next t ∧ t.ctl.active = true :=
  ⟨s1_inv, fun _ => s1_coherent, s1, rfl, by decide⟩

/-! ### Encoding -/

/-- CommandWordRoundTrip and DecodedWordIsTheCommandsWord, at the largest operand of CONSUME. -/
theorem witness_round_trip :
    Instr.wellFormed (.consume 16) = true ∧ encode (.consume 16) = some 0x60000010 ∧ decode 0x60000010 = .ok (.consume 16) := by
  decide

/-- SymbolCodeDecodes. -/
theorem witness_symbol_code :
    symbolCode symT 256 0 = some [false, false] ∧ (0x3FFF : Half).getMsbD 0 = false ∧ (0x3FFF : Half).getMsbD 1 = false := by
  decide

/-- TokenRoundTrip for LIT-LH: the code of rank 5 stands next in the stream. -/
theorem witness_token_litLH :
    s1.bits.Inv ∧ s1.bits.Coherent s1.src ∧
      encodeToken cfgT (.litLH 5) = some [false, true, false, false, false, false, true, false, false] ∧
      (∀ i (h : i < 9), streamBit s1.src 2 (8 * 0 - 0 + i) =
        ([false, true, false, false, false, false, true, false, false] : List Bool)[i]'h) ∧
      s1.bits.bitpos + 9 ≤ 8 * s1.bits.sesSrcLen.toNat :=
  ⟨s1_inv.bits, s1_coherent, by decide, by decide, by decide⟩

/-- TokenRoundTrip for LIT-RL, ESC, SWITCH and BACKREF: the code, the stream that holds it, and the threshold's side. -/
theorem witness_token_rl :
    (encodeToken cfgT (.litRL 65) = some [false, true, true, false, false, false, false, false, false] ∧
      tokenOf [0x60, 0x00] .rl = some (.litRL 65, 7)) ∧
    (encodeToken cfgT .esc = some [false, false] ∧
      cfgT.escThreshold.toNat < ((session [0x30] 2 8 .rl).bits.peek (session [0x30] 2 8 .rl).src).1.toNat) ∧
    (encodeToken cfgT .switch = some [false, false, true] ∧
      ((session [0x20] 2 8 .rl).bits.peek (session [0x20] 2 8 .rl).src).1.toNat ≤ cfgT.escThreshold.toNat) ∧
    (encodeToken cfgT (.backref true 0 1) =
        some [false, false, false, true, false, false, false, false, false, false, false, true] ∧
      ((session [0x10, 0x10] 2 8 .rl).bits.peek (session [0x10, 0x10] 2 8 .rl).src).1.toNat ≤ cfgT.escThreshold.toNat) := by
  decide

/-! ### Steps and acceptance -/

/-- StepRunsTheDecodedCommand. -/
theorem witness_decoded_command :
    (withMove (.write 0 .word 0x50000000) s1).nextMove = some (.write 0 .word 0x50000000) ∧
      decode 0x50000000 = .ok .peek := by decide

/-- StepRunsTheNextToken. -/
theorem witness_next_token :
    (running s1).coreNext ∧ (running s1).ctl.busy = true ∧ (running s1).ctl.abortReq = false ∧
      (running s1).win.remaining ≠ 0 ∧ (running s1).err.kind = .none ∧
      ∃ b, fetchToken cfgT .lh s1.src s1.bits = .done (.litLH 5) b :=
  ⟨.inl rfl, rfl, rfl, by decide, rfl, { acc := 0x42000000, valid := 7, srcPos := 2, sesSrcLen := 2 }, by decide⟩

/-- A word of the opcode table that withFetchWord places. -/
theorem witness_fetch_word : decodeTableWord 32 0x60000010 = some (.consume 16) := by decide

/-- IllegalCommandWords: CONSUME 17, RDWIN C, OP 0xF, the lowest or highest reserved bit of each kind of OP, the two ends
of the range of CONSUME. -/
theorem witness_illegal_words :
    s1.Idle ∧ 16 < (17 : BitVec 5).toNat ∧ s1.win.cap.toNat ≤ (16 : BitVec 24).toNat ∧
      (0xF0000000 : Word).extractLsb' 28 4 = 0xF ∧
      ((0x00000001 : Word).extractLsb' 28 4 = 0x0 ∧ (0x00000001 : Word).extractLsb' 0 28 ≠ 0) ∧
      ((0xA8000000 : Word).extractLsb' 28 4 = 0xA ∧ (0xA8000000 : Word).extractLsb' 0 28 ≠ 0) ∧
      ((0x60000020 : Word).extractLsb' 28 4 = 0x6 ∧ (0x60000020 : Word).extractLsb' 5 23 ≠ 0) ∧
      ((0x70000002 : Word).extractLsb' 28 4 = 0x7 ∧ (0x70000002 : Word).extractLsb' 1 27 ≠ 0) ∧
      ((0xE0000100 : Word).extractLsb' 28 4 = 0xE ∧ (0xE0000100 : Word).extractLsb' 8 20 ≠ 0) ∧
      ((0xC1000000 : Word).extractLsb' 28 4 = 0xC ∧ (0xC1000000 : Word).extractLsb' 24 4 ≠ 0) ∧
      ((0xD1000010 : Word).extractLsb' 28 4 = 0xD ∧ (0xD1000010 : Word).extractLsb' 24 4 ≠ 0) ∧
      0x60000011 ≤ (0x60000011 : Word).toNat ∧ (0x6000001F : Word).toNat ≤ 0x6000001F := by decide

/-- BusyDropsCommands. -/
theorem witness_busy :
    (running s1).ctl.busy = true ∧ isCommand .start = true ∧ Instr.start ≠ .abort ∧ decode 1 = .error .noRow := by decide

/-- InactiveCommandsAreIllegal. -/
theorem witness_inactive :
    (State.resetWith cfgT).Idle ∧ (State.resetWith cfgT).ctl.active = false ∧ isCommand .abort = true := by decide

/-- ErrorStateDropsMutatingCommands. -/
theorem witness_error_state :
    (failed s1).Active ∧ (failed s1).err.kind ≠ .none ∧ isCommand .peek = true ∧ isInspection .peek = false := by decide

/-! ### Control -/

/-- NopCommand, AbortCommand: both states of BUSY, and ACTIVE = 0. -/
theorem witness_nop_abort :
    s1.ctl.busy = false ∧ (running s1).ctl.busy = true ∧ s1.Active ∧ (State.resetWith cfgT).ctl.active = false ∧
      (running s1).coreNext := by
  refine ⟨rfl, rfl, by decide, rfl, .inl rfl⟩

/-- RunLoop: the four clauses, the third at REMAINING = 0 and with an error. -/
theorem witness_run_loop :
    s1.Ready ∧ (running s1).coreNext ∧ (running s1).ctl.busy = true ∧ (running s1).ctl.abortReq = false ∧
      (running s1).win.remaining ≠ 0 ∧ (running (session [] 0 4 .lh)).win.remaining = 0 ∧
      (running (failed s1)).err.kind ≠ .none ∧
      ({ running s1 with ctl := { (running s1).ctl with abortReq := true } } : State).ctl.abortReq = true :=
  ⟨by decide, .inl rfl, rfl, rfl, by decide, rfl, by decide, rfl⟩

/-- StepCommand: nothing owed, a token read, and a reading that raises. -/
theorem witness_step_command :
    (session [] 0 4 .lh).Ready ∧ (session [] 0 4 .lh).win.remaining = 0 ∧ s1.Ready ∧ s1.win.remaining ≠ 0 ∧
      fetchToken cfgT .lh (session [0xFF] 1 8 .lh).src (session [0xFF] 1 8 .lh).bits =
        .raise .corruptTable { acc := 0xFF000000, valid := 8, srcPos := 1, sesSrcLen := 1 } := by decide

/-- A session in RL whose reader holds its last n bits, the source being empty. -/
def lastBits (n : BitVec 6) (acc : Word) (outLen : Nat) : State :=
  { session [] outLen 8 .rl with bits := { acc := acc, valid := n, srcPos := 4, sesSrcLen := 4 } }

/-- StepCommand, the raising points up to the length bit: no class, a code longer than the valid bits, an escape with one
byte owed, no flag bit, no length bit. -/
theorem witness_step_raises :
    let r0 (s : State) := s.bits.refill s.src
    let r1 (s : State) := ((r0 s).drop 2).refill s.src
    let r2 (s : State) := ((r1 s).drop 1).refill s.src
    (let s := lastBits 8 0xFF000000 8;
      s.Ready ∧ s.win.remaining ≠ 0 ∧ classify s.cfg.symTbl 256 (r0 s).lookahead = none) ∧
    (let s := lastBits 8 0x40000000 8;
      s.Ready ∧ classify s.cfg.symTbl 256 (r0 s).lookahead = some (1, 9) ∧ (r0 s).valid.toNat < 9) ∧
    (let s := lastBits 8 0x30000000 1;
      s.Ready ∧ s.win.remaining ≠ 0 ∧ classify s.cfg.symTbl 256 (r0 s).lookahead = some (0, 2) ∧
        2 ≤ (r0 s).valid.toNat ∧ s.dec.mode = .rl ∧ s.cfg.escThreshold.toNat < (r0 s).lookahead.toNat ∧
        s.win.remaining.toNat < 2) ∧
    (let s := lastBits 2 0 8;
      s.Ready ∧ classify s.cfg.symTbl 256 (r0 s).lookahead = some (0, 2) ∧ 2 ≤ (r0 s).valid.toNat ∧ s.dec.mode = .rl ∧
        (r0 s).lookahead.toNat ≤ s.cfg.escThreshold.toNat ∧ (r1 s).valid.toNat < 1) ∧
    (let s := lastBits 3 0 8;
      s.Ready ∧ 1 ≤ (r1 s).valid.toNat ∧ (r1 s).lookahead.getLsbD 15 = false ∧ (r2 s).valid.toNat < 1) := by decide

/-- StepCommand, the raising points from the distance code on: no class, a code longer than the valid bits, too few
extension bits, a distance of 0, and fewer bytes owed than the length of 3. -/
theorem witness_step_raises_late :
    let r3 (s : State) := ((((((s.bits.refill s.src).drop 2).refill s.src).drop 1).refill s.src).drop 1).refill s.src
    let r4 (s : State) := ((r3 s).drop 3).refill s.src
    let dist (s : State) := 0 * 32 + ((r4 s).lookahead.extractLsb' 11 5).toNat
    (let s := { lastBits 7 0x0E000000 8 with cfg := { cfgT with distTbl := ⟨3, [0x1000], Vector.replicate 17 0⟩ } };
      s.Ready ∧ classify s.cfg.distTbl s.cfg.distAlphabet (r3 s).lookahead = none) ∧
    (let s := lastBits 6 0 8;
      s.Ready ∧ classify s.cfg.distTbl s.cfg.distAlphabet (r3 s).lookahead = some (0, 3) ∧ (r3 s).valid.toNat < 3) ∧
    (let s := lastBits 11 0 8;
      s.Ready ∧ classify s.cfg.distTbl s.cfg.distAlphabet (r3 s).lookahead = some (0, 3) ∧ 3 ≤ (r3 s).valid.toNat ∧
        (r4 s).valid.toNat < 5) ∧
    (let s := lastBits 12 0 8;
      s.Ready ∧ 5 ≤ (r4 s).valid.toNat ∧ dist s = 0) ∧
    (let s := withWin (fun w => { w with produced := 1, wptr := 1 }) (lastBits 12 0x00100000 2);
      s.Ready ∧ 5 ≤ (r4 s).valid.toNat ∧ 1 ≤ dist s ∧ dist s ≤ s.win.produced.toNat ∧
        ¬ (s.cfg.farDist = .fault ∧ s.win.cap.toNat < dist s) ∧ s.win.remaining.toNat < 3) := by decide

/-- RunTerminates. -/
theorem witness_run_terminates :
    (running s1).Inv ∧ (running s1).ctl.busy = true ∧ (running s1).ctl.abortReq = false ∧ (running s1).host.script = [] :=
  ⟨{ s1_inv with ctl := ⟨fun _ => rfl, fun _ => rfl⟩ }, rfl, rfl, rfl⟩

/-! ### BitReader -/

/-- RefillEndsAndKeepsTheCursor, PeekCommand, PeekShowsTheNextStreamBits, CursorNeverGoesBack. -/
theorem witness_peek : s1.Inv ∧ s1.Ready ∧ s1.bits.Inv ∧ s1.bits.Coherent s1.src ∧ Instr.peek ≠ .start :=
  ⟨s1_inv, by decide, s1_inv.bits, s1_coherent, by decide⟩

/-- ConsumeCommand: n = VALID = 16 passes, n = 9 with 8 valid bits does not, n = 17 is illegal. -/
theorem witness_consume :
    s1.Ready ∧ (16 : BitVec 5).toNat ≤ 16 ∧ (16 : BitVec 5).toNat ≤ (s1.bits.refill s1.src).valid.toNat ∧
      (session [0x40] 1 8 .lh).Ready ∧
      ((session [0x40] 1 8 .lh).bits.refill (session [0x40] 1 8 .lh).src).valid.toNat < (9 : BitVec 5).toNat ∧
      16 < (17 : BitVec 5).toNat := by decide

/-- ConsumeCommand, the clause on the empty source: n = 9 with 8 valid bits in a reader that meets its invariant. -/
theorem witness_consume_empty :
    (session [0x40] 1 8 .lh).Ready ∧ (session [0x40] 1 8 .lh).bits.Inv ∧ (9 : BitVec 5).toNat ≤ 16 ∧
      ((session [0x40] 1 8 .lh).bits.refill (session [0x40] 1 8 .lh).src).valid.toNat < (9 : BitVec 5).toNat :=
  ⟨by decide, ⟨by decide, by decide, by decide, by decide⟩, by decide, by decide⟩

/-- ConsumeMovesTheCursorExactly. -/
theorem witness_consume_done :
    s1.bits.Inv ∧ s1.bits.Coherent s1.src ∧
      s1.bits.consume s1.src 16 = .done () { acc := 0, valid := 0, srcPos := 2, sesSrcLen := 2 } :=
  ⟨s1_inv.bits, s1_coherent, by decide⟩

/-- DecodeCommand: the code fits, too few bits are valid, and no class. -/
theorem witness_decode :
    s1.Ready ∧
      classify (cfgT.table .sym).1 (cfgT.table .sym).2 ((s1.bits.refill s1.src).acc.extractLsb' 16 16) = some (5, 9) ∧
      9 ≤ (s1.bits.refill s1.src).valid.toNat ∧
      classify symT 256 0x4000 = some (1, 9) ∧
      ((session [0x40] 1 8 .lh).bits.refill (session [0x40] 1 8 .lh).src).valid.toNat < 9 ∧
      classify (cfgT.table .sym).1 (cfgT.table .sym).2 0xFF00 = none := by decide

/-! ### AdaptiveSymbolTable -/

/-- LookupCommand, RdpcCommand (an error may be latched), CorrectCommand. -/
theorem witness_inspection : (failed s1).Active ∧ s1.Ready := by decide

/-- PromoteCommand: a count that reaches the quota, and one above it in either mode. -/
theorem witness_promote :
    (atQuota 0xA0).Ready ∧ (atQuota 0xA0).cfg.ok ∧
      (entry (atQuota 0xA0).tab.pc ((atQuota 0xA0).tab.lookup 3)).toNat + 1 = 0xA1 ∧
      0xA1 < (entry (atQuota 0xA1).tab.pc ((atQuota 0xA1).tab.lookup 3)).toNat + 1 ∧
      (atQuota 0xA1).cfg.promoteMode = .spec ∧ ({ cfgT with promoteMode := .refloop } : Config).ok := by decide

/-- TableStaysAPermutation. -/
theorem witness_permutation :
    (∀ r r', s1.tab.lookup r = s1.tab.lookup r' → r = r') ∧ ∃ t, exec (.promote 5) s1 = .next t :=
  ⟨s1_inv.tab.injective, _, rfl⟩

/-! ### OutputWindow -/

/-- PushCommand: bytes owed and none owed. -/
theorem witness_push :
    s1.Ready ∧ 1 ≤ s1.win.cap.toNat ∧ s1.win.remaining ≠ 0 ∧ (session [] 0 4 .lh).Ready ∧
      1 ≤ (session [] 0 4 .lh).win.cap.toNat ∧ (session [] 0 4 .lh).win.remaining = 0 := by decide

/-- CopyCommandCopies: d = PRODUCED = C with len = REMAINING, and a distance above the capacity. -/
theorem witness_copy :
    (full.Ready ∧ full.win.Inv ∧ 1 ≤ (4 : BitVec 16).toNat ∧ (4 : BitVec 16).toNat ≤ full.win.produced.toNat ∧
      ¬ (full.cfg.farDist = .fault ∧ full.win.cap.toNat < (4 : BitVec 16).toNat) ∧
      (4 : Byte).toNat ≤ full.win.remaining.toNat) ∧
    (winStart.Ready ∧ winStart.win.Inv ∧ (5 : BitVec 16).toNat ≤ winStart.win.produced.toNat ∧
      winStart.win.cap.toNat < (5 : BitVec 16).toNat ∧ winStart.cfg.farDist ≠ .fault) :=
  ⟨⟨by decide, fullWin_inv, by decide, by decide, by decide, by decide⟩,
    by decide, winStart_inv, by decide, by decide, by decide⟩

/-- CopyCommandChecks: d = 0, d = PRODUCED + 1, d = C + 1 with FAULT, len = REMAINING + 1. -/
theorem witness_copy_checks :
    full.Ready ∧ (0 : BitVec 16).toNat = 0 ∧ full.win.produced.toNat < (5 : BitVec 16).toNat ∧
      ({ winStart with cfg := { cfgT with farDist := .fault } } : State).Ready ∧
      winStart.win.cap.toNat < (5 : BitVec 16).toNat ∧ (5 : BitVec 16).toNat ≤ winStart.win.produced.toNat ∧
      full.cfg.farDist ≠ .fault ∧ full.win.remaining.toNat < (5 : Byte).toNat := by decide

/-- RdwinCommand: the last address written, the first not written, and C itself. -/
theorem witness_rdwin :
    full.Active ∧ (3 : BitVec 24).toNat < full.win.cap.toNat ∧ (3 : BitVec 24).toNat < full.win.produced.toNat ∧
      full.win.ram.read 3 = some 4 ∧ s1.Active ∧ (0 : BitVec 24).toNat < s1.win.cap.toNat ∧
      s1.win.produced.toNat ≤ (0 : BitVec 24).toNat ∧ full.win.cap.toNat ≤ (4 : BitVec 24).toNat := by decide

/-- OutputIsAccountedFor. -/
theorem witness_output : s1.Inv ∧ s1.ctl.active = true ∧ Instr.push 1 ≠ .start ∧ ∃ t, exec (.push 1) s1 = .next t :=
  ⟨s1_inv, rfl, by decide, _, rfl⟩

/-! ### Tokens -/

/-- LiteralInHuffmanMode, LiteralInRunLengthMode: the estimator's bound, both mode clauses, both offsets. -/
theorem witness_literal :
    s1.cfg.ok ∧ 1 ≤ s1.win.cap.toNat ∧ s1.win.remaining ≠ 0 ∧ s1.dec.avr.toNat ≤ 0xFF00 ∧
      16 ≤ ((15 : Word) + 1).toNat ∧ s1.dec.flagCnt = 0 ∧ ¬ 16 ≤ (s1.dec.numHuf + 1).toNat ∧
      (1 : Byte) ≠ 0 ∧ (1 : Byte).toNat = (1 : Byte).toNat - s1.cfg.rlRankOffset.toNat ∧
      (0 : Byte).toNat = (1 : Byte).toNat - (1 : BitVec 1).toNat := by decide

/-- TokenErrors: a literal with no byte owed. -/
theorem witness_literal_overrun :
    (session [] 0 4 .lh).win.remaining = 0 ∧ (session [] 0 4 .lh).err.kind = .none := by decide

/-- EscapeToken: two bytes owed, and one. -/
theorem witness_escape :
    1 ≤ (session [] 2 1 .rl).win.cap.toNat ∧ 2 ≤ (session [] 2 1 .rl).win.remaining.toNat ∧
      1 ≤ (session [] 1 1 .rl).win.cap.toNat ∧ (session [] 1 1 .rl).win.remaining.toNat < 2 ∧
      (session [] 1 1 .rl).err.kind = .none := by decide

/-- BackReferenceToken: dist = PRODUCED = C with len = REMAINING. -/
theorem witness_backref :
    full.win.Inv ∧ 1 ≤ (0 : BitVec 11).toNat * 32 + (4 : BitVec 5).toNat ∧
      (0 : BitVec 11).toNat * 32 + (4 : BitVec 5).toNat ≤ full.win.produced.toNat ∧
      ¬ (full.cfg.farDist = .fault ∧ full.win.cap.toNat < (0 : BitVec 11).toNat * 32 + (4 : BitVec 5).toNat) ∧
      (if true then 4 else 3) ≤ full.win.remaining.toNat :=
  ⟨fullWin_inv, by decide, by decide, by decide, by decide⟩

/-- TokenErrors: distance 0, PRODUCED + 1, above C with FAULT, and REMAINING one short of the length. -/
theorem witness_backref_checks :
    full.err.kind = .none ∧ (0 : BitVec 11).toNat * 32 + (0 : BitVec 5).toNat = 0 ∧
      full.win.produced.toNat < (0 : BitVec 11).toNat * 32 + (5 : BitVec 5).toNat ∧
      winStart.win.cap.toNat < (0 : BitVec 11).toNat * 32 + (5 : BitVec 5).toNat ∧
      (withWin (fun w => { w with remaining := 3 }) full).win.remaining.toNat < (if true then 4 else 3) ∧
      (withWin (fun w => { w with remaining := 2 }) full).win.remaining.toNat < (if false then 4 else 3) := by decide

/-- Estimated, SaturatingCounters: the fixed point, a sum of exactly 0xFF, and one below it. -/
theorem witness_counters :
    (0xFF00 : Half).toNat ≤ 0xFF00 ∧ 0xFF ≤ (0xEF : Byte).toNat + (16 : Byte).toNat ∧
      (0xEE : Byte).toNat + (16 : Byte).toNat < 0xFF := by decide

/-- SixteenLiteralsSwitchTheMode: sixteen ranks, seventeen bytes owed. -/
theorem witness_sixteen :
    s1.Inv ∧ s1.ctl.active = true ∧ s1.dec.mode = .lh ∧ s1.dec.numHuf = 0 ∧
      (List.replicate 16 (5 : Byte)).length ≤ 16 ∧ (List.replicate 16 (5 : Byte)).length ≤ s1.win.remaining.toNat :=
  ⟨s1_inv, rfl, rfl, rfl, by decide, by decide⟩

/-- ModeChangesOnlyByItsTokens: SWITCH from RL, and the sixteenth literal from LH. -/
theorem witness_mode :
    check (exec .switch full) (fun t => t.dec.mode != full.dec.mode) = true ∧
      check (exec (.litLH 5) { s1 with dec := { s1.dec with numHuf := 15 } }) (fun t => t.dec.mode == .rl) = true := by decide

/-! ### Errors -/

/-- ErrorRecordHoldsTheOffsets. -/
theorem witness_error_record :
    s1.err.kind = .none ∧ check (exec (.copy 1 1) s1) (fun t => decide (t.err.kind ≠ .none)) = true := by decide

/-- ErrorRecordIsSticky. -/
theorem witness_sticky :
    (failed s1).err.kind ≠ .none ∧ (∃ t, step (failed s1) = .next t) ∧ (failed s1).nextMove = none :=
  ⟨by decide, ⟨_, rfl⟩, rfl⟩

/-! ### The host -/

/-- RegisterReads, RegisterWrites: the last mapped offset, an offset not in the map, and CFG_CTRL. -/
theorem witness_registers :
    (withMove (.read 0x70 .word) s1).nextMove = some (.read 0x70 .word) ∧ (0x70 : Word).toNat % 4 = 0 ∧
      (0x74 : Word) ∉ ([0x04, 0x08, 0x0C, 0x10, 0x14, 0x20, 0x24, 0x28, 0x2C, 0x40, 0x44, 0x48, 0x4C, 0x50, 0x54, 0x58,
        0x5C, 0x60, 0x64, 0x68, 0x6C, 0x70] : List Word) ∧
      (withMove (.write 0x2C .word 0xFFFFFFFF) s1).nextMove = some (.write 0x2C .word 0xFFFFFFFF) ∧
      (0x2C : Word).toNat % 4 = 0 ∧ (0x2C : Word) ≠ 0 := by decide

/-- NarrowAccessIsRefused: a half word, and a word at offset 2. -/
theorem witness_narrow :
    AccessSize.half ≠ .word ∧ (2 : Word).toNat % 4 ≠ 0 ∧
      (withMove (.read 0 .half) s1).nextMove = some (.read 0 .half) ∧
      (withMove (.write 2 .word 0) s1).nextMove = some (.write 2 .word 0) := by decide

/-- SourcePlacement: the last byte of a held source and the value that it has, the first position past it, no session, and
a source handed over with a START that begins a session and with one that does not. -/
theorem witness_place :
    (withMove (.place 1 7) s1).nextMove = some (.place 1 7) ∧ (withMove (.place 1 7) s1).ctl.active = true ∧
      (1 : Word).toNat < s1.bits.sesSrcLen.toNat ∧ s1.src.read 1 ≠ some 7 ∧
      s1.src.read 1 = some 0x21 ∧ s1.bits.sesSrcLen.toNat ≤ (2 : Word).toNat ∧
      (State.resetWith cfgT).ctl.active = false ∧
      (withMove (.handOver [1]) s1).nextMove = some (.handOver [1]) ∧
      (let s := { s1 with cfgRegs := { srcLen := 1, outLen := 1, winCap := 65536, ctrl := 0 } };
        s.Idle ∧ 1 ≤ s.cfgRegs.winCap.toNat ∧ s.cfgRegs.winCap.toNat ≤ s.cfg.windowMax) ∧
      ¬ (running s1).Idle := by decide

/-- A DONE session still holds its source, and a START hands over the next one. -/
theorem witness_source_handed_over :
    step (withMove (.place 0 7) (session [0x42] 0 8 .lh)) = .fault .sourceHeld ∧
      check (step (withMove (.handOver [0x07, 0x08])
          { session [0x42] 0 8 .lh with cfgRegs := { srcLen := 2, outLen := 1, winCap := 8, ctrl := 0 } }))
        (fun t => t.src.read 0 == some 0x07 && t.src.read 1 == some 0x08 && t.bits.sesSrcLen == 2) = true :=
  ⟨rfl, by decide⟩

/-- OnlyStartReadsConfiguration, EstimatorDecidesNothing. -/
theorem witness_noninterference : Instr.litLH 5 ≠ .start ∧ ∃ t, exec (.litLH 5) s1 = .next t := ⟨by decide, _, rfl⟩

end Sys2Proof.Tests
end

section
/-! What an instruction, a core turn and a host turn leave alone outside the block's own components: the parameters (R6),
the source (R60, R65), the CFG registers (R233) and the host. -/

namespace Sys2Proof.Machine

/-! ### Two states that agree outside the block's own components -/

/-- The states agree in all that no instruction writes: the parameters, the source, the CFG registers and the host. -/
structure SameOutside (s t : State) : Prop where
  cfg : t.cfg = s.cfg
  src : t.src = s.src
  cfgRegs : t.cfgRegs = s.cfgRegs
  host : t.host = s.host

@[refl] theorem SameOutside.refl (s : State) : SameOutside s s := ⟨rfl, rfl, rfl, rfl⟩

@[trans] theorem SameOutside.trans {s t u : State} (h : SameOutside s t) (k : SameOutside t u) : SameOutside s u :=
  ⟨k.cfg.trans h.cfg, k.src.trans h.src, k.cfgRegs.trans h.cfgRegs, k.host.trans h.host⟩

theorem sameOutside_dropped (s : State) : SameOutside s (dropped s) := ⟨rfl, rfl, rfl, rfl⟩

theorem sameOutside_setResult (v : Word) (s : State) : SameOutside s (setResult v s) := ⟨rfl, rfl, rfl, rfl⟩

theorem sameOutside_latch (e : ErrKind) (s : State) : SameOutside s (latch e s) := by constructor <;> simp

theorem sameOutside_illegal (s : State) : SameOutside s (illegal s) := by
  rw [illegal_eq]; exact ⟨rfl, rfl, rfl, rfl⟩

theorem sameOutside_beginSession (s : State) : SameOutside s (beginSession s) := ⟨rfl, rfl, rfl, rfl⟩

theorem sameOutside_refuseSession (s : State) : SameOutside s (refuseSession s) := ⟨rfl, rfl, rfl, rfl⟩

theorem sameOutside_onBits {α : Type} (f : BitReader → Res BitReader α) (s : State) :
    SameOutside s (onBits f s).state := by
  rw [onBits_state]; exact ⟨rfl, rfl, rfl, rfl⟩

theorem sameOutside_onTab {α : Type} (f : SymTable → Res SymTable α) (s : State) :
    SameOutside s (onTab f s).state := by
  rw [onTab_state]; exact ⟨rfl, rfl, rfl, rfl⟩

theorem sameOutside_onWin {α : Type} (f : Window → Res Window α) (s : State) :
    SameOutside s (onWin f s).state := by
  rw [onWin_state]; exact ⟨rfl, rfl, rfl, rfl⟩

theorem SameOutside.settle {s : State} {r : Res State Unit} (h : SameOutside s r.state) : SameOutside s (settle r) := by
  rw [settle_eq]; exact ⟨h.cfg, h.src, h.cfgRegs, h.host⟩

theorem SameOutside.deliver {s : State} {r : Res State Word} (h : SameOutside s r.state) :
    SameOutside s (deliver r) := by
  rw [deliver_eq]; exact ⟨h.cfg, h.src, h.cfgRegs, h.host⟩

/-- The literal path (R156) stays inside the block: each part of its sequence does. -/
theorem sameOutside_literal (q : Byte) (counting : Bool) (s : State) : SameOutside s (literal q counting s).state := by
  refine Res.state_bind (SameOutside s) (sameOutside_onWin _ s) fun _ pushed _ hpushed => ?_
  have hdec (d : Decoder) {u : State} (h : SameOutside s u) : SameOutside s { u with dec := d } :=
    ⟨h.cfg, h.src, h.cfgRegs, h.host⟩
  refine Res.state_bind (SameOutside s) ((hdec _ hpushed).trans (sameOutside_onTab _ _)) fun _ promoted _ hpromoted => ?_
  cases counting with
  | true => exact hdec _ hpromoted
  | false => exact hpromoted

/-! ### Meanings that stay inside the block -/

/-- Where the meaning answers, its answer agrees with the state before it outside the block's own components. -/
def StaysInside (f : Meaning) : Prop := ∀ s t, f s = .next t → SameOutside s t

theorem staysInside_next {g : State → State} (h : ∀ s, SameOutside s (g s)) : StaysInside fun s => .next (g s) := by
  intro s t ht
  cases ht
  exact h s

theorem StaysInside.whenIdle {f : Meaning} (h : StaysInside f) : StaysInside (whenIdle f) := fun s =>
  (gates_keep (SameOutside s) (sameOutside_dropped s) (sameOutside_illegal s) (h s)).1

theorem StaysInside.whenLegal {f : Meaning} (h : StaysInside f) (ok : State → Bool) : StaysInside (whenLegal ok f) :=
  fun s => (gates_keep (SameOutside s) (sameOutside_dropped s) (sameOutside_illegal s) (h s)).2.1 ok

theorem StaysInside.whenActive {f : Meaning} (h : StaysInside f) : StaysInside (whenActive f) := fun s =>
  (gates_keep (SameOutside s) (sameOutside_dropped s) (sameOutside_illegal s) (h s)).2.2.1

theorem StaysInside.whenClear {f : Meaning} (h : StaysInside f) : StaysInside (whenClear f) := fun s =>
  (gates_keep (SameOutside s) (sameOutside_dropped s) (sameOutside_illegal s) (h s)).2.2.2

/-- The gates of an inspection command (R180). -/
theorem StaysInside.inspecting {f : Meaning} (h : StaysInside f) :
    StaysInside (Machine.whenIdle (Machine.whenActive f)) := h.whenActive.whenIdle

/-- The gates of a mutating command (R180). -/
theorem StaysInside.mutating {f : Meaning} (h : StaysInside f) :
    StaysInside (Machine.whenIdle (Machine.whenActive (Machine.whenClear f))) := h.whenClear.inspecting

theorem staysInside_rejectWord : StaysInside rejectWord := (staysInside_next sameOutside_illegal).whenIdle

/-- Every token stays inside the block (R151 to R155). -/
theorem staysInside_runToken : ∀ k : Token, StaysInside (runToken k)
  | .litLH r => staysInside_next fun s => (sameOutside_literal r true s).settle
  | .litRL r => staysInside_next fun s => (sameOutside_literal (literalRank s.cfg r) false s).settle
  | .esc => staysInside_next fun s => (sameOutside_onWin _ s).settle
  | .switch => staysInside_next fun _ => ⟨rfl, rfl, rfl, rfl⟩
  | .backref _ _ _ => staysInside_next fun s => (sameOutside_onWin _ s).settle

/-- Reading and running one token stays inside the block, an error in the reading included (R150, R202). -/
theorem staysInside_tokenStep : StaysInside tokenStep := by
  intro s t h
  have hfetch := sameOutside_onBits (fetchToken s.cfg s.dec.mode s.src) s
  unfold tokenStep at h
  split at h
  · cases h; rfl
  · split at h <;> rename_i heq <;> rw [heq] at hfetch
    · cases h
      exact hfetch.trans (sameOutside_latch _ _)
    · exact hfetch.trans (staysInside_runToken _ _ _ h)

/-- No instruction writes anything outside the block's own components (R6, R60, R233). -/
theorem staysInside_exec : ∀ i : Instr, StaysInside (exec i)
  | .nop => .whenIdle (staysInside_next .refl)
  | .start => .whenIdle (staysInside_next fun s => by
      split
      · exact sameOutside_beginSession s
      · exact sameOutside_refuseSession s)
  | .step => .mutating staysInside_tokenStep
  | .run => .mutating (staysInside_next fun _ => ⟨rfl, rfl, rfl, rfl⟩)
  | .abort => by
    intro s t h
    simp only [exec, execAbort] at h
    split at h
    · cases h; exact ⟨rfl, rfl, rfl, rfl⟩
    · exact (staysInside_next .refl).whenActive s t h
  | .peek => .mutating (staysInside_next fun s => (sameOutside_onBits _ s).deliver)
  | .consume _ =>
    .whenIdle (.whenLegal (.whenActive (.whenClear (staysInside_next fun s => (sameOutside_onBits _ s).settle))) _)
  | .decode _ => .mutating (staysInside_next fun s =>
      .deliver (Res.state_bind (SameOutside s) (sameOutside_onBits _ s) fun _ _ _ h => h))
  | .lookup _ => .inspecting (staysInside_next fun s => sameOutside_setResult _ s)
  | .promote _ => .mutating (staysInside_next fun s => (sameOutside_onTab _ s).settle)
  | .correct => .mutating (staysInside_next fun _ => ⟨rfl, rfl, rfl, rfl⟩)
  | .push _ => .mutating (staysInside_next fun s => (sameOutside_onWin _ s).settle)
  | .copy _ _ => .mutating (staysInside_next fun s => (sameOutside_onWin _ s).settle)
  | .rdwin _ => .whenIdle (.whenLegal (.whenActive (staysInside_next fun s => (sameOutside_onWin _ s).deliver)) _)
  | .rdpc _ => .inspecting (staysInside_next fun s => sameOutside_setResult _ s)
  | .reserved _ => staysInside_rejectWord
  | .litLH r => staysInside_runToken (.litLH r)
  | .litRL r => staysInside_runToken (.litRL r)
  | .esc => staysInside_runToken .esc
  | .switch => staysInside_runToken .switch
  | .backref l d e => staysInside_runToken (.backref l d e)

/-- A write to CMD stays inside the block, whatever word it writes. -/
theorem staysInside_accept (w : Word) : StaysInside (accept w) := by
  intro s t h
  unfold accept at h
  split at h
  · exact staysInside_exec _ s t h
  · exact staysInside_rejectWord s t h

/-- A turn of the core stays inside the block (R182, R209). -/
theorem staysInside_coreTurn : StaysInside coreTurn := by
  intro s t h
  unfold coreTurn at h
  split at h
  · split at h
    · cases h; exact ⟨rfl, rfl, rfl, rfl⟩
    · split at h
      · cases h; exact ⟨rfl, rfl, rfl, rfl⟩
      · exact staysInside_tokenStep s t h
  · cases h; rfl

/-! ### One step: the host's turn or the core's -/

/-- Whether a host move may write the source: it places a byte, or hands over a source (R60, R240). -/
def HostMove.WritesSource : HostMove → Prop
  | .place _ _ => True
  | .handOver _ => True
  | .write _ _ _ => False
  | .read _ _ => False
  | .reset => False
  | .yield => False

/-- With a move left in the host's script, a step is the host's turn on it. -/
theorem step_of_nextMove {s : State} {m : HostMove} (h : s.nextMove = some m) : step s = hostTurn m s.advanced := by
  obtain ⟨rest, hrest⟩ : ∃ rest, s.host.script = m :: rest := by
    simpa [State.nextMove, List.head?_eq_some_iff] using h
  simp [step, transition, State.advanced, hrest]

/-- With no move left in the host's script, a step is the core's turn. -/
theorem step_of_nextMove_none {s : State} (h : s.nextMove = none) : step s = coreTurn s := by
  have hnil : s.host.script = [] := by simpa [State.nextMove] using h
  simp [step, transition, hnil]

/-- No host turn writes a parameter, and only a move that writes the source changes the source. -/
theorem hostTurn_cfg_src {m : HostMove} {s t : State} (h : hostTurn m s = .next t) :
    t.cfg = s.cfg ∧ (¬ m.WritesSource → t.src = s.src) := by
  cases m with
  | write offset size v =>
    simp only [hostTurn] at h
    split at h
    · split at h
      · have hk := staysInside_accept v s t h
        exact ⟨hk.cfg, fun _ => hk.src⟩
      · cases h; simp
    · cases h
  | read offset size =>
    simp only [hostTurn] at h
    split at h
    · cases h; simp
    · cases h
  | place p v =>
    simp only [hostTurn] at h
    split at h
    · cases h
    · cases h; simp [HostMove.WritesSource]
  | handOver bytes =>
    have hk := staysInside_accept startWord (takeSource bytes s) t h
    exact ⟨hk.cfg.trans (by rw [takeSource_eq]), fun hn => absurd trivial hn⟩
  | reset => cases h; exact ⟨rfl, fun _ => rfl⟩
  | yield =>
    have hk := staysInside_coreTurn s t h
    exact ⟨hk.cfg, fun _ => hk.src⟩

/-- Settles O58: with no host move left the core's turn writes neither, and a host turn writes the source only by a
placement or a handover. -/
theorem parametersAndSourceAreNotWritten : Obligations.ParametersAndSourceAreNotWritten := by
  intro s t hstep
  cases hmove : s.nextMove with
  | none =>
    have hk := staysInside_coreTurn s t (step_of_nextMove_none hmove ▸ hstep)
    exact ⟨hk.cfg, fun _ _ => hk.src⟩
  | some m =>
    obtain ⟨hcfg, hsrc⟩ := hostTurn_cfg_src (step_of_nextMove hmove ▸ hstep)
    refine ⟨hcfg, fun hplace hhand => hsrc fun hw => ?_⟩
    cases m with
    | place p v => exact hplace p v rfl
    | handOver bytes => exact hhand bytes rfl
    | write | read | reset | yield => exact hw

end Sys2Proof.Machine
end

section
/-! What a step can do, said once. An instruction other than START, and a turn of the core, is a sequence of small
changes, each to one component of the block; a step is such a sequence, a START, a reset, or one access of the host. -/

namespace Sys2Proof.Machine

open Relation (ReflTransGen)

/-! ### The small changes of each component -/

/-- BitReader: a refill, or valid bits discarded (R110, R112). -/
inductive BitReader.Change (src : Memory) (b : BitReader) : BitReader → Prop
  | refill : BitReader.Change src b (b.refill src)
  | drop (n : Nat) (h : n ≤ b.valid.toNat) : BitReader.Change src b (b.drop n)

/-- AdaptiveSymbolTable: a correction, or an exchange within the quota (R131, R132). -/
inductive SymTable.Change (t : SymTable) : SymTable → Prop
  | correct : SymTable.Change t t.correct
  | exchange (r : Byte) (h : t.count r ≤ 0xA1) : SymTable.Change t (t.exchange r (BitVec.ofNat 8 (t.count r)))

/-- OutputWindow: free values drawn, or a byte written that is owed (R140, R145). -/
inductive Window.Change (w : Window) : Window → Prop
  | draw (n : Nat) : Window.Change w { w with draws := n }
  | write (b : Byte) (h : 1 ≤ w.remaining.toNat) : Window.Change w (w.write b)

/-- Decoder: the estimator and the counters updated, a literal counted, or the switch to LH (R154, R157 to R159). -/
inductive Decoder.Change (step : Byte) (d : Decoder) : Decoder → Prop
  | estimate (q : Byte) : Decoder.Change step d ((d.ewmaUpdate q).countersUpdate step)
  | count : Decoder.Change step d d.countLiteral
  | switch : Decoder.Change step d d.switchToLH

/-- Status flags: RESULT, a dropped command, RUN in a session, ABORT of a RUN, and the end of a RUN by its abort request
or without one (R43, R180, R182, R183). -/
inductive Control.Change (c : Control) : Control → Prop
  | result (v : Word) : Control.Change c { c with result := v }
  | drop : Control.Change c { c with cmdDropped := true }
  | run (h : c.active = true) : Control.Change c { c with busy := true, aborted := false }
  | abort (h : c.busy = true) : Control.Change c { c with abortReq := true }
  | honour : Control.Change c { c with abortReq := false, aborted := true, busy := false }
  | finish (h : c.abortReq = false) : Control.Change c { c with busy := false }

/-- A small change of the block: of one component, or an error latched. -/
inductive Change (s : State) : State → Prop
  | bits {b : BitReader} (h : s.bits.Change s.src b) : Change s { s with bits := b }
  | tab {t : SymTable} (h : s.tab.Change t) : Change s { s with tab := t }
  | win {w : Window} (h : s.win.Change w) : Change s { s with win := w }
  | dec {d : Decoder} (h : s.dec.Change s.cfg.nhfbStep d) : Change s { s with dec := d }
  | ctl {c : Control} (h : s.ctl.Change c) : Change s { s with ctl := c }
  | latch (e : ErrKind) : Change s (latch e s)

/-- A sequence of small changes. -/
abbrev Changes : State → State → Prop := ReflTransGen Change

/-! ### Component operations are sequences of small changes -/

theorem consume_changes (src : Memory) (n : Nat) (b : BitReader) :
    ReflTransGen (BitReader.Change src) b (b.consume src n).state := by
  rcases b.consume_cases src n with ⟨hn, h⟩ | ⟨_, h⟩ <;> rw [h]
  · exact (ReflTransGen.single .refill).tail (.drop n hn)
  · exact .single .refill

theorem decodeWith_changes (c : Config) (t : TableSel) (src : Memory) (b : BitReader) :
    ReflTransGen (BitReader.Change src) b (decodeWith c t src b).state := by
  rcases b.decodeSymbol_cases (classify (c.table t).1 (c.table t).2) src with
    ⟨_, h⟩ | ⟨v, k, _, ⟨hk, h⟩ | ⟨_, h⟩⟩ <;> rw [decodeWith, h]
  · exact .single .refill
  · exact (ReflTransGen.single .refill).tail (.drop k hk)
  · exact .single .refill

theorem fetchToken_changes (c : Config) (m : Mode) (src : Memory) (b : BitReader) :
    ReflTransGen (BitReader.Change src) b (fetchToken c m src b).state :=
  fetchToken_keeps _ c m src (fun _ h => h.tail .refill) (fun n _ hn h => h.tail (.drop n hn)) .refl

theorem promote_changes (c : Config) (r : Byte) (t : SymTable) :
    ReflTransGen SymTable.Change t (t.promote c r).state :=
  SymTable.promote_keeps _ c r (fun _ h => h.tail .correct) (fun _ h hc => h.tail (.exchange r hc)) .refl

theorem windowRead_changes (w : Window) (a : Nat) : ReflTransGen Window.Change w (w.read a).2 := by
  rw [Window.read_snd]
  exact .single (.draw _)

theorem push_changes (b : Byte) (w : Window) : ReflTransGen Window.Change w (w.push b).state := by
  rcases w.push_cases b with ⟨_, h⟩ | ⟨hr, h⟩ <;> rw [h]
  · exact .refl
  · exact .single (.write b (by bv_omega))

theorem escape_changes (w : Window) : ReflTransGen Window.Change w w.escape.state := by
  rcases w.escape_cases with ⟨_, h⟩ | ⟨hr, h⟩ <;> rw [h]
  · exact .refl
  · refine (ReflTransGen.single (.write 0x01 (by omega))).tail (.write 0x00 ?_)
    rw [Window.write_remaining]
    bv_omega

theorem copyBack_changes (far : FarDist) (dist len : Nat) (w : Window) :
    ReflTransGen Window.Change w (w.copyBack far dist len).state := by
  refine Window.copyBack_keeps _ far dist len (fun _ _ v hv h => ?_) .refl
  rw [Window.copyByte_eq]
  refine (h.trans (windowRead_changes v _)).tail (.write _ ?_)
  rw [Window.read_snd]
  exact hv

/-! ### Lifts to the state -/

theorem changes_onBits {α : Type} {f : BitReader → Res BitReader α} {s : State}
    (h : ReflTransGen (BitReader.Change s.src) s.bits (f s.bits).state) : Changes s (onBits f s).state := by
  rw [onBits_state]
  exact h.lift (fun b => { s with bits := b }) fun b _ hc => Change.bits (s := { s with bits := b }) hc

theorem changes_onTab {α : Type} {f : SymTable → Res SymTable α} {s : State}
    (h : ReflTransGen SymTable.Change s.tab (f s.tab).state) : Changes s (onTab f s).state := by
  rw [onTab_state]
  exact h.lift (fun t => { s with tab := t }) fun t _ hc => Change.tab (s := { s with tab := t }) hc

theorem changes_onWin {α : Type} {f : Window → Res Window α} {s : State}
    (h : ReflTransGen Window.Change s.win (f s.win).state) : Changes s (onWin f s).state := by
  rw [onWin_state]
  exact h.lift (fun w => { s with win := w }) fun w _ hc => Change.win (s := { s with win := w }) hc

theorem changes_settle {s : State} {r : Res State Unit} (h : Changes s r.state) : Changes s (settle r) := by
  cases r with
  | done _ u => exact h
  | raise e u => exact h.tail (.latch e)

theorem changes_deliver {s : State} {r : Res State Word} (h : Changes s r.state) : Changes s (deliver r) := by
  cases r with
  | done v u => exact h.tail (.ctl (.result v))
  | raise e u => exact h.tail (.latch e)

theorem changes_dropped (s : State) : Changes s (dropped s) := .single (.ctl .drop)

theorem changes_illegal (s : State) : Changes s (illegal s) := by
  unfold illegal
  split
  · exact .single (.latch _)
  · exact changes_dropped s

/-- The literal path (R156): the push, the estimator, the promotion, the count. -/
theorem changes_literal (q : Byte) (counting : Bool) (s : State) : Changes s (literal q counting s).state := by
  refine Res.state_bind (Changes s) (changes_onWin (push_changes _ _)) fun _ pushed _ hpushed => ?_
  refine Res.state_bind (Changes s) ((hpushed.tail (.dec (.estimate q))).trans (changes_onTab (promote_changes _ _ _)))
    fun _ promoted _ hpromoted => ?_
  cases counting with
  | true => exact hpromoted.tail (.dec .count)
  | false => exact hpromoted

/-! ### Meanings -/

/-- From this state the meaning answers, if it does, by a sequence of small changes. -/
def Changing (f : Meaning) (s : State) : Prop := ∀ t, f s = .next t → Changes s t

theorem changing_next {g : State → State} {s : State} (h : Changes s (g s)) : Changing (fun u => .next (g u)) s := by
  intro t ht
  cases ht
  exact h

theorem Changing.whenIdle {f : Meaning} {s : State} (h : Changing f s) : Changing (whenIdle f) s :=
  (gates_keep (Changes s) (changes_dropped s) (changes_illegal s) h).1

theorem Changing.whenLegal {f : Meaning} {s : State} (h : Changing f s) (ok : State → Bool) :
    Changing (whenLegal ok f) s :=
  (gates_keep (Changes s) (changes_dropped s) (changes_illegal s) h).2.1 ok

theorem Changing.whenActive {f : Meaning} {s : State} (h : s.ctl.active = true → Changing f s) :
    Changing (whenActive f) s := by
  cases ha : s.ctl.active with
  | true => rw [Changing, whenActive_active ha]; exact h ha
  | false => rw [Changing, whenActive_not ha]; rintro _ ⟨⟩; exact changes_illegal s

theorem Changing.whenClear {f : Meaning} {s : State} (h : Changing f s) : Changing (whenClear f) s :=
  (gates_keep (Changes s) (changes_dropped s) (changes_illegal s) h).2.2.2

/-- The gates of a mutating command (R180). -/
theorem Changing.mutating {f : Meaning} {s : State} (h : s.ctl.active = true → Changing f s) :
    Changing (Machine.whenIdle (Machine.whenActive (Machine.whenClear f))) s :=
  .whenIdle (.whenActive fun ha => (h ha).whenClear)

theorem changing_rejectWord (s : State) : Changing rejectWord s := (changing_next (changes_illegal s)).whenIdle

theorem changing_runToken (s : State) : ∀ k : Token, Changing (runToken k) s
  | .litLH r => changing_next (changes_settle (changes_literal r true s))
  | .litRL r => changing_next (changes_settle (changes_literal (literalRank s.cfg r) false s))
  | .esc => changing_next (changes_settle (changes_onWin (escape_changes _)))
  | .switch => changing_next (.single (.dec .switch))
  | .backref _ _ _ => changing_next (changes_settle (changes_onWin (copyBack_changes _ _ _ _)))

/-- step() reads one token and runs it, an error in the reading included (R150, R202). -/
theorem changing_tokenStep (s : State) : Changing tokenStep s := by
  intro t h
  have hfetch : Changes s (onBits (fetchToken s.cfg s.dec.mode s.src) s).state :=
    changes_onBits (fetchToken_changes _ _ _ _)
  unfold tokenStep at h
  split at h
  · cases h; exact .refl
  · split at h <;> rename_i heq <;> rw [heq] at hfetch
    · cases h; exact hfetch.tail (.latch _)
    · exact hfetch.trans (changing_runToken _ _ t h)

/-- A turn of the core (R182, R209). -/
theorem changing_coreTurn (s : State) : Changing coreTurn s := by
  intro t h
  unfold coreTurn at h
  split at h
  · split at h
    · cases h; exact .single (.ctl .honour)
    · next hreq =>
      split at h
      · cases h; exact .single (.ctl (.finish (by simpa using hreq)))
      · exact changing_tokenStep s t h
  · cases h; exact .refl

/-- Every instruction but START is a sequence of small changes. -/
theorem changing_exec {i : Instr} (hi : i ≠ .start) (s : State) : Changing (exec i) s := by
  cases i with
  | start => exact absurd rfl hi
  | nop => exact (changing_next .refl).whenIdle
  | step => exact .mutating fun _ => changing_tokenStep s
  | run => exact .mutating fun ha => changing_next (.single (.ctl (.run ha)))
  | abort =>
    intro t h
    simp only [exec, execAbort] at h
    split at h
    · next hb => cases h; exact .single (.ctl (.abort hb))
    · exact Changing.whenActive (fun _ => changing_next .refl) t h
  | peek => exact .mutating fun _ => changing_next (changes_deliver (changes_onBits (.single .refill)))
  | consume n =>
    exact .whenIdle (.whenLegal (.whenActive fun _ => .whenClear
      (changing_next (changes_settle (changes_onBits (consume_changes _ _ _))))) _)
  | decode t =>
    exact .mutating fun _ => changing_next (changes_deliver
      (Res.state_bind (Changes s) (changes_onBits (decodeWith_changes _ t _ _)) fun _ _ _ h => h))
  | lookup r => exact .whenIdle (.whenActive fun _ => changing_next (.single (.ctl (.result _))))
  | promote r => exact .mutating fun _ => changing_next (changes_settle (changes_onTab (promote_changes _ r _)))
  | correct => exact .mutating fun _ => changing_next (.single (.tab .correct))
  | push b => exact .mutating fun _ => changing_next (changes_settle (changes_onWin (push_changes b _)))
  | copy d len => exact .mutating fun _ => changing_next (changes_settle (changes_onWin (copyBack_changes _ _ _ _)))
  | rdwin a =>
    exact .whenIdle (.whenLegal (.whenActive fun _ =>
      changing_next (changes_deliver (changes_onWin (windowRead_changes _ a.toNat)))) _)
  | rdpc v => exact .whenIdle (.whenActive fun _ => changing_next (.single (.ctl (.result _))))
  | reserved x => exact changing_rejectWord s
  | litLH r => exact changing_runToken s (.litLH r)
  | litRL r => exact changing_runToken s (.litRL r)
  | esc => exact changing_runToken s .esc
  | switch => exact changing_runToken s .switch
  | backref l d e => exact changing_runToken s (.backref l d e)

/-- What START can do (R180, R181). -/
theorem exec_start_cases {s t : State} (h : exec .start s = .next t) :
    (s.ctl.busy = true ∧ t = dropped s) ∨
      (s.ctl.busy = false ∧ capacityLegal s = true ∧ t = beginSession s) ∨
        (s.ctl.busy = false ∧ capacityLegal s = false ∧ t = refuseSession s) := by
  rw [exec, execStart] at h
  cases hb : s.ctl.busy with
  | true => rw [whenIdle_busy hb] at h; cases h; simp
  | false =>
    rw [whenIdle_idle hb] at h
    cases hc : capacityLegal s <;> simp only [hc] at h <;> cases h <;> simp

/-! ### One step -/

/-- What one step can do: the state with the host's turn taken changes by an instruction or a turn of the core, or by a
START that a word or a hand over brings, or by a reset, a placed source byte, a register write or a register read. -/
inductive Stepped (s : State) : State → Prop
  | changes {t : State} (h : Changes s.advanced t) : Stepped s t
  | start {t : State} {w : Word} (hm : s.nextMove = some (.write 0 .word w)) (hw : decode w = .ok .start)
      (h : exec .start s.advanced = .next t) : Stepped s t
  | handOver {t : State} {bytes : List Byte} (hm : s.nextMove = some (.handOver bytes))
      (h : exec .start (takeSource bytes s.advanced) = .next t) : Stepped s t
  | reset (hm : s.nextMove = some .reset) : Stepped s (hardReset s.advanced)
  | place (p : Word) (v : Byte)
      (h : s.ctl.active = true → p.toNat < s.bits.sesSrcLen.toNat → s.src.read p.toNat = some v) :
      Stepped s { s.advanced with src := s.src.write p.toNat v }
  | writeReg (o v : Word) : Stepped s (writeReg o v s.advanced)
  | readReg (v : Word) : Stepped s { s.advanced with host := { s.advanced.host with rdata := v } }

theorem advanced_of_nextMove_none {s : State} (h : s.nextMove = none) : s.advanced = s := by
  have hnil : s.host.script = [] := by simpa [State.nextMove] using h
  rw [State.advanced, hnil, List.tail_nil, ← hnil]

/-- Every step that answers is one of these. -/
theorem step_cases {s t : State} (h : step s = .next t) : Stepped s t := by
  cases hm : s.nextMove with
  | none =>
    rw [step_of_nextMove_none hm, ← advanced_of_nextMove_none hm] at h
    exact .changes (changing_coreTurn _ t h)
  | some m =>
    rw [step_of_nextMove hm] at h
    cases m with
    | write o z v =>
      simp only [hostTurn] at h
      split at h
      · next hz =>
        obtain ⟨rfl, -⟩ : z = .word ∧ o.toNat % 4 = 0 := by simpa [wordAccess] using hz
        split at h
        · next ho =>
          subst ho
          unfold accept at h
          split at h
          · next i hi =>
            by_cases hs : i = .start
            · subst hs; exact .start hm hi h
            · exact .changes (changing_exec hs _ t h)
          · exact .changes (changing_rejectWord _ t h)
        · cases h; exact .writeReg o v
      · cases h
    | read o z =>
      simp only [hostTurn] at h
      split at h
      · cases h; exact .readReg _
      · cases h
    | place p v =>
      simp only [hostTurn] at h
      split at h
      · cases h
      · next hheld => cases h; exact .place p v fun ha hp => by_contra fun hne => hheld ⟨ha, hp, hne⟩
    | handOver bytes => exact .handOver hm h
    | reset => cases h; exact .reset hm
    | yield => exact .changes (changing_coreTurn _ t h)

end Sys2Proof.Machine
end

section
/-! The invariant of the machine: it holds after reset, and every step keeps it. -/

namespace Sys2Proof.Machine

open Relation (ReflTransGen)

/-! ### Every small change keeps its component's invariant -/

theorem BitReader.Change.keeps_inv {src : Memory} {b c : BitReader} (h : b.Change src c) (hi : b.Inv) : c.Inv := by
  cases h with
  | refill => exact bits_refill hi
  | drop n hn => exact bits_drop hn hi

theorem SymTable.Change.keeps_inv {t u : SymTable} (h : t.Change u) (hi : t.Inv) : u.Inv := by
  cases h with
  | correct => exact tab_identity
  | exchange r hr => exact tab_exchange hi hr

theorem Window.Change.keeps_inv {w v : Window} (h : w.Change v) (hi : w.Inv) : v.Inv := by
  cases h with
  | draw n => exact ⟨hi.cap_pos, hi.wptr_eq, hi.out_length, hi.no_wrap, hi.history⟩
  | write b hr => exact win_write b hr hi

theorem Window.Change.keeps_ram_wf {w v : Window} (h : w.Change v) (hi : Memory.wf w.ram) : Memory.wf v.ram := by
  cases h with
  | draw n => exact hi
  | write b hr => exact Memory.wf_write _ b hi

theorem Window.Change.keeps_cap {w v : Window} (h : w.Change v) : v.cap = w.cap := by cases h <;> rfl

/-- The decay takes back at least what an 8-bit rank adds above 0xFF00 (R39, R157). -/
theorem ewma_le {avr : Half} (q : Byte) (h : avr.toNat ≤ 0xFF00) : (ewma avr q).toNat ≤ 0xFF00 := by
  have hsum : (avr + q.setWidth 16).toNat = avr.toNat + q.toNat := by
    rw [BitVec.toNat_add, BitVec.toNat_setWidth]
    omega
  have hshift : ((avr + q.setWidth 16) >>> 8).toNat = (avr.toNat + q.toNat) / 256 := by
    rw [BitVec.toNat_ushiftRight, hsum, Nat.shiftRight_eq_div_pow]
  rw [ewma, Config.ewmaShift, BitVec.toNat_sub_of_le (by rw [BitVec.le_def, hshift, hsum]; omega), hshift, hsum]
  omega

/-- What the saturating counters can do (R158). -/
theorem Decoder.countersUpdate_cases (step : Byte) (d : Decoder) :
    (0xFF ≤ d.nhfb.toNat + step.toNat ∧
        d.countersUpdate step = { d with nhfb := 0x90, nlzb := d.nlzb >>> 1 }) ∨
      (d.nhfb.toNat + step.toNat < 0xFF ∧
        d.countersUpdate step = { d with nhfb := BitVec.ofNat 8 (d.nhfb.toNat + step.toNat) }) := by
  unfold Decoder.countersUpdate Config.nhfbSat Config.nhfbReload
  by_cases h : 0xFF ≤ d.nhfb.toNat + step.toNat
  · exact .inl ⟨h, if_pos h⟩
  · exact .inr ⟨not_le.mp h, if_neg h⟩

/-- What the literal count can do (R159). -/
theorem Decoder.countLiteral_cases (d : Decoder) :
    ((16 ≤ (d.numHuf + 1).toNat ∧ d.flagCnt = 0) ∧
        d.countLiteral = { d with numHuf := d.numHuf + 1, mode := .rl }) ∨
      (¬ (16 ≤ (d.numHuf + 1).toNat ∧ d.flagCnt = 0) ∧ d.countLiteral = { d with numHuf := d.numHuf + 1 }) := by
  unfold Decoder.countLiteral Config.switchCount
  by_cases h : 16 ≤ (d.numHuf + 1).toNat ∧ d.flagCnt = 0
  · exact .inl ⟨h, if_pos h⟩
  · exact .inr ⟨h, if_neg h⟩

/-- The saturating counters stay below 0xFF (R40): the reload value is, and so is a stored sum. -/
theorem dec_countersUpdate (step : Byte) {d : Decoder} (hi : d.Inv) : (d.countersUpdate step).Inv := by
  rcases d.countersUpdate_cases step with ⟨_, h⟩ | ⟨hlt, h⟩ <;> rw [h]
  · exact ⟨hi.avr_le, show (0x90 : Byte).toNat ≤ 0xFE by decide, hi.count_lt⟩
  · refine ⟨hi.avr_le, ?_, hi.count_lt⟩
    rw [BitVec.toNat_ofNat]
    omega

/-- The 16th count with FLAG_CNT = 0 leaves LH, so that the count in LH stays below 16 (R159). -/
theorem dec_countLiteral {d : Decoder} (hi : d.Inv) : d.countLiteral.Inv := by
  rcases d.countLiteral_cases with ⟨_, h⟩ | ⟨hn, h⟩ <;> rw [h]
  · exact ⟨hi.avr_le, hi.nhfb_le, nofun⟩
  · exact ⟨hi.avr_le, hi.nhfb_le, fun _ hf => not_le.mp fun hc => hn ⟨hc, hf⟩⟩

theorem Decoder.Change.keeps_inv {step : Byte} {d e : Decoder} (h : d.Change step e) (hi : d.Inv) : e.Inv := by
  cases h with
  | estimate q => exact dec_countersUpdate step ⟨ewma_le q hi.avr_le, hi.nhfb_le, hi.count_lt⟩
  | count => exact dec_countLiteral hi
  | switch => exact ⟨hi.avr_le, hi.nhfb_le, fun _ _ => show (0 : Word).toNat < 16 by decide⟩

theorem Control.Change.keeps_inv {c d : Control} (h : c.Change d) (hi : c.Inv) : d.Inv := by
  cases h with
  | result v => exact ⟨hi.busy_active, hi.abort_busy⟩
  | drop => exact ⟨hi.busy_active, hi.abort_busy⟩
  | run ha => exact ⟨fun _ => ha, fun _ => rfl⟩
  | abort hb => exact ⟨hi.busy_active, fun _ => hb⟩
  | honour => exact ⟨nofun, nofun⟩
  | finish hr => exact ⟨nofun, fun h => by rw [hr] at h; cases h⟩

theorem Control.Change.keeps_active {c d : Control} (h : c.Change d) : d.active = c.active := by cases h <;> rfl

/-! ### Every sequence of small changes keeps the invariant of the machine -/

/-- The latch changes the error record alone. -/
theorem latch_eq (e : ErrKind) (s : State) : latch e s = { s with err := (latch e s).err } := by
  unfold latch; split <;> rfl

theorem Change.keeps_inv {s t : State} (h : Change s t) (hi : s.Inv) : t.Inv := by
  cases h with
  | bits h => exact { hi with bits := h.keeps_inv hi.bits }
  | tab h => exact { hi with tab := h.keeps_inv hi.tab }
  | win h =>
    refine { hi with ram_wf := h.keeps_ram_wf hi.ram_wf, win := fun ha => ?_ }
    obtain ⟨hw, hcap⟩ := hi.win ha
    exact ⟨h.keeps_inv hw, h.keeps_cap ▸ hcap⟩
  | dec h => exact { hi with dec := h.keeps_inv hi.dec }
  | ctl h => exact { hi with win := fun ha => hi.win (h.keeps_active ▸ ha), ctl := h.keeps_inv hi.ctl }
  | latch e => rw [latch_eq]; exact { hi with }

/-- A sequence of small changes keeps the invariant. -/
theorem Changes.keeps_inv {s t : State} (h : Changes s t) (hi : s.Inv) : t.Inv := by
  induction h with
  | refl => exact hi
  | tail _ hc ih => exact hc.keeps_inv ih

/-! ### Every way in which a step can go keeps it -/

/-- The invariant does not speak of the host. -/
theorem inv_advanced {s : State} (hi : s.Inv) : s.advanced.Inv := { hi with }

theorem inv_dropped {s : State} (hi : s.Inv) : (dropped s).Inv := (changes_dropped s).keeps_inv hi

/-- A reader that has read nothing, of any source length. -/
theorem bits_empty (n : Word) : BitReader.Inv { acc := 0, valid := 0, srcPos := 0, sesSrcLen := n } :=
  ⟨Nat.zero_le _, Nat.zero_le _, le_rfl, Nat.zero_mod _⟩

/-- A session begins with an empty reader, the identity table and an empty window of a legal capacity (R181). -/
theorem inv_beginSession {s : State} (hi : s.Inv) (hc : capacityLegal s = true) :
    (beginSession s).Inv := by
  obtain ⟨hcap, hmax⟩ := of_decide_eq_true hc
  exact { hi with
    bits := bits_empty _
    tab := tab_identity
    win := fun _ => ⟨⟨hcap, by simp, by simp, by simp; omega, by simp⟩, hmax⟩
    dec := ⟨hi.cfg.1, hi.cfg.2.1, fun _ _ => by simp [Config.switchCount]⟩
    ctl := ⟨by simp, by simp⟩ }

/-- A START that fails its check ends the session, and no RUN was in progress (R181). -/
theorem inv_refuseSession {s : State} (hi : s.Inv) (hb : s.ctl.busy = false) : (refuseSession s).Inv :=
  { hi with
    win := nofun
    ctl := ⟨fun h => Bool.noConfusion (hb.symm.trans h), hi.ctl.abort_busy⟩ }

theorem inv_start {s t : State} (hi : s.Inv) (h : exec .start s = .next t) : t.Inv := by
  rcases exec_start_cases h with ⟨_, rfl⟩ | ⟨_, hc, rfl⟩ | ⟨hb, _, rfl⟩
  · exact inv_dropped hi
  · exact inv_beginSession hi hc
  · exact inv_refuseSession hi hb

theorem inv_takeSource {s : State} (bytes : List Byte) (hi : s.Inv) : (takeSource bytes s).Inv := by
  unfold takeSource
  split
  · exact { hi with src_wf := Memory.wf_ofList bytes 0 }
  · exact hi

theorem inv_resetWith {c : Config} (h : c.ok) : (State.resetWith c).Inv where
  cfg := h
  src_wf := Memory.wf_nil
  ram_wf := Memory.wf_nil
  bits := bits_empty 0
  tab := tab_identity
  win := nofun
  dec := ⟨h.1, h.2.1, fun _ _ => by simp [State.resetWith, Config.switchCount]⟩
  ctl := ⟨nofun, nofun⟩
  cfgRegs := BitVec.zero_and

theorem inv_hardReset {s : State} (hi : s.Inv) : (hardReset s).Inv :=
  { inv_resetWith hi.cfg with src_wf := hi.src_wf, win := nofun }

/-- A register write stores no reserved bit of CFG_CTRL (R41). -/
theorem inv_writeReg {s : State} (o v : Word) (hi : s.Inv) : (writeReg o v s).Inv := by
  unfold writeReg
  split
  · exact { hi with }
  · exact { hi with }
  · exact { hi with }
  · exact { hi with cfgRegs := by rw [CfgRegs.Inv, BitVec.and_assoc, BitVec.and_not_self]; exact BitVec.and_zero }
  · exact hi

/-- Settles O5: of the ways in which a step can go, the small changes keep the invariant one by one, START and reset set
up components that meet it, and a host access touches no more than the source, the CFG registers or its own side. -/
theorem stepKeepsInvariant : Obligations.StepKeepsInvariant := by
  intro s t hi hstep
  have hadv := inv_advanced hi
  cases step_cases hstep with
  | changes h => exact h.keeps_inv hadv
  | start _ _ h => exact inv_start hadv h
  | handOver _ h => exact inv_start (inv_takeSource _ hadv) h
  | reset _ => exact inv_hardReset hadv
  | place p v _ => exact { hadv with src_wf := Memory.wf_write _ v hadv.src_wf }
  | writeReg o v => exact inv_writeReg o v hadv
  | readReg v => exact { hadv with }

/-- Settles O4: the default parameters lie in R6's domains. -/
theorem resetMeetsInvariant : Obligations.ResetMeetsInvariant :=
  inv_resetWith (by decide)

end Sys2Proof.Machine
end

section
/-! What follows from the small changes: within a session the bit cursor never goes back, the output is accounted for,
and a latched error stays. And BitReader's stream law under a consume. -/

namespace Sys2Proof.Machine

/-! ### The bit cursor (R22, R25, R112, R113) -/

theorem BitReader.drop_bitpos {n : Nat} {b : BitReader} (hn : n ≤ b.valid.toNat) :
    (b.drop n).bitpos = b.bitpos + n := by
  rw [BitReader.bitpos, BitReader.bitpos, BitReader.drop_valid, BitReader.drop_srcPos]
  omega

theorem BitReader.le_refill_srcPos (src : Memory) (b : BitReader) : b.srcPos.toNat ≤ (b.refill src).srcPos.toNat :=
  BitReader.refill_keeps (fun c => b.srcPos.toNat ≤ c.srcPos.toNat) src
    (fun _ hw h => by rw [BitReader.fold_srcPos hw]; omega) le_rfl

/-- The reader has gone on in the stream of the same session, or stayed. -/
structure BitReader.NotBack (b c : BitReader) : Prop where
  bitpos : b.bitpos ≤ c.bitpos
  srcPos : b.srcPos.toNat ≤ c.srcPos.toNat
  sesSrcLen : c.sesSrcLen = b.sesSrcLen

theorem BitReader.NotBack.refl (b : BitReader) : b.NotBack b := ⟨le_rfl, le_rfl, rfl⟩

theorem BitReader.NotBack.trans {b c d : BitReader} (h : b.NotBack c) (k : c.NotBack d) : b.NotBack d :=
  ⟨h.bitpos.trans k.bitpos, h.srcPos.trans k.srcPos, k.sesSrcLen.trans h.sesSrcLen⟩

theorem BitReader.Change.notBack {src : Memory} {b c : BitReader} (h : b.Change src c) : b.NotBack c := by
  cases h with
  | refill => exact ⟨(b.refill_bitpos src).ge, b.le_refill_srcPos src, b.refill_sesSrcLen src⟩
  | drop n hn => exact ⟨by rw [BitReader.drop_bitpos hn]; omega, le_rfl, rfl⟩

theorem Changes.notBack {s t : State} (h : Changes s t) : s.bits.NotBack t.bits := by
  induction h with
  | refl => exact .refl _
  | tail _ hc ih =>
    cases hc with
    | bits h => exact ih.trans h.notBack
    | latch e => rw [latch_bits]; exact ih
    | tab | win | dec | ctl => exact ih

/-- Settles O31: a refill keeps BITPOS and a consume adds to it. -/
theorem cursorNeverGoesBack : Obligations.CursorNeverGoesBack := by
  intro i s t _ hi h
  obtain ⟨hbitpos, hsrcPos, hlen⟩ := (changing_exec hi s t h).notBack
  exact ⟨hbitpos, hsrcPos, hlen⟩

/-- Where the reader's low bits are zero (R26), every bit of ACC past the valid ones is. -/
theorem BitReader.Inv.getMsbD_acc {b : BitReader} (h : b.Inv) {i : Nat} (hi : b.valid.toNat ≤ i) :
    b.acc.getMsbD i = false := by
  have hlow := h.low_zero
  rw [Config.accBits] at hlow
  rw [BitVec.getMsbD]
  by_cases h32 : i < 32
  · have hbit := congrArg (fun x => x.testBit (31 - i)) hlow
    simp only [Nat.testBit_mod_two_pow, Nat.zero_testBit] at hbit
    simpa [h32, show 31 - i < 32 - b.valid.toNat by omega, BitVec.getLsbD] using hbit
  · simp [h32]

/-- The bits of ACC after a fold: the valid ones, and then those of the byte folded in, the most significant first. -/
theorem BitReader.getMsbD_fold_acc (src : Memory) {b : BitReader} (hi : b.Inv) (hw : b.wants = true) {i : Nat}
    (h : i < b.valid.toNat + 8) :
    (b.fold src).acc.getMsbD i =
      if i < b.valid.toNat then b.acc.getMsbD i
      else (srcRead src b.srcPos.toNat).getLsbD (7 - (i - b.valid.toNat)) := by
  obtain ⟨hv, _⟩ := b.wants_iff.mp hw
  have hacc : (b.fold src).acc =
      b.acc ||| ((srcRead src b.srcPos.toNat).setWidth 32 <<< (24 - b.valid.toNat)) := rfl
  rw [hacc, BitVec.getMsbD_or]
  split
  · next hlt =>
    have hbyte : ((srcRead src b.srcPos.toNat).setWidth 32 <<< (24 - b.valid.toNat)).getMsbD i = false := by
      rw [BitVec.getMsbD, BitVec.getLsbD_shiftLeft, BitVec.getLsbD_setWidth, BitVec.getLsbD_of_ge _ _ (by omega)]
      simp
    rw [hbyte, Bool.or_false]
  · next hge =>
    rw [hi.getMsbD_acc (by omega), Bool.false_or, BitVec.getMsbD, BitVec.getLsbD_shiftLeft, BitVec.getLsbD_setWidth,
      show 32 - 1 - i - (24 - b.valid.toNat) = 7 - (i - b.valid.toNat) by omega]
    simp [show i < 32 by omega, show ¬ 31 - i < 24 - b.valid.toNat by omega,
      show 31 - i < 32 by omega, show 7 - (i - b.valid.toNat) < 32 by omega]

/-- A fold appends the next source byte to the valid bits (R66, R113). -/
theorem BitReader.coherent_fold {src : Memory} {b : BitReader} (hw : b.wants = true) (hi : b.Inv)
    (h : b.Coherent src) : (b.fold src).Coherent src := by
  obtain ⟨hv, hp⟩ := b.wants_iff.mp hw
  have hpos := hi.bitpos_nonneg
  intro i hlt
  rw [BitReader.fold_valid hw] at hlt
  rw [BitReader.getMsbD_fold_acc src hi hw hlt, BitReader.fold_sesSrcLen, BitReader.fold_srcPos hw,
    BitReader.fold_valid hw,
    show 8 * (b.srcPos.toNat + 1) - (b.valid.toNat + 8) = 8 * b.srcPos.toNat - b.valid.toNat by omega]
  split
  · next hold => exact h i hold
  · next hnew =>
    have hj : 8 * b.srcPos.toNat - b.valid.toNat + i = 8 * b.srcPos.toNat + (i - b.valid.toNat) := by omega
    rw [streamBit, hj, show (8 * b.srcPos.toNat + (i - b.valid.toNat)) / 8 = b.srcPos.toNat by omega,
      show (8 * b.srcPos.toNat + (i - b.valid.toNat)) % 8 = i - b.valid.toNat by omega, if_pos hp]

theorem BitReader.coherent_refill {src : Memory} {b : BitReader} (hi : b.Inv) (h : b.Coherent src) :
    (b.refill src).Coherent src :=
  (BitReader.refill_keeps (fun c => c.Inv ∧ c.Coherent src) src
    (fun _ hw hc => ⟨bits_fold hw hc.1, BitReader.coherent_fold hw hc.1 hc.2⟩) ⟨hi, h⟩).2

/-- Discarding n valid bits leaves the stream bits after them. -/
theorem BitReader.coherent_drop {src : Memory} {n : Nat} {b : BitReader} (hn : n ≤ b.valid.toNat) (hi : b.Inv)
    (h : b.Coherent src) : (b.drop n).Coherent src := by
  intro i hlt
  have hpos := hi.bitpos_nonneg
  have h32 := hi.valid_le
  rw [Config.accBits] at h32
  rw [BitReader.drop_valid] at hlt ⊢
  rw [BitReader.drop_acc, BitReader.drop_sesSrcLen, BitReader.drop_srcPos, BitVec.getMsbD_shiftLeft]
  rw [h (i + n) (by omega)]
  congr 1
  omega

/-- Settles O28: the refill before the discard keeps BITPOS, the invariant and the stream. -/
theorem consumeMovesTheCursorExactly : Obligations.ConsumeMovesTheCursorExactly := by
  intro src n b b' hi hc h
  rcases b.consume_cases src n with ⟨hn, hdone⟩ | ⟨_, hraise⟩
  · obtain rfl : (b.refill src).drop n = b' := by simpa [hdone] using h
    have hinv := bits_refill (src := src) hi
    refine ⟨?_, bits_drop hn hinv, BitReader.coherent_drop hn hinv (BitReader.coherent_refill hi hc)⟩
    rw [BitReader.drop_bitpos hn, BitReader.refill_bitpos]
  · rw [hraise] at h
    cases h

/-! ### The output (R33, R34, R63) -/

/-- The output has grown, or stayed, by bytes that were owed. -/
structure Window.Grown (w v : Window) : Prop where
  total : v.produced.toNat + v.remaining.toNat = w.produced.toNat + w.remaining.toNat
  out_prefix : w.out <+: v.out
  out_length : v.out.length + w.produced.toNat = w.out.length + v.produced.toNat
  cap : v.cap = w.cap

theorem Window.Grown.refl (w : Window) : w.Grown w := ⟨rfl, List.prefix_rfl, rfl, rfl⟩

theorem Window.Grown.trans {w v u : Window} (h : w.Grown v) (k : v.Grown u) : w.Grown u :=
  ⟨k.total.trans h.total, h.out_prefix.trans k.out_prefix, by have := h.out_length; have := k.out_length; omega,
    k.cap.trans h.cap⟩

/-- One byte moves from REMAINING to PRODUCED, where the sum of the two does not wrap. -/
theorem Window.Change.grown {w v : Window} (h : w.Change v) (hsum : w.produced.toNat + w.remaining.toNat < 2 ^ 32) :
    w.Grown v := by
  cases h with
  | draw n => exact ⟨rfl, List.prefix_rfl, rfl, rfl⟩
  | write b hr =>
    have hproduced : (w.write b).produced.toNat = w.produced.toNat + 1 := by rw [Window.write_produced]; bv_omega
    have hremaining : (w.write b).remaining.toNat = w.remaining.toNat - 1 := by rw [Window.write_remaining]; bv_omega
    refine ⟨by omega, List.prefix_append _ _, ?_, rfl⟩
    rw [Window.write_out, List.length_append, List.length_singleton]
    omega

theorem Changes.grown {s t : State} (h : Changes s t) (hsum : s.win.produced.toNat + s.win.remaining.toNat < 2 ^ 32) :
    s.win.Grown t.win := by
  induction h with
  | refl => exact .refl _
  | tail _ hc ih =>
    cases hc with
    | win h => exact ih.trans (h.grown (ih.total ▸ hsum))
    | latch e => rw [latch_win]; exact ih
    | bits | tab | dec | ctl => exact ih

/-- Settles O41: every small change of the window only grows the output, by a byte that was owed. -/
theorem outputIsAccountedFor : Obligations.OutputIsAccountedFor := by
  intro i s t hinv hactive hi h
  obtain ⟨hwin, _⟩ := hinv.win hactive
  obtain ⟨htotal, hprefix, hlength, hcap⟩ := (changing_exec hi s t h).grown hwin.no_wrap
  refine ⟨htotal, (List.prefix_iff_eq_take.mp hprefix).symm, ?_, hcap⟩
  have := hwin.out_length
  omega

/-! ### The error record (R44, R201, R205) -/

/-- A latched record stays: the latch is the only small change of it, and takes none where one is latched. -/
theorem Changes.keeps_latched {s t : State} (h : Changes s t) (he : s.err.kind ≠ .none) : t.err = s.err := by
  induction h with
  | refl => rfl
  | tail _ hc ih =>
    cases hc with
    | latch e => rw [latch_of_latched e (ih ▸ he), ih]
    | bits | tab | win | dec | ctl => exact ih

/-- Settles O52: the steps that could clear the record, START and reset, are the ones left out. -/
theorem errorRecordIsSticky : Obligations.ErrorRecordIsSticky := by
  intro s t he hstep hreset hstart hhand
  cases step_cases hstep with
  | changes h => exact h.keeps_latched he
  | start hm hw _ => exact absurd hw (hstart _ hm)
  | handOver hm _ => exact absurd hm (hhand _)
  | reset hm => exact absurd hm hreset
  | place p v _ => rfl
  | writeReg o v => rw [writeReg_err]; rfl
  | readReg v => rfl

end Sys2Proof.Machine
end

section
/-! The register space, and the values of every field after reset and after START. -/

namespace Sys2Proof.Machine

/-! ### Register reads and writes (R41, R42) -/

/-- Settles O53: STATUS is the bits one after the other, so that the bit read tells which part it stands in. -/
theorem statusBits : Obligations.StatusBits := by
  intro s
  have hread : readReg 0x04 s = statusWord s := rfl
  simp only [hread, statusWord, BitVec.getLsbD_append]
  refine ⟨?_, ?_, ?_, ?_, ?_, ?_, ?_, ?_⟩
  · simp
  · simp
  · simp [doneFlag]
  · simp [errFlag]
  · simp
  · simp
  · simp
  · rintro k (rfl | rfl | hk)
    · simp
    · simp
    · obtain ⟨j, rfl⟩ := Nat.exists_eq_add_of_le' hk
      simp

/-- An offset outside the map reads 0 (R41). -/
theorem readReg_unmapped {o : Word} (s : State)
    (ho : o ∉ ([0x04, 0x08, 0x0C, 0x10, 0x14, 0x20, 0x24, 0x28, 0x2C, 0x40, 0x44, 0x48, 0x4C, 0x50, 0x54, 0x58, 0x5C,
      0x60, 0x64, 0x68, 0x6C, 0x70] : List Word)) : readReg o s = 0 := by
  simp only [List.mem_cons, List.not_mem_nil, or_false, not_or, ← BitVec.toNat_inj, BitVec.reduceToNat] at ho
  unfold readReg
  split
  case h_23 => rfl
  all_goals omega

/-- Settles O54: each mapped offset selects its register. -/
theorem registerReads : Obligations.RegisterReads := by
  refine ⟨fun s o hm ho => ?_, fun s => ?_⟩
  · rw [step_of_nextMove hm]
    exact if_pos (by simp [wordAccess, ho])
  · refine ⟨rfl, rfl, rfl, rfl, rfl, rfl, rfl, rfl, rfl, rfl, rfl, rfl, rfl, rfl, rfl, rfl, rfl, rfl, rfl, rfl, rfl,
      rfl, fun o => readReg_unmapped s⟩

/-- The CFG registers after a register write (R41). -/
theorem writeReg_cfgRegs (o v : Word) (s : State) :
    (writeReg o v s).cfgRegs =
      { srcLen := if o = 0x20 then v else s.cfgRegs.srcLen
        outLen := if o = 0x24 then v else s.cfgRegs.outLen
        winCap := if o = 0x28 then v else s.cfgRegs.winCap
        ctrl := if o = 0x2C then v &&& ctrlMask else s.cfgRegs.ctrl } := by
  simp only [← BitVec.toNat_inj, BitVec.reduceToNat]
  unfold writeReg
  split
  case h_5 h1 h2 h3 h4 => rw [if_neg h1, if_neg h2, if_neg h3, if_neg h4]
  all_goals next h => simp [h]

/-- A register write changes a CFG register at most (R41, R233). -/
theorem writeReg_eq (o v : Word) (s : State) : writeReg o v s = { s with cfgRegs := (writeReg o v s).cfgRegs } := by
  unfold writeReg
  split <;> rfl

/-- Settles O55: an aligned write that is not to CMD is writeReg. -/
theorem registerWrites : Obligations.RegisterWrites := by
  intro s o v hm ho hne
  refine ⟨writeReg o v s.advanced, ?_, writeReg_eq o v _, ?_⟩
  · rw [step_of_nextMove hm]
    exact (if_pos (by simp [wordAccess, ho])).trans (if_neg hne)
  · rw [writeReg_cfgRegs]
    exact ⟨rfl, rfl, rfl, rfl⟩

/-! ### The values at reset and at START (R47) -/

/-- With nothing produced the window holds no byte of the session. -/
theorem Window.held_of_produced_zero {w : Window} (h : w.produced = 0) (a : Nat) : w.held a = none := by
  simp [Window.held, Window.written, h]

/-- A START that passes its check, with no RUN in progress, begins the session (R181). -/
theorem exec_start_legal {s : State} (hb : s.Idle) (hc : capacityLegal s = true) :
    exec .start s = .next (beginSession s) := by
  rw [exec, execStart, whenIdle_idle hb, if_pos hc]

/-- Settles O1: reset by its definition, and START by the session that it begins. -/
theorem resetAndStartValues : Obligations.ResetAndStartValues := by
  refine ⟨fun c => ?_, rfl, fun s hb hcap hmax =>
    ⟨beginSession s, exec_start_legal hb (decide_eq_true ⟨hcap, hmax⟩), ?_⟩⟩
  · exact ⟨rfl, SymTable.identity_lookup, SymTable.identity_pc, Window.held_of_produced_zero rfl, rfl, rfl, rfl, rfl,
      rfl, rfl, rfl, rfl, rfl⟩
  · refine ⟨rfl, SymTable.identity_lookup, SymTable.identity_pc, rfl, Window.held_of_produced_zero rfl, rfl, rfl, rfl,
      rfl, rfl, Mode.bit_ofBit _, rfl, rfl, rfl, rfl, rfl, rfl, ?_, rfl⟩
    simp [show s.ctl.busy = false from hb]

end Sys2Proof.Machine
end

section
/-! No decision rests on the estimator (R39, R40): an instruction run on a state in which AVR, NHFB and NLZB hold
anything else ends in a state that differs in them alone. -/

namespace Sys2Proof.Machine

/-- The decoder with other estimator values. -/
def Decoder.withEstimator (a : Half) (h l : Byte) (d : Decoder) : Decoder := { d with avr := a, nhfb := h, nlzb := l }

/-- The state with other estimator values. -/
def State.withEstimator (a : Half) (h l : Byte) (s : State) : State := { s with dec := s.dec.withEstimator a h l }

/-- The second state is the first but for the estimator. -/
def EstimatorTwin (s s' : State) : Prop := ∃ a h l, s' = s.withEstimator a h l

theorem twin_withEstimator (s : State) (a : Half) (h l : Byte) : EstimatorTwin s (s.withEstimator a h l) :=
  ⟨a, h, l, rfl⟩

theorem EstimatorTwin.refl (s : State) : EstimatorTwin s s := ⟨s.dec.avr, s.dec.nhfb, s.dec.nlzb, rfl⟩

/-! ### The decoder's operations -/

theorem countLiteral_withEstimator (a : Half) (h l : Byte) (d : Decoder) :
    (d.withEstimator a h l).countLiteral = d.countLiteral.withEstimator a h l := by
  rcases d.countLiteral_cases with ⟨hc, hd⟩ | ⟨hc, hd⟩ <;> rw [hd]
  · exact if_pos hc
  · exact if_neg hc

/-- The estimator's own update writes the estimator alone (R157, R158). -/
theorem estimate_eq_withEstimator (step q : Byte) (d : Decoder) :
    ∃ a h l, (d.ewmaUpdate q).countersUpdate step = d.withEstimator a h l := by
  rcases (d.ewmaUpdate q).countersUpdate_cases step with ⟨_, hd⟩ | ⟨_, hd⟩ <;> exact ⟨_, _, _, hd⟩

/-! ### Updates of the state -/

theorem twin_latch (e : ErrKind) {s s' : State} (h : EstimatorTwin s s') : EstimatorTwin (latch e s) (latch e s') := by
  obtain ⟨a, n, l, rfl⟩ := h
  by_cases hk : s.err.kind = .none
  · rw [latch_of_none e hk, latch_of_none (s := s.withEstimator a n l) e hk]
    exact ⟨a, n, l, rfl⟩
  · rw [latch_of_latched e hk, latch_of_latched (s := s.withEstimator a n l) e hk]
    exact ⟨a, n, l, rfl⟩

theorem twin_dropped {s s' : State} (h : EstimatorTwin s s') : EstimatorTwin (dropped s) (dropped s') := by
  obtain ⟨a, n, l, rfl⟩ := h
  exact ⟨a, n, l, rfl⟩

theorem twin_setResult (v : Word) {s s' : State} (h : EstimatorTwin s s') :
    EstimatorTwin (setResult v s) (setResult v s') := by
  obtain ⟨a, n, l, rfl⟩ := h
  exact ⟨a, n, l, rfl⟩

theorem twin_illegal {s s' : State} (h : EstimatorTwin s s') : EstimatorTwin (illegal s) (illegal s') := by
  have hk : s'.err.kind = s.err.kind := by obtain ⟨a, n, l, rfl⟩ := h; rfl
  unfold illegal
  rw [hk]
  split
  · exact twin_latch _ h
  · exact twin_dropped h

/-! ### Operations that can raise -/

/-- Both operations end the same way, in states that are equal but for the estimator. -/
inductive Res.EstimatorTwin {α : Type} : Res State α → Res State α → Prop
  | done {s s' : State} (a : α) (h : Machine.EstimatorTwin s s') : Res.EstimatorTwin (.done a s) (.done a s')
  | raise {s s' : State} (e : ErrKind) (h : Machine.EstimatorTwin s s') : Res.EstimatorTwin (.raise e s) (.raise e s')

theorem Res.EstimatorTwin.bind {α β : Type} {r r' : Res State α} {f f' : α → State → Res State β}
    (h : r.EstimatorTwin r') (hf : ∀ a s s', Machine.EstimatorTwin s s' → (f a s).EstimatorTwin (f' a s')) :
    (r.bind f).EstimatorTwin (r'.bind f') := by
  cases h with
  | done a h => exact hf a _ _ h
  | raise e h => exact .raise e h

theorem Res.EstimatorTwin.settle {r r' : Res State Unit} (h : r.EstimatorTwin r') :
    Machine.EstimatorTwin (settle r) (settle r') := by
  cases h with
  | done _ h => exact h
  | raise e h => exact twin_latch e h

theorem Res.EstimatorTwin.deliver {r r' : Res State Word} (h : r.EstimatorTwin r') :
    Machine.EstimatorTwin (deliver r) (deliver r') := by
  cases h with
  | done v h => exact twin_setResult v h
  | raise e h => exact twin_latch e h

theorem twin_onBits {α : Type} (f : BitReader → Res BitReader α) {s s' : State} (h : EstimatorTwin s s') :
    (onBits f s).EstimatorTwin (onBits f s') := by
  obtain ⟨a, n, l, rfl⟩ := h
  simp only [onBits, State.withEstimator]
  cases f s.bits with
  | done v b => exact .done v ⟨a, n, l, rfl⟩
  | raise e b => exact .raise e ⟨a, n, l, rfl⟩

theorem twin_onTab {α : Type} (f : SymTable → Res SymTable α) {s s' : State} (h : EstimatorTwin s s') :
    (onTab f s).EstimatorTwin (onTab f s') := by
  obtain ⟨a, n, l, rfl⟩ := h
  simp only [onTab, State.withEstimator]
  cases f s.tab with
  | done v t => exact .done v ⟨a, n, l, rfl⟩
  | raise e t => exact .raise e ⟨a, n, l, rfl⟩

theorem twin_onWin {α : Type} (f : Window → Res Window α) {s s' : State} (h : EstimatorTwin s s') :
    (onWin f s).EstimatorTwin (onWin f s') := by
  obtain ⟨a, n, l, rfl⟩ := h
  simp only [onWin, State.withEstimator]
  cases f s.win with
  | done v w => exact .done v ⟨a, n, l, rfl⟩
  | raise e w => exact .raise e ⟨a, n, l, rfl⟩

/-- The literal path (R156): its two decoder updates write the estimator or count, and nothing else reads the
decoder. -/
theorem twin_literal (q : Byte) (counting : Bool) {s s' : State} (h : EstimatorTwin s s') :
    (literal q counting s).EstimatorTwin (literal q counting s') := by
  obtain ⟨a, n, l, rfl⟩ := h
  refine (twin_onWin _ (twin_withEstimator s a n l)).bind fun _ pushed pushed' hpushed => ?_
  have hestimated : EstimatorTwin
      { pushed with dec := (pushed.dec.ewmaUpdate q).countersUpdate pushed.cfg.nhfbStep }
      { pushed' with dec := (pushed'.dec.ewmaUpdate q).countersUpdate pushed'.cfg.nhfbStep } := by
    obtain ⟨a, n, l, rfl⟩ := hpushed
    obtain ⟨a₁, n₁, l₁, h₁⟩ := estimate_eq_withEstimator pushed.cfg.nhfbStep q pushed.dec
    obtain ⟨a₂, n₂, l₂, h₂⟩ := estimate_eq_withEstimator pushed.cfg.nhfbStep q (pushed.dec.withEstimator a n l)
    rw [h₁]
    exact ⟨a₂, n₂, l₂, congrArg (fun d => { pushed with dec := d }) h₂⟩
  have hcfg : pushed'.cfg = pushed.cfg := by obtain ⟨a, n, l, rfl⟩ := hpushed; rfl
  rw [hcfg] at hestimated ⊢
  refine (twin_onTab _ hestimated).bind fun _ promoted promoted' hpromoted => ?_
  cases counting with
  | true =>
    obtain ⟨a, n, l, rfl⟩ := hpromoted
    exact .done () ⟨a, n, l, congrArg (fun d => { promoted with dec := d }) (countLiteral_withEstimator a n l _)⟩
  | false => exact .done () hpromoted

/-! ### Meanings -/

/-- Where the meaning answers, it answers on every twin of the state, with a twin of its answer. -/
def EstimatorBlind (f : Meaning) : Prop :=
  ∀ s a h l t, f s = .next t → ∃ t', f (s.withEstimator a h l) = .next t' ∧ EstimatorTwin t t'

theorem blind_next {g : State → State} (h : ∀ s a n l, EstimatorTwin (g s) (g (s.withEstimator a n l))) :
    EstimatorBlind fun s => .next (g s) := by
  rintro s a n l _ ⟨⟩
  exact ⟨_, rfl, h s a n l⟩

/-- A choice between blind meanings that does not look at the estimator is blind; each gate of R180 is one. -/
theorem EstimatorBlind.ite {c : State → Prop} [DecidablePred c] {f g : Meaning}
    (hc : ∀ s a n l, c (s.withEstimator a n l) ↔ c s)
    (hf : EstimatorBlind f) (hg : EstimatorBlind g) : EstimatorBlind fun s => if c s then f s else g s := by
  intro s a n l t h
  by_cases hs : c s
  · simp only [if_pos hs, if_pos ((hc s a n l).mpr hs)] at h ⊢
    exact hf s a n l t h
  · simp only [if_neg hs, if_neg (mt (hc s a n l).mp hs)] at h ⊢
    exact hg s a n l t h

theorem blind_dropped : EstimatorBlind fun s => .next (dropped s) :=
  blind_next fun _ a n l => twin_dropped ⟨a, n, l, rfl⟩

theorem blind_illegal : EstimatorBlind fun s => .next (illegal s) :=
  blind_next fun _ a n l => twin_illegal ⟨a, n, l, rfl⟩

theorem EstimatorBlind.whenIdle {f : Meaning} (h : EstimatorBlind f) : EstimatorBlind (whenIdle f) :=
  .ite (fun _ _ _ _ => .rfl) blind_dropped h

theorem EstimatorBlind.whenLegal {ok : State → Bool} {f : Meaning} (hok : ∀ s a n l, ok (s.withEstimator a n l) = ok s)
    (h : EstimatorBlind f) : EstimatorBlind (whenLegal ok f) := .ite (fun s a n l => by rw [hok]) h blind_illegal

theorem EstimatorBlind.whenActive {f : Meaning} (h : EstimatorBlind f) : EstimatorBlind (whenActive f) :=
  .ite (fun _ _ _ _ => .rfl) h blind_illegal

theorem EstimatorBlind.whenClear {f : Meaning} (h : EstimatorBlind f) : EstimatorBlind (whenClear f) :=
  .ite (fun _ _ _ _ => .rfl) h blind_dropped

theorem EstimatorBlind.mutating {f : Meaning} (h : EstimatorBlind f) :
    EstimatorBlind (Machine.whenIdle (Machine.whenActive (Machine.whenClear f))) := h.whenClear.whenActive.whenIdle

theorem blind_nop : EstimatorBlind fun s => .next s := blind_next twin_withEstimator

theorem blind_runToken : ∀ k : Token, EstimatorBlind (runToken k)
  | .litLH r => blind_next fun s a n l => (twin_literal r true (twin_withEstimator s a n l)).settle
  | .litRL r => blind_next fun s a n l => (twin_literal (literalRank s.cfg r) false (twin_withEstimator s a n l)).settle
  | .esc => blind_next fun s a n l => (twin_onWin _ (twin_withEstimator s a n l)).settle
  | .switch => blind_next fun _ a n l => ⟨a, n, l, rfl⟩
  | .backref _ _ _ => blind_next fun s a n l => (twin_onWin _ (twin_withEstimator s a n l)).settle

theorem tokenStep_of_finished {s : State} (h : s.win.remaining = 0) : tokenStep s = .next s := if_pos h

theorem tokenStep_of_done {s u : State} {k : Token} (hr : s.win.remaining ≠ 0)
    (h : onBits (fetchToken s.cfg s.dec.mode s.src) s = .done k u) : tokenStep s = runToken k u := by
  rw [tokenStep, if_neg hr, h]

theorem tokenStep_of_raise {s u : State} {e : ErrKind} (hr : s.win.remaining ≠ 0)
    (h : onBits (fetchToken s.cfg s.dec.mode s.src) s = .raise e u) : tokenStep s = .next (latch e u) := by
  rw [tokenStep, if_neg hr, h]

/-- The reading of a token looks at MODE alone of the decoder's registers, and the token is blind (R150). -/
theorem blind_tokenStep : EstimatorBlind tokenStep := by
  intro s a n l t h
  by_cases hr : s.win.remaining = 0
  · rw [tokenStep_of_finished hr] at h
    cases h
    exact ⟨_, tokenStep_of_finished (s := s.withEstimator a n l) hr, twin_withEstimator s a n l⟩
  · have hfetch := twin_onBits (fetchToken s.cfg s.dec.mode s.src) (twin_withEstimator s a n l)
    generalize hs : onBits (fetchToken s.cfg s.dec.mode s.src) s = r at hfetch
    generalize hs' : onBits (fetchToken s.cfg s.dec.mode s.src) (s.withEstimator a n l) = r' at hfetch
    cases hfetch with
    | done k hu =>
      rw [tokenStep_of_done hr hs] at h
      rw [tokenStep_of_done (s := s.withEstimator a n l) hr hs']
      obtain ⟨a', n', l', rfl⟩ := hu
      exact blind_runToken k _ a' n' l' t h
    | raise e hu =>
      rw [tokenStep_of_raise hr hs] at h
      cases h
      exact ⟨_, tokenStep_of_raise (s := s.withEstimator a n l) hr hs', twin_latch e hu⟩

/-- START puts its own values into the estimator, or leaves the decoder alone (R181). -/
theorem blind_start : EstimatorBlind fun s => .next (if capacityLegal s then beginSession s else refuseSession s) :=
  blind_next fun s a n l => by
    have hc : capacityLegal (s.withEstimator a n l) = capacityLegal s := rfl
    rw [hc]
    split
    · exact .refl _
    · exact ⟨a, n, l, rfl⟩

/-- Each row of the opcode table, by its gates and its one operation. -/
theorem blind_exec : ∀ i : Instr, EstimatorBlind (exec i)
  | .nop => blind_nop.whenIdle
  | .start => blind_start.whenIdle
  | .step => blind_tokenStep.mutating
  | .run => .mutating (blind_next fun _ a n l => ⟨a, n, l, rfl⟩)
  | .abort => .ite (fun _ _ _ _ => .rfl) (blind_next fun _ a n l => ⟨a, n, l, rfl⟩) blind_nop.whenActive
  | .peek => .mutating (blind_next fun s a n l => (twin_onBits _ (twin_withEstimator s a n l)).deliver)
  | .consume _ => .whenIdle (.whenLegal (fun _ _ _ _ => rfl) (.whenActive (.whenClear
      (blind_next fun s a n l => (twin_onBits _ (twin_withEstimator s a n l)).settle))))
  | .decode _ => .mutating (blind_next fun s a n l =>
      Res.EstimatorTwin.deliver ((twin_onBits _ (twin_withEstimator s a n l)).bind fun _ _ _ h => .done _ h))
  | .lookup _ => .whenIdle (.whenActive (blind_next fun s a n l => twin_setResult _ (twin_withEstimator s a n l)))
  | .promote _ => .mutating (blind_next fun s a n l => (twin_onTab _ (twin_withEstimator s a n l)).settle)
  | .correct => .mutating (blind_next fun _ a n l => ⟨a, n, l, rfl⟩)
  | .push _ => .mutating (blind_next fun s a n l => (twin_onWin _ (twin_withEstimator s a n l)).settle)
  | .copy _ _ => .mutating (blind_next fun s a n l => (twin_onWin _ (twin_withEstimator s a n l)).settle)
  | .rdwin _ => .whenIdle (.whenLegal (fun _ _ _ _ => rfl) (.whenActive
      (blind_next fun s a n l => (twin_onWin _ (twin_withEstimator s a n l)).deliver)))
  | .rdpc _ => .whenIdle (.whenActive (blind_next fun s a n l => twin_setResult _ (twin_withEstimator s a n l)))
  | .reserved _ => blind_illegal.whenIdle
  | .litLH r => blind_runToken (.litLH r)
  | .litRL r => blind_runToken (.litRL r)
  | .esc => blind_runToken .esc
  | .switch => blind_runToken .switch
  | .backref l d e => blind_runToken (.backref l d e)

/-- Settles O60: every instruction is blind to the estimator. -/
theorem estimatorDecidesNothing : Obligations.EstimatorDecidesNothing := by
  intro i s t a h l hexec
  obtain ⟨_, hexec', a', h', l', rfl⟩ := blind_exec i s a h l t hexec
  exact ⟨a', h', l', hexec'⟩

end Sys2Proof.Machine
end

section
/-! The host at the interface: a narrow register access has no step (R71), and the source is placed byte by byte or
handed over with a START (R60, R77, R235, R240). -/

namespace Sys2Proof.Machine

/-! ### Register accesses outside the interface (R71) -/

/-- An access that is narrow or misaligned is not a word access. -/
theorem not_wordAccess {o : Word} {z : AccessSize} (h : z ≠ .word ∨ o.toNat % 4 ≠ 0) : ¬ wordAccess o z = true := by
  rw [wordAccess, decide_eq_true_iff, not_and_or]
  exact h

/-- Settles O56: the host's turn on either access asks for a word access first. -/
theorem narrowAccessIsRefused : Obligations.NarrowAccessIsRefused := by
  intro s o v z hz
  constructor <;> intro hm <;> rw [step_of_nextMove hm] <;> exact if_neg (not_wordAccess hz)

/-! ### Placing a source byte (R60, R77, R235) -/

/-- A placement that would change a held byte faults. -/
theorem step_place_held {s : State} {p : Word} {v : Byte} (hm : s.nextMove = some (.place p v))
    (ha : s.ctl.active = true) (hp : p.toNat < s.bits.sesSrcLen.toNat) (hv : s.src.read p.toNat ≠ some v) :
    step s = .fault .sourceHeld := by
  rw [step_of_nextMove hm]
  exact if_pos ⟨ha, hp, hv⟩

/-- Any other placement stores its byte. -/
theorem step_place_free {s : State} {p : Word} {v : Byte} (hm : s.nextMove = some (.place p v))
    (h : s.ctl.active = false ∨ s.bits.sesSrcLen.toNat ≤ p.toNat ∨ s.src.read p.toNat = some v) :
    step s = .next { s.advanced with src := s.src.write p.toNat v } := by
  rw [step_of_nextMove hm]
  refine if_neg ?_
  rintro ⟨ha, hp, hv⟩
  rcases h with h | h | h
  · exact Bool.noConfusion (h.symm.trans ha)
  · exact absurd hp (not_lt.mpr h)
  · exact hv h

/-! ### Handing a source over with a START (R240) -/

theorem decode_startWord : decode startWord = .ok .start := by decide

/-- A handover is a START on the source that it takes over. -/
theorem step_handOver {s : State} {bytes : List Byte} (hm : s.nextMove = some (.handOver bytes)) :
    step s = exec .start (takeSource bytes s.advanced) := by
  rw [step_of_nextMove hm, hostTurn, accept, decode_startWord]

/-- A START that begins no session takes no source over. -/
theorem takeSource_of_not {bytes : List Byte} {s : State} (h : ¬ (s.ctl.busy = false ∧ capacityLegal s = true)) :
    takeSource bytes s = s := if_neg h

/-- A session that begins with a handover is the one that START begins, on the source handed over. -/
theorem beginSession_takeSource (bytes : List Byte) (s : State) :
    beginSession (takeSource bytes s) = { beginSession s with src := (takeSource bytes s).src } := by
  rw [takeSource_eq]; rfl

/-- A START that begins a session takes over exactly the bytes handed over. -/
theorem read_takeSource {bytes : List Byte} {s : State} (hb : s.Idle) (hc : capacityLegal s = true) (a : Nat) :
    (takeSource bytes s).src.read a = bytes[a]? := by
  rw [takeSource_src, if_pos ⟨hb, hc⟩, Memory.read_ofList]
  simp

/-- A START with a handover, no RUN in progress and a legal capacity, begins the session. -/
theorem exec_start_takeSource {bytes : List Byte} {s : State} (hb : s.Idle) (hc : capacityLegal s = true) :
    exec .start (takeSource bytes s) = .next (beginSession (takeSource bytes s)) := by
  apply exec_start_legal <;> rw [takeSource_eq]
  · exact hb
  · exact hc

/-- Settles O57: a placement faults or stores by whether it would change a held byte, and a handover takes its bytes over
by whether the START begins a session. -/
theorem sourcePlacement : Obligations.SourcePlacement := by
  refine ⟨fun s p v hm => ⟨step_place_held hm, fun h => ?_⟩, fun s bytes hm => ⟨fun hb hcap hmax => ?_, fun hn => ?_⟩⟩
  · exact ⟨_, step_place_free hm h, rfl, Memory.read_write_same _ _ _, fun a ha => Memory.read_write_other _ v ha⟩
  · have hbusy : s.advanced.Idle := hb
    have hc : capacityLegal s.advanced = true := decide_eq_true ⟨hcap, hmax⟩
    refine ⟨_, _, exec_start_legal hbusy hc, (step_handOver hm).trans (exec_start_takeSource hbusy hc),
      beginSession_takeSource bytes s.advanced, fun a => ?_⟩
    rw [beginSession_src, read_takeSource hbusy hc]
  · rw [step_handOver hm, takeSource_of_not]
    rintro ⟨hb, hc⟩
    exact hn ⟨hb, of_decide_eq_true hc⟩

end Sys2Proof.Machine
end

section
/-! Command words: a word matches a row of R91 exactly where it is the row's OP and zeros over its low bits, so decode
undoes encode and encode undoes decode (R90 to R92). -/

namespace Sys2Proof

/-! ### A row's match and mask as a fixed upper part over the operand field -/

/-- A word is its upper part over its lower part. -/
theorem append_parts {n k : Nat} (w : BitVec (n + k)) : w.extractLsb' k n ++ w.extractLsb' 0 k = w := by
  rw [BitVec.extractLsb'_append_extractLsb'_eq_extractLsb' (Nat.zero_add k).symm, BitVec.extractLsb'_eq_self]

/-- The mask that keeps the upper part leaves it over zeros. -/
theorem and_upper_mask {n k : Nat} (w : BitVec (n + k)) :
    w &&& (BitVec.allOnes n ++ 0#k) = w.extractLsb' k n ++ 0#k := by
  conv_lhs => rw [← append_parts w]
  rw [BitVec.and_append, BitVec.and_allOnes, BitVec.and_zero]

/-- A word built of an upper part and an operand field matches the row that fixes the upper part. -/
theorem append_and_upper_mask {n k : Nat} (p : BitVec n) (x : BitVec k) :
    (p ++ x) &&& (BitVec.allOnes n ++ 0#k) = p ++ 0#k := by
  rw [and_upper_mask, BitVec.extractLsb'_append_eq_left]

/-- A word that matches the row that fixes an upper part is that part over the word's operand field. -/
theorem append_of_and_upper_mask {n k : Nat} {p : BitVec n} {w : BitVec (n + k)}
    (h : w &&& (BitVec.allOnes n ++ 0#k) = p ++ 0#k) : p ++ w.extractLsb' 0 k = w := by
  rw [and_upper_mask, BitVec.append_left_inj] at h
  rw [← h, append_parts]

/-- The operand bit of DECODE read from a word and written back is bit 0 of the word (R121). -/
theorem TableSel.bit_ofBit (w : Word) : (TableSel.ofBit (w.getLsbD 0)).bit = w.extractLsb' 0 1 := by
  have h : w.extractLsb' 0 1 = BitVec.ofBool (w.getLsbD 0) := by
    apply BitVec.eq_of_getLsbD_eq
    intro i hi
    obtain rfl : i = 0 := by omega
    simp
  rw [h]
  cases w.getLsbD 0 <;> rfl

/-- The word of COPY as its fixed upper byte over the operand fields. -/
theorem copy_word (d : BitVec 16) (len : Byte) :
    0xC#4 ++ 0#4 ++ len ++ d = ((0xC#4 ++ 0#4) ++ (len ++ d) : BitVec 32) := BitVec.append_assoc

/-! ### The rows -/

/-- No two rows have the same OP field, so the row that a word matches is the row that the decoder finds. -/
theorem find_row_of_mem {w : Word} {r : Row} (hr : r ∈ rows) (hw : w &&& r.mask = r.pattern) :
    rows.find? (fun q => q.accepts w) = some r := by
  have hops : rows.Pairwise fun q r => q.pattern.extractLsb' 28 4 ≠ r.pattern.extractLsb' 28 4 := by decide
  obtain ⟨pre, post, hrows⟩ := List.append_of_mem hr
  rw [hrows, List.pairwise_append] at hops
  exact find_row hrows hw fun q hq => hops.2.2 q hq r (List.mem_cons_self ..)

/-- A word that matches a row decodes to the row's instruction, where its operand is in range. -/
theorem decode_of_row {w : Word} {r : Row} (hr : r ∈ rows) (hw : w &&& r.mask = r.pattern) :
    decode w = if (r.operands w).wellFormed then .ok (r.operands w) else .error .operandRange := by
  rw [decode, find_row_of_mem hr hw]

/-- The word of an instruction matches a row, whose operand fields give the instruction back. -/
theorem exists_row_of_encode {i : Instr} {w : Word} (h : encode i = some w) :
    ∃ r ∈ rows, w &&& r.mask = r.pattern ∧ r.operands w = i := by
  cases i <;> simp only [encode, Option.some.injEq, reduceCtorEq] at h <;> subst h
  case nop => exact ⟨_, List.getElem_mem (n := 0) (by decide), rfl, rfl⟩
  case start => exact ⟨_, List.getElem_mem (n := 1) (by decide), rfl, rfl⟩
  case step => exact ⟨_, List.getElem_mem (n := 2) (by decide), rfl, rfl⟩
  case run => exact ⟨_, List.getElem_mem (n := 3) (by decide), rfl, rfl⟩
  case abort => exact ⟨_, List.getElem_mem (n := 4) (by decide), rfl, rfl⟩
  case peek => exact ⟨_, List.getElem_mem (n := 5) (by decide), rfl, rfl⟩
  case consume n =>
    exact ⟨_, List.getElem_mem (n := 6) (by decide), append_and_upper_mask (0x6#4 ++ 0#23) n,
      congrArg Instr.consume BitVec.extractLsb'_append_eq_right⟩
  case decode t =>
    exact ⟨_, List.getElem_mem (n := 7) (by decide), append_and_upper_mask (0x7#4 ++ 0#27) t.bit, by cases t <;> rfl⟩
  case lookup r =>
    exact ⟨_, List.getElem_mem (n := 8) (by decide), append_and_upper_mask (0x8#4 ++ 0#20) r,
      congrArg Instr.lookup BitVec.extractLsb'_append_eq_right⟩
  case promote r =>
    exact ⟨_, List.getElem_mem (n := 9) (by decide), append_and_upper_mask (0x9#4 ++ 0#20) r,
      congrArg Instr.promote BitVec.extractLsb'_append_eq_right⟩
  case correct => exact ⟨_, List.getElem_mem (n := 10) (by decide), rfl, rfl⟩
  case push b =>
    exact ⟨_, List.getElem_mem (n := 11) (by decide), append_and_upper_mask (0xB#4 ++ 0#20) b,
      congrArg Instr.push BitVec.extractLsb'_append_eq_right⟩
  case copy d len =>
    refine ⟨_, List.getElem_mem (n := 12) (by decide), ?_, ?_⟩
    · exact (congrArg (· &&& _) (copy_word d len)).trans (append_and_upper_mask (0xC#4 ++ 0#4) (len ++ d))
    · refine congrArg₂ Instr.copy BitVec.extractLsb'_append_eq_right ?_
      rw [BitVec.extractLsb'_append_eq_of_le le_rfl]
      exact BitVec.extractLsb'_append_eq_right
  case rdwin a =>
    exact ⟨_, List.getElem_mem (n := 13) (by decide), append_and_upper_mask (0xD#4 ++ 0#4) a,
      congrArg Instr.rdwin BitVec.extractLsb'_append_eq_right⟩
  case rdpc v =>
    exact ⟨_, List.getElem_mem (n := 14) (by decide), append_and_upper_mask (0xE#4 ++ 0#20) v,
      congrArg Instr.rdpc BitVec.extractLsb'_append_eq_right⟩
  case reserved x =>
    exact ⟨_, List.getElem_mem (n := 15) (by decide), append_and_upper_mask 0xF#4 x,
      congrArg Instr.reserved BitVec.extractLsb'_append_eq_right⟩

/-- Settles O6: the word of an instruction matches a row that reads the instruction back, and no other row's OP. -/
theorem commandWordRoundTrip : Obligations.CommandWordRoundTrip := by
  intro i w hwf h
  obtain ⟨r, hr, hw, rfl⟩ := exists_row_of_encode h
  rw [decode_of_row hr hw, if_pos hwf]

/-- What a word that matches a row says under the row's operand fields is a command, and the word is the command's. -/
theorem encode_of_row {r : Row} (hr : r ∈ rows) {w : Word} (hw : w &&& r.mask = r.pattern) :
    Machine.isCommand (r.operands w) = true ∧ encode (r.operands w) = some w := by
  have full {p : Word} (h : w &&& 0xFFFFFFFF = p) : some p = some w :=
    congrArg some (h.symm.trans BitVec.and_allOnes)
  simp only [rows, List.mem_cons, List.not_mem_nil, or_false] at hr
  rcases hr with rfl | rfl | rfl | rfl | rfl | rfl | rfl | rfl | rfl | rfl | rfl | rfl | rfl | rfl | rfl | rfl
  · exact ⟨rfl, full hw⟩
  · exact ⟨rfl, full hw⟩
  · exact ⟨rfl, full hw⟩
  · exact ⟨rfl, full hw⟩
  · exact ⟨rfl, full hw⟩
  · exact ⟨rfl, full hw⟩
  · exact ⟨rfl, congrArg some (append_of_and_upper_mask (k := 5) (p := 0x6#4 ++ 0#23) hw)⟩
  · refine ⟨rfl, congrArg some ?_⟩
    rw [TableSel.bit_ofBit]
    exact append_of_and_upper_mask (k := 1) (p := 0x7#4 ++ 0#27) hw
  · exact ⟨rfl, congrArg some (append_of_and_upper_mask (k := 8) (p := 0x8#4 ++ 0#20) hw)⟩
  · exact ⟨rfl, congrArg some (append_of_and_upper_mask (k := 8) (p := 0x9#4 ++ 0#20) hw)⟩
  · exact ⟨rfl, full hw⟩
  · exact ⟨rfl, congrArg some (append_of_and_upper_mask (k := 8) (p := 0xB#4 ++ 0#20) hw)⟩
  · refine ⟨rfl, congrArg some ?_⟩
    have hfields : w.extractLsb' 16 8 ++ w.extractLsb' 0 16 = w.extractLsb' 0 24 :=
      BitVec.extractLsb'_append_extractLsb'_eq_extractLsb' rfl
    rw [copy_word, hfields]
    exact append_of_and_upper_mask (k := 24) (p := 0xC#4 ++ 0#4) hw
  · exact ⟨rfl, congrArg some (append_of_and_upper_mask (k := 24) (p := 0xD#4 ++ 0#4) hw)⟩
  · exact ⟨rfl, congrArg some (append_of_and_upper_mask (k := 8) (p := 0xE#4 ++ 0#20) hw)⟩
  · exact ⟨rfl, congrArg some (append_of_and_upper_mask (k := 28) (p := 0xF#4) hw)⟩

/-- Settles O7: the row that the decoder finds fixes every bit of the word that is no operand bit. -/
theorem decodedWordIsTheCommandsWord : Obligations.DecodedWordIsTheCommandsWord := by
  intro w i h
  rcases decode_cases w with ⟨_, hd⟩ | ⟨r, hfind, ⟨hwf, hd⟩ | ⟨_, hd⟩⟩ <;> rw [hd] at h <;> cases h
  have hw : w &&& r.mask = r.pattern := by simpa [Row.accepts] using List.find?_some hfind
  exact ⟨hwf, encode_of_row (List.mem_of_find?_eq_some hfind) hw⟩

/-- Settles O8: the tests of the decoder, and the round trip for two words that they leave out. -/
theorem sampleWordsDecode : Obligations.SampleWordsDecode := by
  refine ⟨Tests.test_decode_nop, ?_, Tests.test_decode_decode, Tests.test_decode_promote, Tests.test_decode_copy,
    Tests.test_decode_rdwin, ?_, Tests.test_decode_reserved_bit, Tests.test_decode_reserved_bit_decode,
    Tests.test_decode_reserved_bit_rdwin, Tests.test_consume17_word_refused⟩
  · exact commandWordRoundTrip (.consume 5) _ (by decide) rfl
  · exact commandWordRoundTrip (.reserved 0) _ rfl rfl

end Sys2Proof
end

section
/-! A step on a command word, and the illegal words (R90 to R92, R180). -/

namespace Sys2Proof.Machine

/-- Settles O12: the host's turn on a word access to CMD decodes the word. -/
theorem stepRunsTheDecodedCommand : Obligations.StepRunsTheDecodedCommand := by
  intro s w i hm hw
  rw [step_of_nextMove hm]
  have hturn : hostTurn (.write 0 .word w) s.advanced = accept w s.advanced := rfl
  rw [hturn, accept, hw]

/-! ### Illegal words -/

theorem illegal_eq_afterIllegal (s : State) : illegal s = s.afterIllegal := by
  unfold illegal State.afterIllegal
  split
  · next h => exact latch_of_none .illegalCommand h
  · rfl

theorem rejectWord_idle {s : State} (h : s.Idle) : rejectWord s = .next s.afterIllegal := by
  rw [rejectWord, whenIdle_idle h, illegal_eq_afterIllegal]

theorem accept_of_error {w : Word} {e : Reject} {s : State} (hs : s.Idle) (h : decode w = .error e) :
    accept w s = .next s.afterIllegal := by
  rw [accept, h]
  exact rejectWord_idle hs

/-- A field of a word is reserved for an OP where every row of that OP masks it and has it zero (R90, R92). -/
abbrev ReservedField (op : BitVec 4) (lo len : Nat) : Prop :=
  ∀ r ∈ rows, r.pattern.extractLsb' 28 4 = op →
    r.mask.extractLsb' lo len = BitVec.allOnes len ∧ r.pattern.extractLsb' lo len = 0

/-- A word with a reserved field set matches no row. -/
theorem decode_of_reservedField {w : Word} {lo len : Nat} (hf : ReservedField (w.extractLsb' 28 4) lo len)
    (hw : w.extractLsb' lo len ≠ 0) : decode w = .error .noRow := by
  refine decode_noRow fun r hr h => hw ?_
  obtain ⟨hmask, hpattern⟩ := hf r hr (row_op hr h).symm
  rw [← hpattern, ← h, BitVec.extractLsb'_and, hmask, BitVec.and_allOnes]

/-- The words of CONSUME 17 to CONSUME 31 have an operand out of range (R92). -/
theorem decode_consume_illegal {w : Word} (hlo : 0x60000011 ≤ w.toNat) (hhi : w.toNat ≤ 0x6000001F) :
    decode w = .error .operandRange := by
  have hupper : w.extractLsb' 5 27 = 0x6#4 ++ 0#23 := by
    apply BitVec.eq_of_toNat_eq
    rw [BitVec.extractLsb'_toNat, Nat.shiftRight_eq_div_pow]
    change _ = 0x3000000
    omega
  have hmatch : w &&& (BitVec.allOnes 27 ++ 0#5) = (0x6#4 ++ 0#23) ++ 0#5 := by
    rw [and_upper_mask (n := 27) (k := 5) w, hupper]
  have hrange : ¬ (w.extractLsb' 0 5).toNat ≤ 16 := by
    rw [BitVec.extractLsb'_toNat, Nat.shiftRight_zero]
    omega
  have hrow := decode_of_row (List.getElem_mem (n := 6) (by decide)) hmatch
  rwa [if_neg (by simpa [rows, Instr.wellFormed] using hrange)] at hrow

/-- Every word with OP 0xF is the reserved row's (R92). -/
theorem decode_reserved {w : Word} (h : w.extractLsb' 28 4 = 0xF) :
    decode w = .ok (.reserved (w.extractLsb' 0 28)) := by
  have hmatch : w &&& (BitVec.allOnes 4 ++ 0#28) = 0xF#4 ++ 0#28 := by
    rw [and_upper_mask (n := 4) (k := 28) w, h]; rfl
  exact decode_of_row (List.getElem_mem (n := 15) (by decide)) hmatch

theorem exec_reserved_idle (x : BitVec 28) {s : State} (hs : s.Idle) :
    exec (.reserved x) s = .next s.afterIllegal := rejectWord_idle hs

theorem exec_consume_illegal {n : BitVec 5} {s : State} (hs : s.Idle) (hn : 16 < n.toNat) :
    exec (.consume n) s = .next s.afterIllegal := by
  rw [exec, execConsume, whenIdle_idle hs, whenLegal_not (decide_eq_false (not_le.mpr hn)), illegal_eq_afterIllegal]

theorem exec_rdwin_illegal {a : BitVec 24} {s : State} (hs : s.Idle) (ha : s.win.cap.toNat ≤ a.toNat) :
    exec (.rdwin a) s = .next s.afterIllegal := by
  rw [exec, execRdwin, whenIdle_idle hs, whenLegal_not (decide_eq_false (not_lt.mpr ha)), illegal_eq_afterIllegal]

/-- Settles O15: a reserved field set or an operand out of range leaves no instruction to decode, and the three
instructions that can be illegal are refused by their own meaning. -/
theorem illegalCommandWords : Obligations.IllegalCommandWords := by
  intro s hs
  have fields {ops : List (BitVec 4)} {lo len : Nat} (hf : ∀ op ∈ ops, ReservedField op lo len) (w : Word)
      (hop : w.extractLsb' 28 4 ∈ ops) (hw : w.extractLsb' lo len ≠ 0) : accept w s = .next s.afterIllegal :=
    accept_of_error hs (decode_of_reservedField (hf _ hop) hw)
  have field {op : BitVec 4} {lo len : Nat} (hf : ReservedField op lo len) (w : Word)
      (hop : w.extractLsb' 28 4 = op) (hw : w.extractLsb' lo len ≠ 0) : accept w s = .next s.afterIllegal :=
    accept_of_error hs (decode_of_reservedField (hop ▸ hf) hw)
  refine ⟨fun x => exec_reserved_idle x hs, fun n hn => exec_consume_illegal hs hn,
    fun a ha => exec_rdwin_illegal hs ha, fun w hop => ?_, fields (by decide), field (by decide), field (by decide), fields (by decide), field (by decide),
    field (by decide), fun w hlo hhi => accept_of_error hs (decode_consume_illegal hlo hhi)⟩
  rw [accept, decode_reserved hop]
  exact exec_reserved_idle _ hs

end Sys2Proof.Machine
end

section
/-! The code space of a table pair: the class that a masked lookahead selects, and the lookaheads that begin with the
code of a symbol (R80, R81, R120). -/

namespace Sys2Proof

/-! ### The class of a lookahead -/

/-- Class i is the one that m selects: its boundary exceeds m, and no earlier one does. -/
structure InClass (bnd : List Half) (m i : Nat) : Prop where
  lt_length : i < bnd.length
  lt_bound : m < bnd[i].toNat
  earlier_le : ∀ j (hj : j < i), bnd[j].toNat ≤ m

/-- The boundary before class i: 0 before the first. -/
def lowBound (bnd : List Half) (lo : Nat) : Nat → Nat
  | 0 => lo
  | i + 1 => (bnd[i]?.getD 0).toNat

theorem inClass_nil (m i : Nat) : ¬ InClass [] m i := fun h => Nat.not_lt_zero i h.lt_length

theorem inClass_cons_zero {b : Half} {bs : List Half} {m : Nat} : InClass (b :: bs) m 0 ↔ m < b.toNat :=
  ⟨fun h => h.lt_bound, fun h => ⟨Nat.succ_pos _, h, fun _ hj => absurd hj (Nat.not_lt_zero _)⟩⟩

theorem inClass_cons_succ {b : Half} {bs : List Half} {m i : Nat} :
    InClass (b :: bs) m (i + 1) ↔ b.toNat ≤ m ∧ InClass bs m i := by
  constructor
  · rintro ⟨hlen, hlt, hle⟩
    exact ⟨hle 0 (Nat.succ_pos i), Nat.lt_of_succ_lt_succ hlen, hlt, fun j hj => hle (j + 1) (Nat.succ_lt_succ hj)⟩
  · rintro ⟨hb, hlen, hlt, hle⟩
    refine ⟨Nat.succ_lt_succ hlen, hlt, fun j hj => ?_⟩
    cases j with
    | zero => exact hb
    | succ j => exact hle j (Nat.lt_of_succ_lt_succ hj)

theorem lowBound_cons_succ (b : Half) (bs : List Half) (lo i : Nat) :
    lowBound (b :: bs) lo (i + 1) = lowBound bs b.toNat i := by cases i <;> rfl

/-- The search finds class i, with the boundary before it, exactly where m selects class i. -/
theorem findClass_eq_some_iff {bnd : List Half} {m i₀ lo i lo' : Nat} :
    findClass bnd m i₀ lo = some (i, lo') ↔ ∃ j, i = i₀ + j ∧ lo' = lowBound bnd lo j ∧ InClass bnd m j := by
  induction bnd generalizing i₀ lo with
  | nil => simp [findClass, inClass_nil]
  | cons b bs ih =>
    rw [findClass]
    by_cases hb : m < b.toNat
    · rw [if_pos hb]
      constructor
      · rintro ⟨⟩
        exact ⟨0, rfl, rfl, inClass_cons_zero.mpr hb⟩
      · rintro ⟨j, rfl, rfl, hj⟩
        cases j with
        | zero => rfl
        | succ j => exact absurd (inClass_cons_succ.mp hj).1 (not_le.mpr hb)
    · rw [if_neg hb, ih]
      constructor
      · rintro ⟨j, rfl, rfl, hj⟩
        exact ⟨j + 1, by omega, (lowBound_cons_succ ..).symm, inClass_cons_succ.mpr ⟨not_lt.mp hb, hj⟩⟩
      · rintro ⟨j, rfl, rfl, hj⟩
        cases j with
        | zero => exact absurd (inClass_cons_zero.mp hj) hb
        | succ j => exact ⟨j, by omega, lowBound_cons_succ .., (inClass_cons_succ.mp hj).2⟩

/-- The part of a lookahead that the decode sees (R120). -/
def masked (l : Half) : Nat := (l &&& 0xFFF0).toNat

/-- The symbol that a class of code length k gives a masked lookahead m, where the boundary before the class is lo
(R120). -/
def classSymbol (t : TablePair) (lo m k : Nat) (hk : k < 17) : Nat := (m - lo) / 2 ^ (16 - k) + t.base[k]

/-- What classify answers where the masked lookahead selects class i. -/
theorem classify_of_inClass {t : TablePair} {l : Half} {i : Nat} (h : InClass t.bnd (masked l) i) (alpha : Nat) :
    classify t alpha l =
      if hk : t.start + i < 17 then
        if alpha ≤ classSymbol t (lowBound t.bnd 0 i) (masked l) (t.start + i) hk then none
        else some (classSymbol t (lowBound t.bnd 0 i) (masked l) (t.start + i) hk, t.start + i)
      else none := by
  have hfind : findClass t.bnd (l &&& Config.decodeMask).toNat 0 0 = some (i, lowBound t.bnd 0 i) :=
    findClass_eq_some_iff.mpr ⟨i, (Nat.zero_add i).symm, rfl, h⟩
  simp only [classify, hfind, Nat.shiftRight_eq_div_pow]
  rfl

theorem classify_of_forall_not_inClass {t : TablePair} {l : Half} (h : ∀ i, ¬ InClass t.bnd (masked l) i)
    (alpha : Nat) : classify t alpha l = none := by
  have hfind : findClass t.bnd (l &&& Config.decodeMask).toNat 0 0 = none := by
    refine Option.eq_none_iff_forall_not_mem.mpr fun c hc => ?_
    obtain ⟨j, -, -, hj⟩ := findClass_eq_some_iff.mp hc
    exact h j hj
  simp only [classify, hfind]

/-- A lookahead is a symbol with a code length exactly where its class has a legal length and a legal symbol
(R81, R120). -/
theorem classify_eq_some_iff {t : TablePair} {alpha s k : Nat} {l : Half} :
    classify t alpha l = some (s, k) ↔
      ∃ i, ∃ hk : k < 17, InClass t.bnd (masked l) i ∧ k = t.start + i ∧
        s = classSymbol t (lowBound t.bnd 0 i) (masked l) k hk ∧ s < alpha := by
  constructor
  · intro h
    obtain ⟨i, hi⟩ : ∃ i, InClass t.bnd (masked l) i := by
      by_contra hnone
      rw [classify_of_forall_not_inClass (not_exists.mp hnone)] at h
      cases h
    rw [classify_of_inClass hi] at h
    split at h
    · next hk =>
      split at h
      · cases h
      · next hs =>
        cases h
        exact ⟨i, hk, hi, rfl, rfl, not_le.mp hs⟩
    · cases h
  · rintro ⟨i, hk, hi, rfl, rfl, hs⟩
    rw [classify_of_inClass hi, dif_pos hk, if_neg (not_le.mpr hs)]

theorem lowBound_zero_eq {bnd : List Half} {i : Nat} (hi : i < bnd.length) :
    lowBound bnd 0 i = if h : i = 0 then 0 else (bnd[i - 1]'(by omega)).toNat := by
  cases i with
  | zero => rfl
  | succ i => simp [lowBound, List.getElem?_eq_getElem (show i < bnd.length by omega)]

/-- Settles O9: the linear search finds the class, and the checks after it are the length and the symbol. -/
theorem classifyIsTheCodeSpace : Obligations.ClassifyIsTheCodeSpace := by
  intro t alpha l s k
  rw [classify_eq_some_iff]
  constructor
  · rintro ⟨i, hk, ⟨hlen, hlt, hle⟩, hki, hs, halpha⟩
    refine ⟨i, hlen, hk, hlt, hle, hki, ?_, halpha⟩
    rwa [classSymbol, lowBound_zero_eq hlen] at hs
  · rintro ⟨i, hlen, hk, hlt, hle, hki, hs, halpha⟩
    refine ⟨i, hk, ⟨hlen, hlt, hle⟩, hki, ?_, halpha⟩
    rwa [classSymbol, lowBound_zero_eq hlen]

/-! ### The code of a symbol -/

theorem length_msbBits (k v : Nat) : (msbBits k v).length = k := by
  induction k with
  | zero => rfl
  | succ k ih => rw [msbBits, List.length_cons, ih]

theorem getElem_msbBits (k v i : Nat) (h : i < (msbBits k v).length) :
    (msbBits k v)[i] = v.testBit (k - 1 - i) := by
  induction k generalizing i with
  | zero => exact absurd h (Nat.not_lt_zero i)
  | succ k ih =>
    cases i with
    | zero => rfl
    | succ i =>
      have hi : i < (msbBits k v).length := Nat.lt_of_succ_lt_succ h
      have hget : (msbBits (k + 1) v)[i + 1] = (msbBits k v)[i] := rfl
      rw [hget, ih i hi, show k + 1 - 1 - (i + 1) = k - 1 - i by omega]

/-- A lookahead whose first k bits are those of v has v as its upper k bits. -/
theorem div_eq_of_getMsbD_eq {k v : Nat} {l : Half} (hk : k ≤ 16) (hv : v < 2 ^ k)
    (h : ∀ i (hi : i < (msbBits k v).length), l.getMsbD i = (msbBits k v)[i]) : l.toNat / 2 ^ (16 - k) = v := by
  apply Nat.eq_of_testBit_eq
  intro j
  rw [Nat.testBit_div_two_pow]
  by_cases hj : j < k
  · have hbit := h (k - 1 - j) (by rw [length_msbBits]; omega)
    rw [getElem_msbBits, BitVec.getMsbD, show k - 1 - (k - 1 - j) = j by omega,
      show 16 - 1 - (k - 1 - j) = j + (16 - k) by omega] at hbit
    simpa [show k - 1 - j < 16 by omega, BitVec.getLsbD] using hbit
  · rw [Nat.testBit_lt_two_pow (hv.trans_le (Nat.pow_le_pow_right two_pos (not_lt.mp hj)))]
    exact BitVec.getLsbD_of_ge l _ (by omega)

/-- The mask clears the low 4 bits. -/
theorem masked_eq (l : Half) : masked l = l.toNat / 16 * 16 := by
  have h : l &&& (BitVec.allOnes 12 ++ 0#4) = _ := and_upper_mask (n := 12) (k := 4) l
  have hlt := l.isLt
  change (l &&& (BitVec.allOnes 12 ++ 0#4)).toNat = _
  rw [h, BitVec.toNat_append, BitVec.extractLsb'_toNat, BitVec.toNat_ofNat, Nat.zero_mod, Nat.or_zero,
    Nat.shiftLeft_eq, Nat.shiftRight_eq_div_pow]
  omega

theorem masked_mono {l l' : Half} (h : l.toNat ≤ l'.toNat) : masked l ≤ masked l' := by
  rw [masked_eq, masked_eq]
  exact Nat.mul_le_mul_right 16 (Nat.div_le_div_right h)

theorem classSymbol_mono (t : TablePair) (lo : Nat) {m m' k : Nat} (hk : k < 17) (h : m ≤ m') :
    classSymbol t lo m k hk ≤ classSymbol t lo m' k hk :=
  Nat.add_le_add_right (Nat.div_le_div_right (Nat.sub_le_sub_right h lo)) _

/-- Between two lookaheads that are a symbol at one length, every lookahead is: the length fixes the class, and the
symbol rises with the lookahead in a class. -/
theorem classify_between {t : TablePair} {alpha s k : Nat} {a l b : Half} (ha : classify t alpha a = some (s, k))
    (hb : classify t alpha b = some (s, k)) (hal : a.toNat ≤ l.toNat) (hlb : l.toNat ≤ b.toNat) :
    classify t alpha l = some (s, k) := by
  obtain ⟨i, hk, hia, hki, hsa, halpha⟩ := classify_eq_some_iff.mp ha
  obtain ⟨j, _, hjb, hkj, hsb, -⟩ := classify_eq_some_iff.mp hb
  obtain rfl : j = i := by omega
  have hml := masked_mono hal
  have hmu := masked_mono hlb
  have hclass : InClass t.bnd (masked l) j :=
    ⟨hia.lt_length, hmu.trans_lt hjb.lt_bound, fun n hn => (hia.earlier_le n hn).trans hml⟩
  refine classify_eq_some_iff.mpr ⟨j, hk, hclass, hki, le_antisymm ?_ ?_, halpha⟩
  · exact hsa.trans_le (classSymbol_mono t _ hk hml)
  · exact (classSymbol_mono t _ hk hmu).trans_eq hsb.symm

/-- What a class's code is: the k bits of a value whose first and last lookahead are the symbol at length k. -/
theorem classCode_eq_some {t : TablePair} {alpha s i lo : Nat} {code : List Bool}
    (h : classCode t alpha s i lo = some code) :
    ∃ k v, k ≤ 16 ∧ (v + 1) * 2 ^ (16 - k) ≤ 2 ^ 16 ∧ code = msbBits k v ∧
      classify t alpha (BitVec.ofNat 16 (v * 2 ^ (16 - k))) = some (s, k) ∧
      classify t alpha (BitVec.ofNat 16 (v * 2 ^ (16 - k) + 2 ^ (16 - k) - 1)) = some (s, k) := by
  unfold classCode at h
  dsimp only at h
  split at h
  · next hk =>
    split at h
    · split at h
      · next hends =>
        obtain ⟨hle, hlow, hhigh⟩ := hends
        cases h
        exact ⟨_, _, Nat.le_of_lt_succ hk, by rwa [Nat.succ_mul], rfl, hlow, hhigh⟩
      · cases h
    · cases h
  · cases h

/-- The code of a symbol is the code that one of the classes has for it. -/
theorem codeFrom_eq_some {t : TablePair} {alpha s : Nat} {code : List Bool} {bs : List Half} {i lo : Nat}
    (h : codeFrom t alpha s bs i lo = some code) : ∃ j lo', classCode t alpha s j lo' = some code := by
  induction bs generalizing i lo with
  | nil => cases h
  | cons b bs ih =>
    rw [codeFrom] at h
    split at h
    · next c hc =>
      cases h
      exact ⟨i, lo, hc⟩
    · exact ih h

/-- A code has at most 16 bits (R80). -/
theorem length_symbolCode_le {t : TablePair} {alpha s : Nat} {code : List Bool}
    (h : symbolCode t alpha s = some code) : code.length ≤ 16 := by
  obtain ⟨_, _, hcode⟩ := codeFrom_eq_some h
  obtain ⟨k, v, hk, -, rfl, -, -⟩ := classCode_eq_some hcode
  rwa [length_msbBits]

/-- Settles O10: the lookaheads that begin with a code lie between its first and its last, which are the symbol. -/
theorem symbolCodeDecodes : Obligations.SymbolCodeDecodes := by
  intro t alpha s code h l hl
  obtain ⟨_, _, hcode⟩ := codeFrom_eq_some h
  obtain ⟨k, v, hk, hv, rfl, hfirst, hlast⟩ := classCode_eq_some hcode
  have hpow : 2 ^ k * 2 ^ (16 - k) = 2 ^ 16 := by rw [← pow_add, Nat.add_sub_cancel' hk]
  have hpos : 0 < 2 ^ (16 - k) := Nat.two_pow_pos _
  have hvk : v < 2 ^ k := Nat.le_of_mul_le_mul_right (hv.trans_eq hpow.symm) hpos
  have hupper : l.toNat / 2 ^ (16 - k) = v := div_eq_of_getMsbD_eq hk hvk hl
  rw [Nat.succ_mul] at hv
  have hlo : v * 2 ^ (16 - k) ≤ l.toNat := hupper ▸ Nat.div_mul_le_self ..
  have hhi : l.toNat < v * 2 ^ (16 - k) + 2 ^ (16 - k) := by
    rw [← Nat.succ_mul]
    exact (Nat.div_lt_iff_lt_mul hpos).mp (hupper ▸ Nat.lt_succ_self _)
  rw [length_msbBits]
  refine classify_between hfirst hlast ?_ ?_ <;> rw [BitVec.toNat_ofNat, Nat.mod_eq_of_lt] <;> omega

end Sys2Proof
end

section
/-! copy_back byte by byte: what each iteration reads, and what the whole copy leaves (R140, R142 to R144). -/

namespace Sys2Proof.Machine

/-! ### One byte written -/

theorem Window.write_wptr (b : Byte) (w : Window) (hcap : 1 ≤ w.cap.toNat) :
    (w.write b).wptr.toNat = (w.wptr.toNat + 1) % w.cap.toNat := by
  have hwrap : w.wrap ((w.wptr.toNat : Int) + 1) = (w.wptr.toNat + 1) % w.cap.toNat := by
    rw [Window.wrap]
    exact_mod_cast Int.toNat_natCast _
  have hlt : (w.wptr.toNat + 1) % w.cap.toNat < 2 ^ 32 := (Nat.mod_lt _ hcap).trans w.cap.isLt
  change (BitVec.ofNat 32 (w.wrap ((w.wptr.toNat : Int) + 1))).toNat = _
  rw [hwrap, BitVec.toNat_ofNat, Nat.mod_eq_of_lt hlt]

/-- A window write with a byte owed (R140). -/
theorem pushed_write (b : Byte) {w : Window} (hcap : 1 ≤ w.cap.toNat) (hr : 1 ≤ w.remaining.toNat) :
    Pushed b w (w.write b) where
  stored := Memory.read_write_same ..
  kept _ ha := Memory.read_write_other _ _ ha
  cap := rfl
  wptr := Window.write_wptr b w hcap
  remaining := by
    have hlt := w.remaining.isLt
    rw [Window.write_remaining]
    bv_omega
  produced := rfl
  out := rfl
  draws := rfl

/-! ### The byte read -/

/-- How far back in the output copy_back reads for a distance: the distance itself up to the capacity, and the aliased
distance above it (R144). -/
def backOffset (w : Window) (dist : Nat) : Nat := (dist - 1) % w.cap.toNat + 1

/-- copy_back reads the output byte that the distance, modulo the capacity, lies back, and draws no free value
(R35, R142, R144). -/
theorem Window.Inv.read_backAddr {w : Window} (h : w.Inv) {dist : Nat} (h1 : 1 ≤ dist) (hd : dist ≤ w.produced.toNat) :
    ∃ b, w.read (w.backAddr dist) = (b, w) ∧ w.out[w.out.length - backOffset w dist]? = some b := by
  obtain ⟨j, hj⟩ : ∃ j, j = w.produced.toNat - backOffset w dist := ⟨_, rfl⟩
  have hcap := h.cap_pos
  have hoff : backOffset w dist ≤ dist := by
    have := Nat.mod_le (dist - 1) w.cap.toNat
    unfold backOffset; omega
  have hoff_cap : backOffset w dist ≤ w.cap.toNat := Nat.mod_lt _ hcap
  have hoff_pos : 1 ≤ backOffset w dist := Nat.succ_pos _
  have haddr : w.backAddr dist = j % w.cap.toNat := by
    rw [back_addr h hd]
    have hdist : w.produced.toNat - dist + w.cap.toNat * ((dist - 1) / w.cap.toNat) = j := by
      have := Nat.mod_add_div (dist - 1) w.cap.toNat
      unfold backOffset at *; omega
    rw [← hdist, Nat.add_mul_mod_self_left]
  have hwritten : w.written (w.backAddr dist) = true := by
    have hlt := Nat.mod_lt j hcap
    have hle := Nat.mod_le j w.cap.toNat
    rw [haddr]
    exact decide_eq_true (by omega)
  have hread : w.held (w.backAddr dist) = w.out[j]? := by
    rw [Window.held, if_pos hwritten, haddr, h.history j (by omega) (by omega)]
  have hlen : j < w.out.length := by rw [h.out_length]; omega
  rw [List.getElem?_eq_getElem hlen] at hread
  refine ⟨w.out[j], ?_, ?_⟩
  · rcases w.read_cases (w.backAddr dist) with ⟨b, hb, hr⟩ | ⟨hnone, _⟩
    · rw [hr]; rw [hread] at hb; cases hb; rfl
    · rw [hread] at hnone; cases hnone
  · rw [h.out_length, ← hj, List.getElem?_eq_getElem hlen]

/-! ### The copy -/

/-- After len bytes written from w on, those that a later one has not replaced stand in the window where the cursor
passed (R35, R143). -/
theorem Window.Inv.read_written {w w' : Window} {len : Nat} (h : w.Inv) (h' : w'.Inv) (hcap : w'.cap = w.cap)
    (hprod : w'.produced.toNat = w.produced.toNat + len) {k : Nat} (hk : k < len) (hkcap : len ≤ k + w.cap.toNat) :
    w'.ram.read ((w.wptr.toNat + k) % w.cap.toNat) = w'.out[w.out.length + k]? := by
  have hhist := h'.history (w.produced.toNat + k) (by omega) (by rw [hcap]; omega)
  rwa [hcap, ← Nat.mod_add_mod, ← h.wptr_eq, ← h.out_length] at hhist

/-- A byte read from dist back and written, and then len bytes copied from dist back, are len + 1 bytes copied. -/
theorem Pushed.copied_succ {dist len : Nat} {v : Byte} {w w₁ w' : Window} (h : w.Inv) (h' : w'.Inv)
    (hv : w.out[w.out.length - backOffset w dist]? = some v) (p : Pushed v w w₁)
    (hprod : w₁.produced.toNat = w.produced.toNat + 1) (c : Copied dist len w₁ w') : Copied dist (len + 1) w w' := by
  have hcap : w'.cap = w.cap := c.cap.trans p.cap
  have hproduced : w'.produced.toNat = w.produced.toNat + (len + 1) := by rw [c.produced, hprod]; omega
  have hwptr (k : Nat) : (w₁.wptr.toNat + k) % w₁.cap.toNat = (w.wptr.toNat + (k + 1)) % w.cap.toNat := by
    rw [p.wptr, p.cap, Nat.mod_add_mod, Nat.add_assoc, Nat.add_comm 1]
  have hwptr_lt : w.wptr.toNat < w.cap.toNat := h.wptr_eq ▸ Nat.mod_lt _ h.cap_pos
  have hlength : w₁.out.length = w.out.length + 1 := by rw [p.out, List.length_append]; rfl
  have hprefix : w.out ++ [v] <+: w'.out := by
    rw [← p.out, ← c.outPrefix]; exact List.take_prefix ..
  have hprefix_w : w.out <+: w'.out := (List.prefix_append ..).trans hprefix
  exact
    { cap := hcap
      wptr := by rw [c.wptr, hwptr]
      remaining := by have := c.remaining; have := p.remaining; omega
      produced := hproduced
      outLength := by rw [c.outLength, hlength]; omega
      outPrefix := (List.prefix_iff_eq_take.mp hprefix_w).symm
      copied := by
        rintro (_ | k) hk
        · have hnew : w'.out[w.out.length]? = some v := by
            simpa using List.prefix_iff_getElem?.mp hprefix w.out.length (by simp)
          have hold : w'.out[w.out.length - backOffset w dist]? = some v := by
            obtain ⟨hi, hget⟩ := List.getElem?_eq_some_iff.mp hv
            rw [List.prefix_iff_getElem?.mp hprefix_w _ hi, hget]
          exact hnew.trans hold.symm
        · have := c.copied k (by omega)
          rwa [hlength, p.cap, Nat.add_right_comm] at this
      stored := fun k hk hkcap => h.read_written h' hcap hproduced hk hkcap
      kept := by
        intro a ha
        have ha₀ : a ≠ w.wptr.toNat := by
          have := ha 0 (Nat.succ_pos len)
          rwa [Nat.add_zero, Nat.mod_eq_of_lt hwptr_lt] at this
        rw [← p.kept a ha₀]
        exact c.kept a fun k hk => by rw [hwptr]; exact ha (k + 1) (by omega)
      draws := c.draws.trans p.draws }

/-- copy_back's loop copies its bytes (R142, R143, R144). -/
theorem copied_copyLoop {dist : Nat} (h1 : 1 ≤ dist) (len : Nat) {w : Window} (h : w.Inv)
    (hd : dist ≤ w.produced.toNat) (hr : len ≤ w.remaining.toNat) : Copied dist len w (Window.copyLoop dist len w) := by
  induction len generalizing w with
  | zero =>
    have hwptr_lt : w.wptr.toNat < w.cap.toNat := h.wptr_eq ▸ Nat.mod_lt _ h.cap_pos
    exact
      { cap := rfl
        wptr := (Nat.mod_eq_of_lt hwptr_lt).symm
        remaining := rfl
        produced := rfl
        outLength := rfl
        outPrefix := List.take_length
        copied := fun k hk => absurd hk (Nat.not_lt_zero k)
        stored := fun k hk => absurd hk (Nat.not_lt_zero k)
        kept := fun _ _ => rfl
        draws := rfl }
  | succ len ih =>
    obtain ⟨v, hread, hv⟩ := h.read_backAddr h1 hd
    have hstep : Window.copyLoop dist (len + 1) w = Window.copyLoop dist len (w.write v) := by
      rw [Window.copyLoop, Window.copyByte_eq, hread]
    have hpushed := pushed_write v h.cap_pos (by omega)
    have hprod : (w.write v).produced.toNat = w.produced.toNat + 1 := by
      have := h.no_wrap
      rw [Window.write_produced]
      bv_omega
    have hinv : (w.write v).Inv := win_write v (by omega) h
    have hrem : len ≤ (w.write v).remaining.toNat := by have := hpushed.remaining; omega
    have hend : (Window.copyLoop dist len (w.write v)).Inv :=
      Window.copyLoop_keeps Window.Inv dist (fun _ hr hi => win_copyByte dist hr hi) len _ hrem hinv
    rw [hstep]
    exact hpushed.copied_succ h hend hv hprod (ih hinv (by omega) hrem)

/-- Settles O46: past its checks copy_back runs its loop, on the distance and the length that the operands spell. -/
theorem backReferenceToken : Obligations.BackReferenceToken := by
  intro s l d e hw h1 hd hfar hr
  have hdist : backrefDist d e = d.toNat * 32 + e.toNat := rfl
  have hlen : backrefLen l = if l then 4 else 3 := rfl
  have hcopy : s.win.copyBack s.cfg.farDist (backrefDist d e) (backrefLen l) =
      .done () (Window.copyLoop (backrefDist d e) (backrefLen l) s.win) := by
    rcases s.win.copyBack_cases s.cfg.farDist (backrefDist d e) (backrefLen l) with
      ⟨hfail, _⟩ | ⟨_, _, _, ⟨hfail, _⟩ | ⟨_, hdone⟩⟩
    · rcases hfail with h0 | hlt | hf
      · omega
      · omega
      · exact absurd hf hfar
    · omega
    · exact hdone
  refine ⟨{ s with win := Window.copyLoop (backrefDist d e) (backrefLen l) s.win }, ?_, rfl,
    copied_copyLoop h1 _ hw hd hr⟩
  rw [exec, execBackref, onWin, hcopy, settle]

end Sys2Proof.Machine
end

section
/-! Reading a token: a reader before given stream bits consumes them in turn, and the token that they encode is read
(R82 to R86, R113, R150, R155). -/

namespace Sys2Proof.Machine

/-! ### A reader before given bits -/

/-- The reader stands at stream bit p, and the bits from there on, all within the source, begin with the given ones. -/
structure BitReader.Ahead (src : Memory) (p : Nat) (bits : List Bool) (b : BitReader) : Prop where
  inv : b.Inv
  coherent : b.Coherent src
  cursor : b.bitpos = p
  next : ∀ i (hi : i < bits.length), streamBit src b.sesSrcLen.toNat (p + i) = bits[i]
  fits : p + bits.length ≤ 8 * b.sesSrcLen.toNat

section
variable {src : Memory} {p : Nat} {n : Nat} {bits code rest : List Bool} {b : BitReader}

theorem BitReader.Ahead.append_nil (h : b.Ahead src p bits) : b.Ahead src p (bits ++ []) := by
  rwa [List.append_nil]

theorem BitReader.Ahead.refill (h : b.Ahead src p bits) : (b.refill src).Ahead src p bits where
  inv := bits_refill h.inv
  coherent := BitReader.coherent_refill h.inv h.coherent
  cursor := (b.refill_bitpos src).trans h.cursor
  next := by rw [BitReader.refill_sesSrcLen]; exact h.next
  fits := by rw [BitReader.refill_sesSrcLen]; exact h.fits

theorem BitReader.Ahead.drop (h : b.Ahead src p (code ++ rest)) (hcode : code.length = n) (hn : n ≤ b.valid.toNat) :
    (b.drop n).Ahead src (p + n) rest where
  inv := bits_drop hn h.inv
  coherent := BitReader.coherent_drop hn h.inv h.coherent
  cursor := by rw [BitReader.drop_bitpos hn, h.cursor]; rfl
  next i hi := by
    have hnext := h.next (n + i) (by rw [List.length_append]; omega)
    rw [List.getElem_append_right (by omega)] at hnext
    simpa [hcode, Nat.add_assoc] using hnext
  fits := by
    have hfits := h.fits
    rw [List.length_append] at hfits
    rw [BitReader.drop_sesSrcLen]
    omega

/-- After a refill up to 25 of the bits ahead are valid (R110). -/
theorem BitReader.Ahead.le_valid (h : b.Ahead src p (code ++ rest)) (hcode : code.length = n) (hn : n ≤ 25) :
    n ≤ (b.refill src).valid.toNat := by
  have hended : ¬ ((b.refill src).valid.toNat ≤ 24 ∧ (b.refill src).srcPos.toNat < (b.refill src).sesSrcLen.toNat) := by
    rw [← BitReader.wants_iff, BitReader.refill_ended]
    exact Bool.false_ne_true
  have hfits := h.refill.fits
  have hcursor := h.refill.cursor
  rw [BitReader.bitpos] at hcursor
  rw [List.length_append] at hfits
  omega

/-- A refill and the discard of bits ahead stand the reader before the rest. -/
theorem BitReader.Ahead.read (h : b.Ahead src p (code ++ rest)) (hcode : code.length = n) (hn : n ≤ 25) :
    ((b.refill src).drop n).Ahead src (p + n) rest :=
  h.refill.drop hcode (h.le_valid hcode hn)

/-- The lookahead begins with the bits ahead, as far as they are valid (R111, R113). -/
theorem BitReader.Ahead.getMsbD_lookahead (h : b.Ahead src p (code ++ rest)) (hn : code.length ≤ 16) {i : Nat}
    (hi : i < code.length) : (b.refill src).lookahead.getMsbD i = code[i] := by
  have hvalid := h.le_valid rfl (by omega)
  have hcursor := h.refill.cursor
  rw [BitReader.bitpos] at hcursor
  have hbit := h.refill.coherent i (by omega)
  rw [show 8 * (b.refill src).srcPos.toNat - (b.refill src).valid.toNat = p by omega,
    h.refill.next i (by rw [List.length_append]; omega), List.getElem_append_left hi] at hbit
  rw [← hbit, BitReader.lookahead, BitVec.getMsbD, BitVec.getMsbD, BitVec.getLsbD_extractLsb']
  simp [show i < 16 by omega, show i < 32 by omega, show 15 - i < 16 by omega, show 16 + (15 - i) = 31 - i by omega]

/-- A reader before the code of a symbol decodes the symbol and consumes its code (R80, R120). -/
theorem BitReader.Ahead.decodeSymbol {t : TablePair} {alpha s : Nat} (h : b.Ahead src p (code ++ rest))
    (hc : symbolCode t alpha s = some code) :
    b.decodeSymbol (classify t alpha) src =
      .done (s, (b.refill src).lookahead) ((b.refill src).drop code.length) := by
  have hlen := length_symbolCode_le hc
  have hclass : classify t alpha (b.refill src).lookahead = some (s, code.length) :=
    symbolCodeDecodes t alpha s code hc _ fun i hi => h.getMsbD_lookahead hlen hi
  rw [BitReader.decodeSymbol_eq, hclass]
  exact if_neg (not_lt.mpr (h.le_valid rfl (by omega)))

end

/-! ### The tokens -/

/-- The distance extension is the five bits that encode it (R67, R155). -/
theorem extBits_eq {l : Half} {e : BitVec 5}
    (h : ∀ i (hi : i < (msbBits 5 e.toNat).length), l.getMsbD i = (msbBits 5 e.toNat)[i]) : extBits l = e := by
  apply BitVec.eq_of_getMsbD_eq
  intro i hi
  have hbit := h i (by rwa [length_msbBits])
  rw [getElem_msbBits, BitVec.getMsbD] at hbit
  rw [extBits, BitVec.getMsbD, BitVec.getMsbD, BitVec.getLsbD_extractLsb']
  simpa [hi, show i < 16 by omega, show 4 - i < 5 by omega, show 11 + (4 - i) = 15 - i by omega, BitVec.getLsbD]
    using hbit

/-- The rest of SWITCH is the flag bit 1 (R83, R150). -/
theorem fetchRest_switch (c : Config) {src : Memory} {p : Nat} {b : BitReader} (h : b.Ahead src p [true]) :
    ∃ b', fetchRest c src b = .done .switch b' ∧ b'.Ahead src (p + 1) [] := by
  have hone : b.Ahead src p ([true] ++ []) := h
  have hflag : flagBit (b.refill src).lookahead = true := hone.getMsbD_lookahead (by decide) (i := 0) (by decide)
  have hvalid : ¬ (b.refill src).valid.toNat < 1 := not_lt.mpr (hone.le_valid rfl (by decide))
  refine ⟨(b.refill src).drop 1, ?_, hone.read rfl (by decide)⟩
  rw [fetchRest_eq]
  simp only [if_neg hvalid, if_pos hflag]

/-- The rest of BACKREF is the flag bit 0, the length bit, the distance code and the distance extension (R83, R155). -/
theorem fetchRest_backref {c : Config} {src : Memory} {p : Nat} {b : BitReader} {l : Bool} {d : BitVec 11}
    {e : BitVec 5} {ds : List Bool} (hds : symbolCode c.distTbl c.distAlphabet d.toNat = some ds)
    (h : b.Ahead src p ([false, l] ++ (ds ++ msbBits 5 e.toNat))) :
    ∃ b', fetchRest c src b = .done (.backref l d e) b' ∧
      b'.Ahead src (p + ([false, l] ++ (ds ++ msbBits 5 e.toNat)).length) [] := by
  have hflag : flagBit (b.refill src).lookahead = false := h.getMsbD_lookahead (by simp) (i := 0) (by simp)
  have hlength : lengthBit (b.refill src).lookahead = l := h.getMsbD_lookahead (by simp) (i := 1) (by simp)
  have h₀ : b.Ahead src p ([false] ++ ([l] ++ (ds ++ msbBits 5 e.toNat))) := h
  have h₁ := h₀.read (n := 1) rfl (by decide)
  have h₂ := h₁.read (n := 1) rfl (by decide)
  have hds_le := length_symbolCode_le hds
  have h₃ := (h₂.read rfl (by omega)).append_nil
  have h₄ := h₃.read (length_msbBits 5 _) (by decide)
  have hvalid₀ := not_lt.mpr (h₀.le_valid (n := 1) rfl (by decide))
  have hvalid₁ := not_lt.mpr (h₁.le_valid (n := 1) rfl (by decide))
  have hvalid₃ := not_lt.mpr (h₃.le_valid (length_msbBits 5 _) (by decide))
  have hdist : decodeWith c .dist src _ = _ := h₂.decodeSymbol hds
  have hext := extBits_eq fun i hi => h₃.getMsbD_lookahead (by rw [length_msbBits]; decide) hi
  have hend : p + ([false, l] ++ (ds ++ msbBits 5 e.toNat)).length = p + 1 + 1 + ds.length + 5 := by
    simp only [List.length_append, length_msbBits, List.length_cons, List.length_nil]
    omega
  rw [hend]
  refine ⟨_, ?_, h₄⟩
  rw [fetchRest_eq]
  simp only [if_neg hvalid₀, hflag, Bool.false_eq_true, if_false, if_neg hvalid₁, hdist, Res.bind_done,
    Config.distExtBits, if_neg hvalid₃, hlength, hext, BitVec.ofNat_toNat, BitVec.setWidth_eq]

/-- The tokens of RL that begin with SYM(0) are told apart by the lookahead before it (R83, R150). -/
theorem fetchToken_rl_zero {c : Config} {src : Memory} {p : Nat} {b : BitReader} {z rest : List Bool}
    (hz : symbolCode c.symTbl Config.symAlphabet 0 = some z) (h : b.Ahead src p (z ++ rest)) :
    fetchToken c .rl src b =
      if c.escThreshold.toNat < (b.peek src).1.toNat then .done .esc ((b.refill src).drop z.length)
      else fetchRest c src ((b.refill src).drop z.length) := by
  have hsym : decodeWith c .sym src b = _ := h.decodeSymbol hz
  rw [fetchToken, hsym]
  rfl

/-- The token of the mode whose bits stand ahead is read (R82, R83, R86, R150, R155). -/
theorem fetchToken_of_ahead {c : Config} {src : Memory} {p : Nat} {b : BitReader} {m : Mode} {k : Token}
    {code : List Bool} (hcode : encodeToken c k = some code) (h : b.Ahead src p code) (hmode : m = .lh ↔ ∃ r, k = .litLH r)
    (hesc : k = .esc → c.escThreshold.toNat < (b.peek src).1.toNat)
    (hrest : (k = .switch ∨ ∃ l d e, k = .backref l d e) → (b.peek src).1.toNat ≤ c.escThreshold.toNat) :
    ∃ b', fetchToken c m src b = .done k b' ∧ b'.Ahead src (p + code.length) [] := by
  have hrl (hk : ¬ ∃ r, k = .litLH r) : m = .rl := by
    cases m with
    | lh => exact absurd (hmode.mp rfl) hk
    | rl => rfl
  cases k with
  | litLH r =>
    obtain rfl : m = .lh := hmode.mpr ⟨r, rfl⟩
    have hlen := length_symbolCode_le hcode
    have hsym : decodeWith c .sym src b = _ := h.append_nil.decodeSymbol hcode
    refine ⟨_, ?_, h.append_nil.read rfl (by omega)⟩
    rw [fetchToken, hsym, Res.bind_done, BitVec.ofNat_toNat, BitVec.setWidth_eq]
  | litRL r =>
    obtain rfl : m = .rl := hrl (by simp)
    rw [encodeToken] at hcode
    split at hcode
    · cases hcode
    · next hr =>
      have hlen := length_symbolCode_le hcode
      have hsym : decodeWith c .sym src b = _ := h.append_nil.decodeSymbol hcode
      have hrank : r.toNat ≠ 0 := fun h0 => hr (BitVec.eq_of_toNat_eq h0)
      refine ⟨_, ?_, h.append_nil.read rfl (by omega)⟩
      rw [fetchToken, hsym, Res.bind_done, BitVec.ofNat_toNat, BitVec.setWidth_eq]
      exact if_neg hrank
  | esc =>
    obtain rfl : m = .rl := hrl (by simp)
    have hlen := length_symbolCode_le hcode
    refine ⟨_, ?_, h.append_nil.read rfl (by omega)⟩
    rw [fetchToken_rl_zero hcode h.append_nil, if_pos (hesc rfl)]
  | switch =>
    obtain rfl : m = .rl := hrl (by simp)
    obtain ⟨z, hz, rfl⟩ := Option.map_eq_some_iff.mp hcode
    have hlen := length_symbolCode_le hz
    rw [fetchToken_rl_zero hz h, if_neg (not_lt.mpr (hrest (.inl rfl))), List.length_append, ← Nat.add_assoc]
    exact fetchRest_switch c (h.read rfl (by omega))
  | backref l d e =>
    obtain rfl : m = .rl := hrl (by simp)
    rw [encodeToken] at hcode
    split at hcode
    · next z ds hz hds =>
      have hlen := length_symbolCode_le hz
      cases hcode
      rw [List.append_assoc, List.append_assoc] at h
      rw [fetchToken_rl_zero hz h, if_neg (not_lt.mpr (hrest (.inr ⟨l, d, e, rfl⟩))), List.append_assoc,
        List.append_assoc, List.length_append, ← Nat.add_assoc]
      exact fetchRest_backref hds (h.read rfl (by omega))
    · cases hcode

/-- Settles O11: a reader that holds the stream stands ahead of the token's bits, and
after reading them ahead of none. -/
theorem tokenRoundTrip : Obligations.TokenRoundTrip := by
  intro c src b m k code hinv hcoherent hcode hnext hfits hmode hesc hrest
  have hpos := hinv.bitpos_nonneg
  have hcursor : b.bitpos = (8 * b.srcPos.toNat - b.valid.toNat : Nat) := by rw [BitReader.bitpos]; omega
  have hahead : b.Ahead src (8 * b.srcPos.toNat - b.valid.toNat) code :=
    ⟨hinv, hcoherent, hcursor, hnext, by omega⟩
  obtain ⟨b', hfetch, hend⟩ := fetchToken_of_ahead hcode hahead hmode hesc hrest
  exact ⟨b', hfetch, by rw [hend.cursor, hcursor]; rfl, hend.inv, hend.coherent⟩

end Sys2Proof.Machine
end

section
/-! BitReader: what a refill leaves, the lookahead as the next bits of the stream, the commands PEEK and CONSUME, and the
stream law over a step (R110 to R113). -/

namespace Sys2Proof.Machine

/-! ### The stream law over a step (R113, R235) -/

/-- In a session the valid bits of the accumulator are the next bits of the source. -/
def State.OnStream (s : State) : Prop := s.ctl.active = true → s.bits.Coherent s.src

/-- The stream law reads no source byte past the end of the session's source. -/
theorem BitReader.Coherent.congr_src {src src' : Memory} {b : BitReader} (h : b.Coherent src)
    (hsrc : ∀ p, p < b.sesSrcLen.toNat → src'.read p = src.read p) : b.Coherent src' := by
  intro i hi
  rw [h i hi, streamBit, streamBit]
  split
  · next hp => rw [srcRead, srcRead, hsrc _ hp]
  · rfl

theorem BitReader.Change.keeps_coherent {src : Memory} {b c : BitReader} (h : b.Change src c) (hi : b.Inv)
    (hs : b.Coherent src) : c.Coherent src := by
  cases h with
  | refill => exact BitReader.coherent_refill hi hs
  | drop n hn => exact BitReader.coherent_drop hn hi hs

theorem Change.keeps_onStream {s t : State} (h : Change s t) (hi : s.bits.Inv) (hs : s.OnStream) : t.OnStream := by
  cases h with
  | bits h => exact fun ha => h.keeps_coherent hi (hs ha)
  | ctl h => exact fun ha => hs (h.keeps_active ▸ ha)
  | latch e => rw [latch_eq]; exact hs
  | tab | win | dec => exact hs

theorem Changes.keeps_onStream {s t : State} (h : Changes s t) (hi : s.Inv) (hs : s.OnStream) : t.OnStream := by
  induction h with
  | refl => exact hs
  | tail hu hc ih => exact hc.keeps_onStream (Changes.keeps_inv hu hi).bits ih

/-- A session begins with no valid bits, so before the stream of whatever source stands there. -/
theorem onStream_beginSession (s : State) : (beginSession s).OnStream := fun _ i hi => absurd hi (Nat.not_lt_zero i)

/-- A START is dropped, begins a session, or leaves none (R181). -/
theorem onStream_start {s t : State} (h : exec .start s = .next t) (hs : s.ctl.busy = true → s.OnStream) :
    t.OnStream := by
  rcases exec_start_cases h with ⟨hb, rfl⟩ | ⟨_, _, rfl⟩ | ⟨_, _, rfl⟩
  · exact hs hb
  · exact onStream_beginSession s
  · exact nofun

/-- While a RUN is in progress no source is taken over. -/
theorem takeSource_busy {s : State} (bytes : List Byte) (hb : (takeSource bytes s).ctl.busy = true) :
    takeSource bytes s = s := by
  rw [takeSource_eq] at hb
  exact takeSource_of_not fun h => Bool.noConfusion (h.1.symm.trans hb)

/-- A byte placed past the session's source, or where it already stands, leaves the stream as it was. -/
theorem onStream_place {s : State} {p : Word} {v : Byte}
    (h : s.ctl.active = true → p.toNat < s.bits.sesSrcLen.toNat → s.src.read p.toNat = some v) (hs : s.OnStream) :
    State.OnStream { s with src := s.src.write p.toNat v } := by
  refine fun ha => (hs ha).congr_src fun q hq => ?_
  change (s.src.write p.toNat v).read q = s.src.read q
  rw [Memory.read_write]
  split
  · next hqp => rw [hqp, h ha (hqp ▸ hq)]
  · rfl

/-- Settles O29: of the ways in which a step can go, the small changes keep the stream law one by one, a START or a reset
leaves an empty reader or no session, and the source held for a session keeps its bytes. -/
theorem stepKeepsTheStream : Obligations.StepKeepsTheStream := by
  intro s t hi hs hstep
  have hadv : s.advanced.OnStream := hs
  change t.OnStream
  cases step_cases hstep with
  | changes h => exact h.keeps_onStream (inv_advanced hi) hadv
  | start _ _ h => exact onStream_start h fun _ => hadv
  | handOver _ h => exact onStream_start h fun hb => by rw [takeSource_busy _ hb]; exact hadv
  | reset _ => exact nofun
  | place p v h => exact onStream_place h hadv
  | writeReg o v => rw [State.OnStream, writeReg_ctl, writeReg_bits, writeReg_src]; exact hadv
  | readReg v => exact hadv

/-! ### What a refill leaves (R110, R114) -/

/-- A refill ends with more than 24 bits valid, or at the end of the source. -/
theorem BitReader.Inv.refill_full_or_empty {b : BitReader} (h : b.Inv) (src : Memory) :
    24 < (b.refill src).valid.toNat ∨ (b.refill src).srcPos = b.sesSrcLen := by
  have hended : ¬ ((b.refill src).valid.toNat ≤ 24 ∧ (b.refill src).srcPos.toNat < (b.refill src).sesSrcLen.toNat) := by
    rw [← BitReader.wants_iff, BitReader.refill_ended]
    exact Bool.false_ne_true
  have hpos := (bits_refill (src := src) h).srcPos_le
  rw [BitReader.refill_sesSrcLen] at hended hpos
  rw [← BitVec.toNat_inj]
  omega

/-- As BITPOS is kept and VALID stays at most 32, a refill reads at most 4 bytes. -/
theorem BitReader.Inv.refill_srcPos_le {b : BitReader} (h : b.Inv) (src : Memory) :
    (b.refill src).srcPos.toNat ≤ b.srcPos.toNat + 4 := by
  have hvalid := (bits_refill (src := src) h).valid_le
  have hbitpos := b.refill_bitpos src
  rw [Config.accBits] at hvalid
  rw [BitReader.bitpos, BitReader.bitpos] at hbitpos
  omega

/-- Settles O24: the loop's end condition, and BITPOS and the invariant kept by every fold. -/
theorem refillEndsAndKeepsTheCursor : Obligations.RefillEndsAndKeepsTheCursor := fun src b h =>
  ⟨h.refill_full_or_empty src, b.le_refill_srcPos src, h.refill_srcPos_le src, b.refill_bitpos src,
    b.refill_sesSrcLen src, bits_refill h⟩

/-! ### The lookahead (R111, R113) -/

/-- The lookahead is the top 16 bits of the accumulator. -/
theorem BitReader.getMsbD_lookahead_eq (b : BitReader) {i : Nat} (hi : i < 16) :
    b.lookahead.getMsbD i = b.acc.getMsbD i := by
  rw [BitReader.lookahead, BitVec.getMsbD, BitVec.getMsbD, BitVec.getLsbD_extractLsb']
  simp [hi, show i < 32 by omega, show 15 - i < 16 by omega, show 16 + (15 - i) = 31 - i by omega]

/-- Past the end of the source the stream is 0 (R113). -/
theorem streamBit_past_end (src : Memory) {len j : Nat} (h : 8 * len ≤ j) : streamBit src len j = false :=
  if_neg (by omega)

/-- Settles O26: a lookahead bit that is valid after the refill is the stream's, and any other is 0 (R26), as is the
stream there, because fewer than 16 bits are valid only at the end of the source. -/
theorem peekShowsTheNextStreamBits : Obligations.PeekShowsTheNextStreamBits := by
  intro src b h hc i hi
  have hrefill := bits_refill (src := src) h
  have hbitpos := b.refill_bitpos src
  have hpos := h.bitpos_nonneg
  have hpos' := hrefill.bitpos_nonneg
  rw [BitReader.bitpos, BitReader.bitpos] at hbitpos
  rw [BitReader.peek_fst, BitReader.getMsbD_lookahead_eq _ hi,
    show 8 * b.srcPos.toNat - b.valid.toNat = 8 * (b.refill src).srcPos.toNat - (b.refill src).valid.toNat by omega]
  rcases lt_or_ge i (b.refill src).valid.toNat with hvalid | hvalid
  · rw [BitReader.coherent_refill h hc i hvalid, BitReader.refill_sesSrcLen]
  · have hempty : (b.refill src).srcPos = b.sesSrcLen := (h.refill_full_or_empty src).resolve_left (by omega)
    rw [hrefill.getMsbD_acc hvalid, streamBit_past_end]
    rw [hempty] at hpos' ⊢
    omega

/-! ### PEEK (R111) -/

/-- The state after an accepted PEEK: the reader refilled, and the lookahead in RESULT. -/
def State.peeked (s : State) : State :=
  setResult ((s.bits.refill s.src).lookahead.setWidth 32) { s with bits := s.bits.refill s.src }

theorem exec_peek_ready {s : State} (h : s.Ready) : exec .peek s = .next s.peeked := mutating_ready h

/-- A second PEEK has nothing to refill, and delivers the same lookahead. -/
theorem State.peeked_peeked (s : State) : s.peeked.peeked = s.peeked := by
  have hbits : s.peeked.bits = s.bits.refill s.src := rfl
  have hsrc : s.peeked.src = s.src := rfl
  rw [State.peeked, hbits, hsrc, BitReader.refill_refill]
  rfl

/-- Bit 15 − i of the word that PEEK delivers is bit i of the refilled accumulator, from the top. -/
theorem State.peeked_result_getLsbD (s : State) {i : Nat} (hi : i < 16) :
    s.peeked.ctl.result.getLsbD (15 - i) = (s.bits.refill s.src).acc.getMsbD i := by
  rw [State.peeked, setResult_ctl, BitVec.getLsbD_setWidth, ← BitReader.getMsbD_lookahead_eq _ hi, BitVec.getMsbD]
  simp [hi, show 15 - i < 32 by omega]

/-- Settles O25: an accepted PEEK leaves the state `peeked`, where a further one has nothing to do. -/
theorem peekCommand : Obligations.PeekCommand := by
  refine ⟨rfl, fun s h => ⟨s.peeked, exec_peek_ready h, rfl, ?_, fun hinv i hvalid hi => ?_⟩⟩
  · have hready : s.peeked.Ready := h
    rw [exec_peek_ready hready, State.peeked_peeked]
  · rw [State.peeked_result_getLsbD s hi]
    exact (bits_refill hinv).getMsbD_acc hvalid

/-! ### CONSUME (R112) -/

theorem exec_consume_ready {s : State} {n : BitVec 5} (h : s.Ready) (hn : n.toNat ≤ 16) :
    exec (.consume n) s = .next (settle (onBits (fun b => b.consume s.src n.toNat) s)) := by
  obtain ⟨hidle, hactive, hclear⟩ := h
  rw [exec, execConsume, whenIdle_idle hidle, whenLegal_ok (decide_eq_true hn), whenActive_active hactive,
    whenClear_clear hclear]

/-- Settles O27: the two ends of consume, and the illegal operands; with the source not empty more than 24 bits are valid,
so that a legal consume does not raise. -/
theorem consumeCommand : Obligations.ConsumeCommand := by
  refine fun s n => ⟨rfl, fun h => ⟨fun hn hle => ?_, fun hn hlt => ?_, fun hinv hn hlt => ?_,
    fun hn => exec_consume_illegal h.1 hn⟩⟩
  · obtain ⟨_, hdone⟩ := (s.bits.consume_cases s.src n.toNat).resolve_right fun hraise => not_le.mpr hraise.1 hle
    have hbits := onBits_eq_done.mpr ⟨_, hdone, rfl⟩
    rw [exec_consume_ready h hn, hbits]
    rfl
  · obtain ⟨_, hraise⟩ := (s.bits.consume_cases s.src n.toNat).resolve_left fun hdone => not_le.mpr hlt hdone.1
    have hbits := onBits_eq_raise.mpr ⟨_, hraise, rfl⟩
    have hclear : (State.err { s with bits := s.bits.refill s.src }).kind = .none := h.2.2
    rw [exec_consume_ready h hn, hbits, settle, latch_of_none _ hclear]
    rfl
  · exact (hinv.refill_full_or_empty s.src).resolve_left (by omega)

end Sys2Proof.Machine
end

section
/-! DECODE: the two ends of an accepted command, and the three ends of decode_symbol that lead to them (R120, R121,
R203). -/

namespace Sys2Proof.Machine

/-- DECODE delivers the symbol where decode_symbol ends with one (R121). -/
theorem exec_decode_done {s : State} {t : TableSel} {v : Nat} {l : Half} {b : BitReader} (h : s.Ready)
    (hdone : decodeWith s.cfg t s.src s.bits = .done (v, l) b) :
    exec (.decode t) s = .next (setResult (BitVec.ofNat 32 v) { s with bits := b }) := by
  have hbits := onBits_eq_done.mpr ⟨b, hdone, rfl⟩
  rw [exec, execDecode, mutating_ready h, hbits]
  rfl

/-- DECODE latches the error that decode_symbol raises, with the offsets of the reader as it was left (R121, R201). -/
theorem exec_decode_raise {s : State} {t : TableSel} {e : ErrKind} {b : BitReader} (h : s.Ready)
    (hraise : decodeWith s.cfg t s.src s.bits = .raise e b) :
    exec (.decode t) s = .next { s with bits := b, err := .now e b s.win } := by
  have hbits := onBits_eq_raise.mpr ⟨b, hraise, rfl⟩
  have hclear : (State.err { s with bits := b }).kind = .none := h.2.2
  rw [exec, execDecode, mutating_ready h, hbits, Res.bind, deliver, latch_of_none _ hclear]
  rfl

/-- Settles O30: decode_symbol under the selected table consumes the code, raises at the consume, or raises at the table
checks before it. -/
theorem decodeCommand : Obligations.DecodeCommand := by
  intro s t h
  have hdecode := BitReader.decodeSymbol_eq (classify (s.cfg.table t).1 (s.cfg.table t).2) s.src s.bits
  refine ⟨fun v k hclass => ?_, fun hclass => ?_⟩ <;> rw [BitReader.lookahead, hclass] at hdecode
  · exact ⟨fun hle => exec_decode_done h (hdecode.trans (if_neg (not_lt.mpr hle))),
      fun hlt => exec_decode_raise h (hdecode.trans (if_pos hlt))⟩
  · exact exec_decode_raise h hdecode

end Sys2Proof.Machine
end

section
/-! AdaptiveSymbolTable: what promote leaves (R131), the permutation law (R133), and the commands LOOKUP, RDPC, CORRECT and
PROMOTE (R130 to R135). -/

namespace Sys2Proof.Machine

open Function (Injective Surjective)

/-! ### promote(r) (R131) -/

/-- The counter of the literal at a rank, counted once more: within the quota the sum fits into the counter's 8 bits. -/
theorem SymTable.ofNat_count (t : SymTable) (r : Byte) :
    BitVec.ofNat 8 (t.count r) = entry t.pc (t.lookup r) + 1 := by
  rw [SymTable.count, BitVec.ofNat_add, BitVec.ofNat_toNat, BitVec.setWidth_eq]
  rfl

/-- Within the quota promote stores the counter and exchanges, in both modes. -/
theorem SymTable.promote_within (c : Config) {t : SymTable} {r : Byte} (h : t.count r ≤ 0xA1) :
    t.promote c r = .done () (t.exchange r (entry t.pc (t.lookup r) + 1)) := by
  have hquota : ¬ Config.quota < t.count r := not_lt.mpr h
  rw [← SymTable.ofNat_count, SymTable.promote]
  cases c.promoteMode with
  | spec => simp only [SymTable.promoteSpec, if_neg hquota]
  | refloop => cases c.corrCap <;> simp only [SymTable.promoteLoop, if_neg hquota]

/-- Above the quota SPEC corrects. -/
theorem SymTable.promote_above_spec {c : Config} {t : SymTable} {r : Byte} (h : 0xA1 < t.count r)
    (hm : c.promoteMode = .spec) : t.promote c r = .done () SymTable.identity := by
  have hquota : Config.quota < t.count r := h
  simp only [SymTable.promote, hm, SymTable.promoteSpec, if_pos hquota, SymTable.correct]

/-- Above the quota REFLOOP corrects, and then counts 1 within the quota. -/
theorem SymTable.promote_above_refloop {c : Config} (hc : c.ok) {t : SymTable} {r : Byte} (h : 0xA1 < t.count r)
    (hm : c.promoteMode = .refloop) : t.promote c r = .done () (SymTable.identity.exchange r 1) := by
  have hcap : c.corrCap = 1 := hc.2.2.2
  have hquota : Config.quota < t.count r := h
  have hone : ¬ Config.quota < 1 := by decide
  simp only [SymTable.promote, hm, hcap, SymTable.promoteLoop, if_pos hquota, SymTable.count_correct, if_neg hone]
  rfl

theorem corrected_identity : Corrected SymTable.identity := ⟨SymTable.identity_lookup, SymTable.identity_pc⟩

theorem promoted_within (c : Config) {t : SymTable} {r : Byte} (h : t.count r ≤ 0xA1) :
    Promoted c r t (t.exchange r (entry t.pc (t.lookup r) + 1)) where
  within _ := by
    refine ⟨fun j => ?_, fun b => ?_⟩
    · simp only [SymTable.lookup_exchange, eq_comm]
    · rw [SymTable.pc_exchange]
      by_cases hb : b = t.lookup r
      · rw [if_pos hb.symm, if_pos hb, hb]
      · rw [if_neg (Ne.symm hb), if_neg hb]
  above_spec hgt := absurd h (not_le.mpr hgt)
  above_refloop hgt := absurd h (not_le.mpr hgt)

theorem promoted_above_spec {c : Config} {t : SymTable} {r : Byte} (h : 0xA1 < t.count r)
    (hm : c.promoteMode = .spec) : Promoted c r t SymTable.identity where
  within hle := absurd h (not_lt.mpr hle)
  above_spec _ _ := corrected_identity
  above_refloop _ hloop := PromoteMode.noConfusion (hm.symm.trans hloop)

theorem promoted_above_refloop {c : Config} {t : SymTable} {r : Byte} (h : 0xA1 < t.count r)
    (hm : c.promoteMode = .refloop) : Promoted c r t (SymTable.identity.exchange r 1) where
  within hle := absurd h (not_lt.mpr hle)
  above_spec _ hspec := PromoteMode.noConfusion (hm.symm.trans hspec)
  above_refloop _ _ := by
    refine ⟨fun j => ?_, fun b => ?_⟩
    · simp only [SymTable.lookup_exchange, SymTable.identity_lookup, eq_comm]
    · simp only [SymTable.pc_exchange, SymTable.identity_lookup, SymTable.identity_pc, eq_comm]

/-- promote raises nothing, and leaves the table that R131 describes. -/
theorem SymTable.promote_promoted {c : Config} (hc : c.ok) (r : Byte) (t : SymTable) :
    ∃ t', t.promote c r = .done () t' ∧ Promoted c r t t' := by
  rcases le_or_gt (t.count r) 0xA1 with hle | hgt
  · exact ⟨_, SymTable.promote_within c hle, promoted_within c hle⟩
  · cases hm : c.promoteMode with
    | spec => exact ⟨_, SymTable.promote_above_spec hgt hm, promoted_above_spec hgt hm⟩
    | refloop => exact ⟨_, SymTable.promote_above_refloop hc hgt hm, promoted_above_refloop hgt hm⟩

/-! ### The permutation law (R133) -/

/-- An exchange permutes the ranks by a swap before the lookup. -/
theorem SymTable.lookup_exchange_eq_comp_swap (t : SymTable) (r c : Byte) :
    (t.exchange r c).lookup = t.lookup ∘ Equiv.swap r c := by
  funext j
  rw [SymTable.lookup_exchange, Function.comp_apply, Equiv.swap_apply_def, apply_ite t.lookup, apply_ite t.lookup]
  simp only [eq_comm]

theorem SymTable.identity_injective : Injective SymTable.identity.lookup := fun r r' h => by simpa using h

theorem SymTable.Change.keeps_injective {t u : SymTable} (h : t.Change u) (ht : Injective t.lookup) :
    Injective u.lookup := by
  cases h with
  | correct => exact SymTable.identity_injective
  | exchange r hr =>
    rw [SymTable.lookup_exchange_eq_comp_swap]
    exact ht.comp (Equiv.injective _)

/-- The small changes of the other components leave the table alone. -/
theorem Change.keeps_injective {s t : State} (h : Change s t) (hs : Injective s.tab.lookup) :
    Injective t.tab.lookup := by
  cases h with
  | tab h => exact h.keeps_injective hs
  | latch e => rwa [latch_tab]
  | bits | win | dec | ctl => exact hs

theorem Changes.keeps_injective {s t : State} (h : Changes s t) (hs : Injective s.tab.lookup) :
    Injective t.tab.lookup := by
  induction h with
  | refl => exact hs
  | tail _ hc ih => exact hc.keeps_injective ih

/-- A START that begins a session restores the identity; any other leaves the table alone. -/
theorem injective_start {s t : State} (h : exec .start s = .next t) (hs : Injective s.tab.lookup) :
    Injective t.tab.lookup := by
  rcases exec_start_cases h with ⟨_, rfl⟩ | ⟨_, _, rfl⟩ | ⟨_, _, rfl⟩
  · exact hs
  · exact SymTable.identity_injective
  · exact hs

/-- Settles O36: every small change of the table is a correction or a swap of two ranks, and on 256 bytes a one-to-one
table is onto. -/
theorem tableStaysAPermutation : Obligations.TableStaysAPermutation := by
  intro i s t hs h
  have hinj : Injective t.tab.lookup := by
    by_cases hi : i = .start
    · subst hi; exact injective_start h hs
    · exact (changing_exec hi s t h).keeps_injective hs
  have hsurj : Surjective t.tab.lookup := Finite.surjective_of_injective hinj
  exact ⟨hinj, hsurj⟩

/-! ### The commands (R130 to R135) -/

/-- Settles O32: the accepted command delivers the entry that lookup reads. -/
theorem lookupCommand : Obligations.LookupCommand := fun _ _ => ⟨rfl, inspecting_active⟩

/-- Settles O33: the accepted command delivers the literal's placement counter. -/
theorem rdpcCommand : Obligations.RdpcCommand := fun _ _ => ⟨rfl, inspecting_active⟩

theorem exec_correct_ready {s : State} (h : s.Ready) : exec .correct s = .next { s with tab := SymTable.identity } :=
  mutating_ready h

/-- Settles O35: an accepted CORRECT leaves the identity table, whatever stood before, and the next one is accepted too. -/
theorem correctCommand : Obligations.CorrectCommand := by
  refine ⟨rfl, fun s h => ⟨_, exec_correct_ready h, rfl, corrected_identity, ?_⟩⟩
  have hready : State.Ready { s with tab := SymTable.identity } := h
  exact exec_correct_ready hready

/-- Settles O34: an accepted PROMOTE is promote on the table, which raises nothing. -/
theorem promoteCommand : Obligations.PromoteCommand := by
  refine fun s r => ⟨rfl, fun h hc => ?_⟩
  obtain ⟨t', hdone, hpromoted⟩ := SymTable.promote_promoted hc r s.tab
  have htab := onTab_eq_done.mpr ⟨t', hdone, rfl⟩
  refine ⟨{ s with tab := t' }, ?_, rfl, hpromoted⟩
  rw [exec, execPromote, mutating_ready h, htab]
  rfl

end Sys2Proof.Machine
end

section
/-! OutputWindow: how push_literal and copy_back end, and the commands PUSH, COPY and RDWIN and the tokens
that run them (R141, R142, R145, R155, R156, R203). -/

namespace Sys2Proof.Machine

/-! ### A window operation settled (R201) -/

theorem settle_onWin_done {f : Window → Res Window Unit} {s : State} {w : Window} (h : f s.win = .done () w) :
    settle (onWin f s) = { s with win := w } := by
  rw [onWin_eq_done.mpr ⟨w, h, rfl⟩, settle]

/-- A window operation that raises before it writes leaves the record alone. -/
theorem settle_onWin_raise {f : Window → Res Window Unit} {s : State} {e : ErrKind} (hclear : s.err.kind = .none)
    (h : f s.win = .raise e s.win) : settle (onWin f s) = { s with err := .now e s.bits s.win } := by
  rw [onWin_eq_raise.mpr ⟨s.win, h, rfl⟩, settle]
  exact latch_of_none e hclear

/-! ### The ends of push_literal and copy_back (R141, R142, R203) -/

theorem Window.push_done {b : Byte} {w : Window} (h : w.remaining ≠ 0) : w.push b = .done () (w.write b) := if_neg h

theorem Window.push_overrun {b : Byte} {w : Window} (h : w.remaining = 0) : w.push b = .raise .outputOverrun w :=
  if_pos h

section
variable {far : FarDist} {dist len : Nat} {w : Window}

theorem Window.copyBack_invalid (h : dist = 0 ∨ w.produced.toNat < dist ∨ (far = .fault ∧ w.cap.toNat < dist)) :
    w.copyBack far dist len = .raise .invalidBackReference w := by
  rcases w.copyBack_cases far dist len with ⟨_, hraise⟩ | ⟨h1, hd, hfar, _⟩
  · exact hraise
  · rcases h with h0 | hlt | hfail
    · omega
    · omega
    · exact absurd hfail hfar

/-- Past the checks of the distance, the length alone decides how copy_back ends. -/
theorem Window.copyBack_valid (h1 : 1 ≤ dist) (hd : dist ≤ w.produced.toNat)
    (hfar : ¬ (far = .fault ∧ w.cap.toNat < dist)) :
    (w.remaining.toNat < len ∧ w.copyBack far dist len = .raise .outputOverrun w) ∨
      (len ≤ w.remaining.toNat ∧ w.copyBack far dist len = .done () (Window.copyLoop dist len w)) := by
  rcases w.copyBack_cases far dist len with ⟨h0 | hlt | hfail, _⟩ | ⟨_, _, _, hends⟩
  · omega
  · omega
  · exact absurd hfail hfar
  · exact hends

theorem Window.copyBack_overrun (h1 : 1 ≤ dist) (hd : dist ≤ w.produced.toNat)
    (hfar : ¬ (far = .fault ∧ w.cap.toNat < dist)) (hr : w.remaining.toNat < len) :
    w.copyBack far dist len = .raise .outputOverrun w :=
  ((Window.copyBack_valid h1 hd hfar).resolve_right fun hdone => not_le.mpr hr hdone.1).2

theorem Window.copyBack_done (h1 : 1 ≤ dist) (hd : dist ≤ w.produced.toNat)
    (hfar : ¬ (far = .fault ∧ w.cap.toNat < dist)) (hr : len ≤ w.remaining.toNat) :
    w.copyBack far dist len = .done () (Window.copyLoop dist len w) :=
  ((Window.copyBack_valid h1 hd hfar).resolve_left fun hraise => not_lt.mpr hr hraise.1).2

end

/-! ### COPY (R142 to R144) -/

theorem exec_copy_ready {s : State} {d : BitVec 16} {len : Byte} (h : s.Ready) :
    exec (.copy d len) s = .next (settle (onWin (fun w => w.copyBack s.cfg.farDist d.toNat len.toNat) s)) :=
  mutating_ready h

/-- Settles O38: past its checks an accepted COPY runs copy_back's loop. -/
theorem copyCommandCopies : Obligations.CopyCommandCopies := by
  intro s d len h hw h1 hd hfar hr
  refine ⟨{ s with win := Window.copyLoop d.toNat len.toNat s.win }, ?_, rfl, copied_copyLoop h1 _ hw hd hr⟩
  rw [exec_copy_ready h, settle_onWin_done (Window.copyBack_done h1 hd hfar hr)]

/-- Settles O39: copy_back raises at its first failing check, with the window as it was. -/
theorem copyCommandChecks : Obligations.CopyCommandChecks := by
  intro s d len h
  have invalid (hfail : d.toNat = 0 ∨ s.win.produced.toNat < d.toNat ∨
      (s.cfg.farDist = .fault ∧ s.win.cap.toNat < d.toNat)) :
      exec (.copy d len) s = .next { s with err := .now .invalidBackReference s.bits s.win } := by
    rw [exec_copy_ready h, settle_onWin_raise h.2.2 (Window.copyBack_invalid hfail)]
  refine ⟨fun hfail => ?_, fun _ _ hfault hcap => ?_, fun h1 hd hfar hr => ?_⟩
  · exact invalid (hfail.imp_right .inl)
  · exact invalid (.inr (.inr ⟨hfault, hcap⟩))
  · rw [exec_copy_ready h, settle_onWin_raise h.2.2 (Window.copyBack_overrun h1 hd hfar hr)]

/-! ### PUSH (R141) -/

theorem exec_push_ready {s : State} {b : Byte} (h : s.Ready) :
    exec (.push b) s = .next (settle (onWin (fun w => w.push b) s)) :=
  mutating_ready h

/-- With no byte owed a STEP reads no token (R150). -/
theorem exec_step_finished {s : State} (h : s.Ready) (hr : s.win.remaining = 0) : exec .step s = .next s :=
  (mutating_ready h).trans (tokenStep_of_finished hr)

/-- Settles O37: an accepted PUSH is push_literal, which writes one byte or raises; the capacity keeps WPTR in range. -/
theorem pushCommand : Obligations.PushCommand := by
  refine fun s b => ⟨rfl, fun h hcap => ⟨fun hr => ?_, fun hr => ?_, exec_step_finished h⟩⟩
  · have howed : 1 ≤ s.win.remaining.toNat := Nat.one_le_iff_ne_zero.mpr (BitVec.toNat_ne.mp hr)
    refine ⟨{ s with win := s.win.write b }, ?_, rfl, pushed_write b hcap howed⟩
    rw [exec_push_ready h, settle_onWin_done (Window.push_done hr)]
  · rw [exec_push_ready h, settle_onWin_raise h.2.2 (Window.push_overrun hr)]

/-! ### RDWIN (R145) -/

/-- An accepted RDWIN of an address below C delivers the byte that a window read returns. -/
theorem exec_rdwin_legal {s : State} {a : BitVec 24} (h : s.Active) (ha : a.toNat < s.win.cap.toNat) :
    exec (.rdwin a) s =
      .next (setResult ((s.win.read a.toNat).1.setWidth 32) { s with win := (s.win.read a.toNat).2 }) := by
  obtain ⟨hidle, hactive⟩ := h
  rw [exec, execRdwin, whenIdle_idle hidle, whenLegal_ok (decide_eq_true ha), whenActive_active hactive]
  rfl

theorem Window.read_written {w : Window} {a : Nat} {b : Byte} (hc : a < w.cap.toNat) (hp : a < w.produced.toNat)
    (hb : w.ram.read a = some b) : w.read a = (b, w) := by
  have hwritten : w.written a = true := decide_eq_true (lt_min hp hc)
  have hheld : w.held a = some b := by rw [Window.held, if_pos hwritten, hb]
  rw [Window.read, hheld]

theorem Window.read_unwritten {w : Window} {a : Nat} (hp : w.produced.toNat ≤ a) :
    w.read a = (Config.freeByte w.draws, { w with draws := w.draws + 1 }) := by
  have hwritten : ¬ w.written a = true := by
    rw [Window.written, decide_eq_true_iff]
    omega
  have hheld : w.held a = none := if_neg hwritten
  rw [Window.read, hheld]

/-- Settles O40: the two kinds of window read below C, and the refusal at C and above. -/
theorem rdwinCommand : Obligations.RdwinCommand := by
  refine fun s a => ⟨rfl, fun h => ⟨fun b hc hp hb => ?_, fun hc hp => ?_, exec_rdwin_illegal h.1⟩⟩
  · rw [exec_rdwin_legal h hc, Window.read_written hc hp hb]
    rfl
  · refine ⟨Config.freeByte s.win.draws, ?_⟩
    rw [exec_rdwin_legal h hc, Window.read_unwritten hp]
    rfl

/-! ### The tokens' errors (R155, R156, R203) -/

/-- The literal path's push comes first, so with no byte owed the path changes nothing (R156). -/
theorem settle_literal_overrun {s : State} (hclear : s.err.kind = .none) (hr : s.win.remaining = 0) (q : Byte)
    (counting : Bool) : settle (literal q counting s) = { s with err := .now .outputOverrun s.bits s.win } := by
  have hpush : s.win.push (s.tab.lookup q) = .raise .outputOverrun s.win := Window.push_overrun hr
  rw [literal, onWin_eq_raise.mpr ⟨s.win, hpush, rfl⟩, Res.bind_raise, settle]
  exact latch_of_none _ hclear

/-- Settles O47: a literal fails at its push, a back-reference at copy_back's checks, each before the first write. -/
theorem tokenErrors : Obligations.TokenErrors := by
  intro s r l d e hclear
  have hdist : backrefDist d e = d.toNat * 32 + e.toNat := rfl
  have hlen : backrefLen l = if l then 4 else 3 := rfl
  refine ⟨fun hr => ⟨?_, ?_⟩, fun hfail => ?_, fun h1 hd hfar hr => ?_⟩
  · rw [exec, execLitLH, settle_literal_overrun hclear hr]
  · rw [exec, execLitRL, settle_literal_overrun hclear hr]
  · rw [exec, execBackref, hdist, settle_onWin_raise hclear (Window.copyBack_invalid hfail)]
  · rw [exec, execBackref, hdist, hlen, settle_onWin_raise hclear (Window.copyBack_overrun h1 hd hfar hr)]

end Sys2Proof.Machine
end

section
/-! The tokens' effects on the block: the decoder's registers after a literal (R157 to R159), the literal path (R156),
ESC and SWITCH, and when MODE changes (R160). -/

namespace Sys2Proof.Machine

/-! ### The decoder's registers (R154, R157 to R159) -/

/-- Settles O45: the token's meaning is the two register writes. -/
theorem switchToken : Obligations.SwitchToken := fun _ => rfl

theorem toNat_halved (x : Byte) : (x >>> 1).toNat = x.toNat / 2 := by
  rw [BitVec.toNat_ushiftRight, Nat.shiftRight_eq_div_pow]

/-- Settles O48: the two cases of the counters' update exclude each other, and halving is a shift by one bit. -/
theorem saturatingCounters : Obligations.SaturatingCounters := by
  intro d step
  rcases d.countersUpdate_cases step with ⟨hge, hreload⟩ | ⟨hlt, hadd⟩
  · refine ⟨fun _ => ?_, fun hlt => absurd hge (not_le.mpr hlt)⟩
    rw [hreload, ← toNat_halved, BitVec.ofNat_toNat, BitVec.setWidth_eq]
  · exact ⟨fun hge => absurd hge (not_le.mpr hlt), fun _ => hadd⟩

/-- The estimator on numbers: with AVR at most 0xFF00 the sum with a rank does not wrap (R39, R157). -/
theorem toNat_ewma {avr : Half} (q : Byte) (h : avr.toNat ≤ 0xFF00) :
    (ewma avr q).toNat = avr.toNat + q.toNat - (avr.toNat + q.toNat) / 256 := by
  have hsum : (avr + q.setWidth 16).toNat = avr.toNat + q.toNat := by
    rw [BitVec.toNat_add, BitVec.toNat_setWidth]
    omega
  have hshift : ((avr + q.setWidth 16) >>> 8).toNat = (avr.toNat + q.toNat) / 256 := by
    rw [BitVec.toNat_ushiftRight, hsum, Nat.shiftRight_eq_div_pow]
  have hle : (avr + q.setWidth 16) >>> 8 ≤ avr + q.setWidth 16 := by
    rw [BitVec.le_def, hshift, hsum]
    omega
  rw [ewma, Config.ewmaShift, BitVec.toNat_sub_of_le hle, hshift, hsum]

/-- The decoder after the estimator and the counters have taken a literal of rank q (R157, R158). -/
def Decoder.estimate (step q : Byte) (d : Decoder) : Decoder := (d.ewmaUpdate q).countersUpdate step

/-- The estimator's own update leaves the mode and the two counts alone. -/
theorem Decoder.estimate_keeps (step q : Byte) (d : Decoder) :
    (d.estimate step q).mode = d.mode ∧ (d.estimate step q).numHuf = d.numHuf ∧
      (d.estimate step q).flagCnt = d.flagCnt := by
  obtain ⟨a, h, l, heq⟩ := estimate_eq_withEstimator step q d
  rw [Decoder.estimate, heq]
  exact ⟨rfl, rfl, rfl⟩

theorem estimated_estimate (c : Config) (q : Byte) {d : Decoder} (h : d.avr.toNat ≤ 0xFF00) :
    Estimated c q d (d.estimate c.nhfbStep q) := by
  rcases (d.ewmaUpdate q).countersUpdate_cases c.nhfbStep with ⟨hge, heq⟩ | ⟨hlt, heq⟩ <;>
    rw [Decoder.estimate, heq]
  · exact
      { avr := toNat_ewma q h
        reload := fun _ => ⟨rfl, toNat_halved _⟩
        add := fun hlt => absurd hge (not_le.mpr hlt)
        flagCnt := rfl }
  · exact
      { avr := toNat_ewma q h
        reload := fun hge => absurd hge (not_le.mpr hlt)
        add := fun _ => ⟨Nat.mod_eq_of_lt (lt_trans hlt (by decide)), rfl⟩
        flagCnt := rfl }

/-- The literal count writes NUM_HUF and MODE, which the estimator's update does not speak of. -/
theorem Estimated.countLiteral {c : Config} {q : Byte} {d d' : Decoder} (h : Estimated c q d d') :
    Estimated c q d d'.countLiteral := by
  rcases d'.countLiteral_cases with ⟨_, heq⟩ | ⟨_, heq⟩ <;> rw [heq] <;>
    exact ⟨h.avr, h.reload, h.add, h.flagCnt⟩

theorem Decoder.countLiteral_numHuf (d : Decoder) : d.countLiteral.numHuf = d.numHuf + 1 := by
  rcases d.countLiteral_cases with ⟨_, heq⟩ | ⟨_, heq⟩ <;> rw [heq]

theorem Decoder.countLiteral_mode_fired {d : Decoder} (h : 16 ≤ (d.numHuf + 1).toNat ∧ d.flagCnt = 0) :
    d.countLiteral.mode = .rl := by
  rcases d.countLiteral_cases with ⟨_, heq⟩ | ⟨hn, _⟩
  · rw [heq]
  · exact absurd h hn

theorem Decoder.countLiteral_mode_kept {d : Decoder} (h : ¬ (16 ≤ (d.numHuf + 1).toNat ∧ d.flagCnt = 0)) :
    d.countLiteral.mode = d.mode := by
  rcases d.countLiteral_cases with ⟨hf, _⟩ | ⟨_, heq⟩
  · exact absurd hf h
  · rw [heq]

/-! ### The literal path (R151, R152, R156) -/

/-- With a byte owed the literal path raises nothing: it pushes the literal of the rank as it stood, updates the
estimator, promotes, and counts where it is to count. -/
theorem settle_literal_owed {s : State} (hc : s.cfg.ok) (hr : s.win.remaining ≠ 0) (q : Byte) (counting : Bool) :
    ∃ t', Promoted s.cfg q s.tab t' ∧
      settle (literal q counting s) =
        { s with
          win := s.win.write (s.tab.lookup q)
          tab := t'
          dec :=
            if counting then (s.dec.estimate s.cfg.nhfbStep q).countLiteral else s.dec.estimate s.cfg.nhfbStep q } := by
  obtain ⟨t', hdone, hpromoted⟩ := SymTable.promote_promoted hc q s.tab
  refine ⟨t', hpromoted, ?_⟩
  have hpush := onWin_eq_done.mpr ⟨_, Window.push_done (b := s.tab.lookup q) hr, rfl⟩
  have htab := onTab_eq_done (s :=
    { s with win := s.win.write (s.tab.lookup q), dec := s.dec.estimate s.cfg.nhfbStep q }).mpr ⟨t', hdone, rfl⟩
  rw [literal, hpush, Res.bind_done]
  dsimp only
  rw [← Decoder.estimate, htab, Res.bind_done]
  cases counting <;> rfl

theorem one_le_toNat {x : Word} (h : x ≠ 0) : 1 ≤ x.toNat := Nat.one_le_iff_ne_zero.mpr (BitVec.toNat_ne.mp h)

/-- Settles O42: the literal path, counting, on the rank itself. -/
theorem literalInHuffmanMode : Obligations.LiteralInHuffmanMode := by
  intro s r hc hcap hr havr
  obtain ⟨t', hpromoted, hliteral⟩ := settle_literal_owed hc hr r true
  obtain ⟨hmode, hnum, hflag⟩ := s.dec.estimate_keeps s.cfg.nhfbStep r
  rw [exec, execLitLH, hliteral]
  refine ⟨_, rfl, rfl, pushed_write _ hcap (one_le_toNat hr), hpromoted,
    (estimated_estimate s.cfg r havr).countLiteral, ?_, fun hf => ?_, fun hf => ?_⟩
  · rw [← hnum]
    exact Decoder.countLiteral_numHuf _
  · rw [← hnum, ← hflag] at hf
    exact Decoder.countLiteral_mode_fired hf
  · rw [← hnum, ← hflag] at hf
    rw [← hmode]
    exact Decoder.countLiteral_mode_kept hf

/-- The rank of LIT-RL's literal, where the subtraction does not wrap (R152). -/
theorem literalRank_eq {c : Config} {r q : Byte} (hr : r ≠ 0) (hq : q.toNat = r.toNat - c.rlRankOffset.toNat) :
    literalRank c r = q := by
  have hpos : r.toNat ≠ 0 := BitVec.toNat_ne.mp hr
  have hoffset := c.rlRankOffset.isLt
  rw [literalRank]
  bv_omega

/-- Settles O43: the literal path, not counting, on the rank that the offset gives. -/
theorem literalInRunLengthMode : Obligations.LiteralInRunLengthMode := by
  intro s r q hc hcap hr havr hr0 hq
  obtain ⟨t', hpromoted, hliteral⟩ := settle_literal_owed hc hr q false
  obtain ⟨hmode, hnum, _⟩ := s.dec.estimate_keeps s.cfg.nhfbStep q
  rw [exec, execLitRL, literalRank_eq hr0 hq, hliteral]
  exact ⟨_, rfl, rfl, pushed_write _ hcap (one_le_toNat hr), hpromoted, estimated_estimate s.cfg q havr, hnum,
    hmode⟩

/-! ### ESC (R153) -/

/-- With fewer than two bytes owed ESC leaves the record alone. -/
theorem exec_esc_overrun {s : State} (hclear : s.err.kind = .none) (hr : s.win.remaining.toNat < 2) :
    exec .esc s = .next { s with err := .now .outputOverrun s.bits s.win } := by
  rcases s.win.escape_cases with ⟨_, hraise⟩ | ⟨hge, _⟩
  · rw [exec, execEsc, settle_onWin_raise hclear hraise]
  · exact absurd hr (not_lt.mpr hge)

/-- Settles O44: with two bytes owed escape is two window writes, the second with one byte owed. -/
theorem escapeToken : Obligations.EscapeToken := by
  refine fun s hcap => ⟨fun hr => ?_, fun hr hclear => exec_esc_overrun hclear hr⟩
  rcases s.win.escape_cases with ⟨hlt, _⟩ | ⟨_, hdone⟩
  · exact absurd hr (not_le.mpr hlt)
  · have hfirst := pushed_write 0x01 hcap (show 1 ≤ s.win.remaining.toNat by omega)
    have howed : 1 ≤ (s.win.write 0x01).remaining.toNat := by
      have := hfirst.remaining
      omega
    rw [exec, execEsc, settle_onWin_done hdone]
    exact ⟨_, s.win.write 0x01, rfl, rfl, hfirst, pushed_write 0x00 hcap howed⟩

/-! ### Sixteen literals in LH (R159, R160) -/

/-- A session in which n more literals are to be counted, up to 16 in all: it is in RL exactly where the 16th has been
counted with FLAG_CNT = 0. -/
structure State.Counting (n : Nat) (s : State) : Prop where
  inv : s.Inv
  active : s.ctl.active = true
  owed : n ≤ s.win.remaining.toNat
  count_le : s.dec.numHuf.toNat + n ≤ 16
  mode_iff : s.dec.mode = .rl ↔ s.dec.numHuf.toNat = 16 ∧ s.dec.flagCnt = 0

/-- One literal of a run of them: it raises no error, and is counted. -/
theorem State.Counting.exec_litLH {n : Nat} {s : State} (h : s.Counting (n + 1)) (r : Byte) :
    ∃ t, exec (.litLH r) s = .next t ∧ t.Counting n ∧ t.err = s.err ∧
      t.dec.numHuf.toNat = s.dec.numHuf.toNat + 1 ∧ t.dec.flagCnt = s.dec.flagCnt := by
  have howed := h.owed
  have hle := h.count_le
  have hr : s.win.remaining ≠ 0 := by bv_omega
  obtain ⟨hwin, _⟩ := h.inv.win h.active
  obtain ⟨t, hexec, hframe, hpushed, _, hestimated, hnum, hfired, hkept⟩ :=
    literalInHuffmanMode s r h.inv.cfg hwin.cap_pos hr h.inv.dec.avr_le
  have hcount : (s.dec.numHuf + 1).toNat = s.dec.numHuf.toNat + 1 := by bv_omega
  have hremaining := hpushed.remaining
  rw [hcount] at hfired hkept
  have herr : t.err = s.err := by rw [hframe]
  have hctl : t.ctl = s.ctl := by rw [hframe]
  refine ⟨t, hexec, ⟨?_, ?_, ?_, ?_, ?_⟩, herr, hnum ▸ hcount, hestimated.flagCnt⟩
  · exact (changing_exec (by simp) s t hexec).keeps_inv h.inv
  · rw [hctl, h.active]
  · omega
  · rw [hnum, hcount]
    omega
  · rw [hnum, hcount, hestimated.flagCnt]
    by_cases hf : 16 ≤ s.dec.numHuf.toNat + 1 ∧ s.dec.flagCnt = 0
    · simp only [hfired hf, true_iff]
      exact ⟨by omega, hf.2⟩
    · rw [hkept hf, h.mode_iff]
      constructor <;> rintro ⟨heq, hflag⟩
      · omega
      · exact absurd ⟨heq.ge, hflag⟩ hf

/-- A run of literals, folded by any step that runs LIT-LH, is counted to its end. -/
theorem foldl_literals {f : Option State → Byte → Option State}
    (hf : ∀ r u v, exec (.litLH r) u = .next v → f (some u) r = some v) (rs : List Byte) {s : State}
    (h : s.Counting rs.length) :
    ∃ t, rs.foldl f (some s) = some t ∧ t.err = s.err ∧
      (t.dec.mode = .rl ↔ s.dec.numHuf.toNat + rs.length = 16 ∧ s.dec.flagCnt = 0) := by
  induction rs generalizing s with
  | nil => exact ⟨s, rfl, rfl, h.mode_iff⟩
  | cons r rs ih =>
    obtain ⟨u, hexec, hu, herr, hnum, hflag⟩ := h.exec_litLH r
    obtain ⟨t, hfold, herr', hmode⟩ := ih hu
    refine ⟨t, ?_, herr'.trans herr, ?_⟩
    · rw [List.foldl_cons, hf r s u hexec, hfold]
    · rw [hmode, hnum, hflag, List.length_cons, Nat.add_assoc, Nat.add_comm 1]

/-- Settles O49: the run starts with the count at 0. -/
theorem sixteenLiteralsSwitchTheMode : Obligations.SixteenLiteralsSwitchTheMode := by
  intro s rs hinv hactive hmode hnum hle howed
  have hzero : s.dec.numHuf.toNat = 0 := by rw [hnum]; rfl
  have hcounting : s.Counting rs.length :=
    { inv := hinv
      active := hactive
      owed := howed
      count_le := by omega
      mode_iff := by rw [hmode, hzero]; simp }
  rw [← Nat.zero_add rs.length, ← hzero]
  exact foldl_literals (fun r u v h => by simp only [Option.bind_some, h]) rs hcounting

/-! ### MODE (R36, R160) -/

/-- Where the meaning answers, it leaves MODE alone. -/
def KeepsMode (f : Meaning) : Prop := ∀ s t, f s = .next t → t.dec.mode = s.dec.mode

theorem keepsMode_next {g : State → State} (h : ∀ s, (g s).dec.mode = s.dec.mode) : KeepsMode fun s => .next (g s) := by
  rintro s _ ⟨⟩
  exact h s

theorem illegal_dec (s : State) : (illegal s).dec = s.dec := by rw [illegal_eq]

theorem keepsMode_gates {f : Meaning} (h : KeepsMode f) :
    KeepsMode (whenIdle f) ∧ (∀ ok, KeepsMode (whenLegal ok f)) ∧ KeepsMode (whenActive f) ∧ KeepsMode (whenClear f) := by
  have gates (s : State) := gates_keep (fun t => t.dec.mode = s.dec.mode) (f := f) (s := s) rfl
    (congrArg Decoder.mode (illegal_dec s)) (h s)
  exact ⟨fun s => (gates s).1, fun ok s => (gates s).2.1 ok, fun s => (gates s).2.2.1, fun s => (gates s).2.2.2⟩

theorem KeepsMode.whenIdle {f : Meaning} (h : KeepsMode f) : KeepsMode (whenIdle f) := (keepsMode_gates h).1

theorem KeepsMode.whenLegal {f : Meaning} (h : KeepsMode f) (ok : State → Bool) : KeepsMode (whenLegal ok f) :=
  (keepsMode_gates h).2.1 ok

theorem KeepsMode.whenActive {f : Meaning} (h : KeepsMode f) : KeepsMode (whenActive f) := (keepsMode_gates h).2.2.1

/-- The gates of a mutating command (R180). -/
theorem KeepsMode.mutating {f : Meaning} (h : KeepsMode f) :
    KeepsMode (Machine.whenIdle (Machine.whenActive (Machine.whenClear f))) :=
  (keepsMode_gates h).2.2.2.whenActive.whenIdle

theorem settle_dec (r : Res State Unit) : (settle r).dec = r.state.dec := by rw [settle_eq]

theorem deliver_dec (r : Res State Word) : (deliver r).dec = r.state.dec := by rw [deliver_eq]

theorem onBits_dec {α : Type} (f : BitReader → Res BitReader α) (s : State) : (onBits f s).state.dec = s.dec := by
  rw [onBits_state]

theorem onTab_dec {α : Type} (f : SymTable → Res SymTable α) (s : State) : (onTab f s).state.dec = s.dec := by
  rw [onTab_state]

theorem onWin_dec {α : Type} (f : Window → Res Window α) (s : State) : (onWin f s).state.dec = s.dec := by
  rw [onWin_state]

/-- An operation on the reader, the table or the window, settled or delivered, leaves MODE alone. -/
theorem keepsMode_settle {r : State → Res State Unit} (h : ∀ s, (r s).state.dec = s.dec) :
    KeepsMode fun s => .next (settle (r s)) :=
  keepsMode_next fun s => by rw [settle_dec, h]

theorem keepsMode_deliver {r : State → Res State Word} (h : ∀ s, (r s).state.dec = s.dec) :
    KeepsMode fun s => .next (deliver (r s)) :=
  keepsMode_next fun s => by rw [deliver_dec, h]

/-- MODE is as it was, or RL where the literal is counted. -/
def ModeKeptOrCounted (counting : Bool) (s t : State) : Prop :=
  t.dec.mode = s.dec.mode ∨ (counting = true ∧ t.dec.mode = .rl)

/-- Of the literal path's parts the count alone can write MODE (R156, R159). -/
theorem literal_mode (q : Byte) (counting : Bool) (s : State) :
    ModeKeptOrCounted counting s (literal q counting s).state := by
  refine Res.state_bind (ModeKeptOrCounted counting s) (.inl (congrArg Decoder.mode (onWin_dec _ s)))
    fun _ pushed _ hpushed => ?_
  have hestimated : ModeKeptOrCounted counting s
      { pushed with dec := pushed.dec.estimate pushed.cfg.nhfbStep q } := by
    obtain ⟨hmode, _⟩ := pushed.dec.estimate_keeps pushed.cfg.nhfbStep q
    rwa [ModeKeptOrCounted, hmode]
  refine Res.state_bind (ModeKeptOrCounted counting s) ?_ fun _ promoted _ hpromoted => ?_
  · rwa [ModeKeptOrCounted, onTab_dec]
  · cases counting with
    | false => exact hpromoted
    | true =>
      by_cases hf : 16 ≤ (promoted.dec.numHuf + 1).toNat ∧ promoted.dec.flagCnt = 0
      · exact .inr ⟨rfl, Decoder.countLiteral_mode_fired hf⟩
      · have hkept := Decoder.countLiteral_mode_kept hf
        change ModeKeptOrCounted true s { promoted with dec := promoted.dec.countLiteral }
        rwa [ModeKeptOrCounted, hkept]

/-- Every instruction but START, STEP, SWITCH and the counted literal leaves MODE alone. -/
theorem keepsMode_exec :
    ∀ i : Instr, i ≠ .start → i ≠ .step → i ≠ .switch → (∀ r, i ≠ .litLH r) → KeepsMode (exec i)
  | .start, h, _, _, _ => absurd rfl h
  | .step, _, h, _, _ => absurd rfl h
  | .switch, _, _, h, _ => absurd rfl h
  | .litLH r, _, _, _, h => absurd rfl (h r)
  | .nop, _, _, _, _ => (keepsMode_next fun _ => rfl).whenIdle
  | .run, _, _, _, _ => .mutating (keepsMode_next fun _ => rfl)
  | .abort, _, _, _, _ => by
    intro s t h
    simp only [exec, execAbort] at h
    split at h
    · cases h; rfl
    · exact (keepsMode_next fun _ => rfl).whenActive s t h
  | .peek, _, _, _, _ => .mutating (keepsMode_deliver fun s => onBits_dec _ s)
  | .consume _, _, _, _, _ =>
    .whenIdle (.whenLegal (.whenActive (keepsMode_gates (keepsMode_settle fun s => onBits_dec _ s)).2.2.2) _)
  | .decode _, _, _, _, _ => .mutating (keepsMode_deliver fun s =>
      Res.state_bind (fun u : State => u.dec = s.dec) (onBits_dec _ s) fun _ _ _ h => h)
  | .lookup _, _, _, _, _ => .whenIdle (.whenActive (keepsMode_next fun _ => rfl))
  | .promote _, _, _, _, _ => .mutating (keepsMode_settle fun s => onTab_dec _ s)
  | .correct, _, _, _, _ => .mutating (keepsMode_next fun _ => rfl)
  | .push _, _, _, _, _ => .mutating (keepsMode_settle fun s => onWin_dec _ s)
  | .copy _ _, _, _, _, _ => .mutating (keepsMode_settle fun s => onWin_dec _ s)
  | .rdwin _, _, _, _, _ => .whenIdle (.whenLegal (.whenActive (keepsMode_deliver fun s => onWin_dec _ s)) _)
  | .rdpc _, _, _, _, _ => .whenIdle (.whenActive (keepsMode_next fun _ => rfl))
  | .reserved _, _, _, _, _ => (keepsMode_next fun s => congrArg Decoder.mode (illegal_dec s)).whenIdle
  | .litRL r, _, _, _, _ => keepsMode_next fun s => by
    rw [settle_dec]
    exact (literal_mode (literalRank s.cfg r) false s).resolve_right fun h => Bool.false_ne_true h.1
  | .esc, _, _, _, _ => keepsMode_settle fun s => onWin_dec _ s
  | .backref _ _ _, _, _, _, _ => keepsMode_settle fun s => onWin_dec _ s

/-- Settles O50: of the instructions that may write MODE, SWITCH stores LH, and the count of LIT-LH stores RL. -/
theorem modeChangesOnlyByItsTokens : Obligations.ModeChangesOnlyByItsTokens := by
  intro i s t hexec hne hstart hstep
  by_cases hswitch : i = .switch
  · subst hswitch
    cases hexec
    exact .inl ⟨rfl, rfl⟩
  by_cases hlit : ∃ r, i = .litLH r
  · obtain ⟨r, rfl⟩ := hlit
    cases hexec
    rw [settle_dec] at hne ⊢
    exact .inr ⟨((literal_mode r true s).resolve_left hne).2, r, rfl⟩
  · exact absurd (keepsMode_exec i hstart hstep hswitch (not_exists.mp hlit) s t hexec) hne

end Sys2Proof.Machine
end

section
/-! Reading and running one token: the core's turn in a RUN, and STEP with each point at which it can raise, in stream
order (R150, R155, R182, R202, R203). -/

namespace Sys2Proof.Machine

/-! ### The core's turn (R150, R182) -/

/-- Where the host has no turn left or leaves it to the core, a step is the core's turn. -/
theorem step_of_coreNext {s : State} (h : s.coreNext) : step s = coreTurn s.advanced := by
  rcases h with hnone | hyield
  · rw [step_of_nextMove_none hnone, advanced_of_nextMove_none hnone]
  · rw [step_of_nextMove hyield, hostTurn]

/-- One iteration of the RUN loop that neither honours an abort nor ends the RUN is one token. -/
theorem coreTurn_of_running {s : State} (hbusy : s.ctl.busy = true) (hreq : s.ctl.abortReq = false)
    (hr : s.win.remaining ≠ 0) (hclear : s.err.kind = .none) : coreTurn s = tokenStep s := by
  have hgoes : ¬ (s.win.remaining = 0 ∨ s.err.kind ≠ .none) := not_or.mpr ⟨hr, not_not.mpr hclear⟩
  rw [coreTurn, if_pos hbusy, hreq, if_neg Bool.false_ne_true, if_neg hgoes]

theorem tokenStep_of_fetched {s : State} {k : Token} {b : BitReader} (hr : s.win.remaining ≠ 0)
    (h : fetchToken s.cfg s.dec.mode s.src s.bits = .done k b) : tokenStep s = exec k.toInstr { s with bits := b } := by
  rw [exec_token]
  exact tokenStep_of_done hr (onBits_eq_done.mpr ⟨b, h, rfl⟩)

/-- Settles O13: the core's turn is one token, and the token's meaning is exec of it. -/
theorem stepRunsTheNextToken : Obligations.StepRunsTheNextToken := by
  intro s k b hnext hbusy hreq hr hclear hfetch
  rw [step_of_coreNext hnext, coreTurn_of_running (s := s.advanced) hbusy hreq hr hclear]
  exact tokenStep_of_fetched (s := s.advanced) hr hfetch

/-! ### STEP by how the reading ends (R150, R202) -/

theorem exec_step_ready {s : State} (h : s.Ready) : exec .step s = tokenStep s := mutating_ready h

theorem exec_step_of_fetched {s : State} {k : Token} {b : BitReader} (h : s.Ready) (hr : s.win.remaining ≠ 0)
    (hfetch : fetchToken s.cfg s.dec.mode s.src s.bits = .done k b) :
    exec .step s = exec k.toInstr { s with bits := b } :=
  (exec_step_ready h).trans (tokenStep_of_fetched hr hfetch)

theorem exec_step_of_raised {s : State} {e : ErrKind} {b : BitReader} (h : s.Ready) (hr : s.win.remaining ≠ 0)
    (hfetch : fetchToken s.cfg s.dec.mode s.src s.bits = .raise e b) :
    exec .step s = .next { s with bits := b, err := .now e b s.win } := by
  have hclear : (State.err { s with bits := b }).kind = .none := h.2.2
  rw [exec_step_ready h, tokenStep_of_raise hr (onBits_eq_raise.mpr ⟨b, hfetch, rfl⟩), latch_of_none _ hclear]
  rfl

/-- Every token answers. -/
theorem exec_token_answers (k : Token) (s : State) : ∃ t, exec k.toInstr s = .next t := by
  cases k <;> exact ⟨_, rfl⟩

/-! ### The ends of consume and decode_symbol (R112, R120) -/

section
variable {f : Half → Option (Nat × Nat)} {src : Memory} {b : BitReader} {v k : Nat}

theorem BitReader.consume_exhausted (h : (b.refill src).valid.toNat < k) :
    b.consume src k = .raise .bitstreamExhausted (b.refill src) := if_pos h

theorem BitReader.consume_done (h : k ≤ (b.refill src).valid.toNat) :
    b.consume src k = .done () ((b.refill src).drop k) := if_neg (not_lt.mpr h)

theorem BitReader.decodeSymbol_corrupt (h : f (b.refill src).lookahead = none) :
    b.decodeSymbol f src = .raise .corruptTable (b.refill src) := by
  rw [BitReader.decodeSymbol_eq, h]

theorem BitReader.decodeSymbol_exhausted (h : f (b.refill src).lookahead = some (v, k))
    (hk : (b.refill src).valid.toNat < k) : b.decodeSymbol f src = .raise .bitstreamExhausted (b.refill src) := by
  rw [BitReader.decodeSymbol_eq, h]
  exact if_pos hk

theorem BitReader.decodeSymbol_done (h : f (b.refill src).lookahead = some (v, k))
    (hk : k ≤ (b.refill src).valid.toNat) :
    b.decodeSymbol f src = .done (v, (b.refill src).lookahead) ((b.refill src).drop k) := by
  rw [BitReader.decodeSymbol_eq, h]
  exact if_neg (not_lt.mpr hk)

end

/-! ### The reading of a token, point by point (R83, R150, R155, R203) -/

section
variable {c : Config} {src : Memory} {b : BitReader}

/-- An error in the rank decode ends the reading. -/
theorem fetchToken_of_raise {m : Mode} {e : ErrKind} {b' : BitReader} (h : decodeWith c .sym src b = .raise e b') :
    fetchToken c m src b = .raise e b' := by
  rw [fetchToken, h, Res.bind_raise]

theorem fetchToken_esc {l : Half} {b' : BitReader} (h : decodeWith c .sym src b = .done (0, l) b')
    (hl : c.escThreshold.toNat < l.toNat) : fetchToken c .rl src b = .done .esc b' := by
  rw [fetchToken, h, Res.bind_done]
  exact (if_pos rfl).trans (if_pos hl)

theorem fetchToken_rest {l : Half} {b' : BitReader} (h : decodeWith c .sym src b = .done (0, l) b')
    (hl : l.toNat ≤ c.escThreshold.toNat) : fetchToken c .rl src b = fetchRest c src b' := by
  rw [fetchToken, h, Res.bind_done]
  exact (if_pos rfl).trans (if_neg (not_lt.mpr hl))

theorem fetchRest_flag_exhausted (h : (b.refill src).valid.toNat < 1) :
    fetchRest c src b = .raise .bitstreamExhausted (b.refill src) := by
  rw [fetchRest_eq]
  exact if_pos h

/-- A back-reference after its flag bit: its length bit l, then the distance code and the extension (R155). -/
def fetchBackref (c : Config) (src : Memory) (l : Bool) (b : BitReader) : Res BitReader Token :=
  (b.consume src 1).bind fun _ b =>
  (decodeWith c .dist src b).bind fun d b =>
  ((b.refill src).consume src 5).bind fun _ b' =>
  .done (.backref l (BitVec.ofNat 11 d.1) (extBits (b.refill src).lookahead)) b'

/-- A flag bit of 0 is followed by a back-reference, whose length bit is the next bit of the same lookahead. -/
theorem fetchRest_of_flag (h : 1 ≤ (b.refill src).valid.toNat) (hflag : (b.refill src).lookahead.getLsbD 15 = false) :
    fetchRest c src b = fetchBackref c src ((b.refill src).lookahead.getLsbD 14) ((b.refill src).drop 1) := by
  have hbit : ¬ flagBit (b.refill src).lookahead = true := by rw [flagBit, hflag]; exact Bool.false_ne_true
  rw [fetchRest, BitReader.peek]
  dsimp only
  rw [BitReader.consume_refill, if_neg (not_lt.mpr h), Res.bind_done, if_neg hbit]
  rfl

section
variable {l : Bool}

theorem fetchBackref_length_exhausted (h : (b.refill src).valid.toNat < 1) :
    fetchBackref c src l b = .raise .bitstreamExhausted (b.refill src) := by
  rw [fetchBackref, BitReader.consume_exhausted h, Res.bind_raise]

theorem fetchBackref_distance_raise {e : ErrKind} {b' : BitReader} (h : 1 ≤ (b.refill src).valid.toNat)
    (hd : decodeWith c .dist src ((b.refill src).drop 1) = .raise e b') : fetchBackref c src l b = .raise e b' := by
  rw [fetchBackref, BitReader.consume_done h, Res.bind_done, hd, Res.bind_raise]

theorem fetchBackref_extension_exhausted {d : Nat × Half} {b' : BitReader} (h : 1 ≤ (b.refill src).valid.toNat)
    (hd : decodeWith c .dist src ((b.refill src).drop 1) = .done d b') (he : (b'.refill src).valid.toNat < 5) :
    fetchBackref c src l b = .raise .bitstreamExhausted (b'.refill src) := by
  rw [fetchBackref, BitReader.consume_done h, Res.bind_done, hd, Res.bind_done, BitReader.consume_refill, if_pos he,
    Res.bind_raise]

theorem fetchBackref_done {d : Nat × Half} {b' : BitReader} (h : 1 ≤ (b.refill src).valid.toNat)
    (hd : decodeWith c .dist src ((b.refill src).drop 1) = .done d b') (he : 5 ≤ (b'.refill src).valid.toNat) :
    fetchBackref c src l b =
      .done (.backref l (BitVec.ofNat 11 d.1) (extBits (b'.refill src).lookahead)) ((b'.refill src).drop 5) := by
  rw [fetchBackref, BitReader.consume_done h, Res.bind_done, hd, Res.bind_done, BitReader.consume_refill,
    if_neg (not_lt.mpr he), Res.bind_done]

end

/-- A distance code that decodes is below DIST_ALPHABET, so its 11 bits hold it (R6, R84, R120). -/
theorem toNat_ofNat_distance {x : Half} {d k : Nat} (h : classify c.distTbl c.distAlphabet x = some (d, k)) :
    (BitVec.ofNat 11 d).toNat = d := by
  obtain ⟨_, _, _, _, _, hlt⟩ := classify_eq_some_iff.mp h
  have hmax := c.distAlphabetM1.isLt
  rw [Config.distAlphabet] at hlt
  rw [BitVec.toNat_ofNat, Nat.mod_eq_of_lt (by omega)]

end

/-! ### STEP (R150, R202, R203) -/

/-- Settles O22: STEP raises where the reading of its token raises, and else does what the token does. The raising points
are those of the rank decode, of the reading after SYM(0), and of ESC's and BACKREF's own checks. -/
theorem stepCommand : Obligations.StepCommand := by
  intro s h
  refine ⟨exec_step_finished h, fun k b hr hfetch => ?_, fun e b hr => exec_step_of_raised h hr, fun hr => ?_⟩
  · obtain ⟨t, ht⟩ := exec_token_answers k { s with bits := b }
    exact ⟨t, (exec_step_of_fetched h hr hfetch).trans ht, ht⟩
  intro raises r0
  have raised {e : ErrKind} {b : BitReader} (hfetch : fetchToken s.cfg s.dec.mode s.src s.bits = .raise e b) :
      raises e b := exec_step_of_raised h hr hfetch
  refine ⟨fun hnone => raised (fetchToken_of_raise (BitReader.decodeSymbol_corrupt hnone)), fun v k hsym =>
    ⟨fun hlt => raised (fetchToken_of_raise (BitReader.decodeSymbol_exhausted hsym hlt)),
      fun hk hmode hv hesc howed => ?_, fun hk hmode hv hesc => ?_⟩⟩
  · subst hv
    have hfetch : fetchToken s.cfg s.dec.mode s.src s.bits = .done .esc (r0.drop k) :=
      hmode ▸ fetchToken_esc (BitReader.decodeSymbol_done hsym hk) hesc
    exact (exec_step_of_fetched h hr hfetch).trans (exec_esc_overrun (s := { s with bits := r0.drop k }) h.2.2 howed)
  subst hv
  have hrest : fetchToken s.cfg s.dec.mode s.src s.bits = fetchRest s.cfg s.src (r0.drop k) :=
    hmode ▸ fetchToken_rest (BitReader.decodeSymbol_done hsym hk) hesc
  intro r1
  refine ⟨fun hlt => raised (hrest.trans (fetchRest_flag_exhausted hlt)), fun h1 hflag => ?_⟩
  have hback : fetchToken s.cfg s.dec.mode s.src s.bits =
      fetchBackref s.cfg s.src (r1.lookahead.getLsbD 14) (r1.drop 1) := hrest.trans (fetchRest_of_flag h1 hflag)
  intro r2
  refine ⟨fun hlt => raised (hback.trans (fetchBackref_length_exhausted hlt)), fun h2 => ?_⟩
  have distance_raises {e : ErrKind} {b : BitReader} (hd : decodeWith s.cfg .dist s.src (r2.drop 1) = .raise e b) :
      raises e b := raised (hback.trans (fetchBackref_distance_raise h2 hd))
  intro r3
  refine ⟨fun hnone => distance_raises (BitReader.decodeSymbol_corrupt hnone), fun d k' hdist =>
    ⟨fun hlt => distance_raises (BitReader.decodeSymbol_exhausted hdist hlt), fun h3 => ?_⟩⟩
  have hdone : decodeWith s.cfg .dist s.src (r2.drop 1) = .done (d, r3.lookahead) (r3.drop k') :=
    BitReader.decodeSymbol_done hdist h3
  intro r4 dist
  refine ⟨fun hlt => raised (hback.trans (fetchBackref_extension_exhausted h2 hdone hlt)), fun h4 => ?_⟩
  have hstep := exec_step_of_fetched h hr (hback.trans (fetchBackref_done h2 hdone h4))
  obtain ⟨-, hinvalid, hoverrun⟩ := tokenErrors { s with bits := r4.drop 5 } 0 (r1.lookahead.getLsbD 14)
    (BitVec.ofNat 11 d) (extBits r4.lookahead) h.2.2
  rw [toNat_ofNat_distance hdist] at hinvalid hoverrun
  exact ⟨fun hfail => hstep.trans (hinvalid hfail), fun hpos hd hfar hlen => hstep.trans (hoverrun hpos hd hfar hlen)⟩

end Sys2Proof.Machine
end

section
/-! Command acceptance (R180): every instruction answers, and each state in which a command is dropped, illegal or without
effect. -/

namespace Sys2Proof.Machine

/-! ### Every meaning answers (R180, R201) -/

/-- The meaning answers in every state. -/
def Answers (f : Meaning) : Prop := ∀ s, ∃ t, f s = .next t

theorem answers_next (g : State → State) : Answers fun s => .next (g s) := fun s => ⟨g s, rfl⟩

theorem Answers.whenIdle {f : Meaning} (h : Answers f) : Answers (whenIdle f) := fun s =>
  match hb : s.ctl.busy with
  | true => ⟨_, whenIdle_busy hb⟩
  | false => whenIdle_idle (f := f) hb ▸ h s

theorem Answers.whenLegal {f : Meaning} (h : Answers f) (ok : State → Bool) : Answers (whenLegal ok f) := fun s =>
  match hok : ok s with
  | true => whenLegal_ok (f := f) hok ▸ h s
  | false => ⟨_, whenLegal_not hok⟩

theorem Answers.whenActive {f : Meaning} (h : Answers f) : Answers (whenActive f) := fun s =>
  match ha : s.ctl.active with
  | true => whenActive_active (f := f) ha ▸ h s
  | false => ⟨_, whenActive_not ha⟩

theorem Answers.whenClear {f : Meaning} (h : Answers f) : Answers (whenClear f) := fun s =>
  if he : s.err.kind = .none then whenClear_clear (f := f) he ▸ h s else ⟨_, whenClear_error he⟩

/-- The gates of an inspection command (R180). -/
theorem Answers.inspecting {f : Meaning} (h : Answers f) : Answers (Machine.whenIdle (Machine.whenActive f)) :=
  h.whenActive.whenIdle

/-- The gates of a mutating command (R180). -/
theorem Answers.mutating {f : Meaning} (h : Answers f) :
    Answers (Machine.whenIdle (Machine.whenActive (Machine.whenClear f))) := h.whenClear.inspecting

theorem answers_runToken (k : Token) : Answers (runToken k) := fun s => exec_token k s ▸ exec_token_answers k s

/-- step() answers where nothing is owed, where the reading raises, and where a token is read (R150). -/
theorem answers_tokenStep : Answers tokenStep := by
  intro s
  by_cases hr : s.win.remaining = 0
  · exact ⟨s, tokenStep_of_finished hr⟩
  cases hfetch : onBits (fetchToken s.cfg s.dec.mode s.src) s with
  | raise e u => exact ⟨_, tokenStep_of_raise hr hfetch⟩
  | done k u => exact tokenStep_of_done hr hfetch ▸ answers_runToken k u

/-- With BUSY clear ABORT has the gate for ACTIVE alone (R183). -/
theorem exec_abort_idle {s : State} (hb : s.Idle) : exec .abort s = whenActive (fun s => .next s) s := by
  rw [exec, execAbort, hb, if_neg Bool.false_ne_true]

/-- Settles O14: an operation answers however it ends, and so does every gate before it. -/
theorem execAlwaysAnswers : Obligations.ExecAlwaysAnswers
  | .nop => (answers_next _).whenIdle
  | .start => (answers_next _).whenIdle
  | .step => answers_tokenStep.mutating
  | .run => (answers_next _).mutating
  | .abort => fun s =>
    match hb : s.ctl.busy with
    | true => ⟨_, if_pos hb⟩
    | false => exec_abort_idle hb ▸ (answers_next id).whenActive s
  | .peek => (answers_next _).mutating
  | .consume _ => (answers_next _).whenClear.whenActive.whenLegal _ |>.whenIdle
  | .decode _ => (answers_next _).mutating
  | .lookup _ => (answers_next _).inspecting
  | .promote _ => (answers_next _).mutating
  | .correct => (answers_next _).mutating
  | .push _ => (answers_next _).mutating
  | .copy _ _ => (answers_next _).mutating
  | .rdwin _ => (answers_next _).whenActive.whenLegal _ |>.whenIdle
  | .rdpc _ => (answers_next _).inspecting
  | .reserved _ => (answers_next _).whenIdle
  | .litLH r => answers_runToken (.litLH r)
  | .litRL r => answers_runToken (.litRL r)
  | .esc => answers_runToken .esc
  | .switch => answers_runToken .switch
  | .backref l d e => answers_runToken (.backref l d e)

/-! ### While BUSY (R180, R232) -/

theorem rejectWord_busy {s : State} (hb : s.ctl.busy = true) : rejectWord s = .next (dropped s) := whenIdle_busy hb

/-- Settles O16: the gate for BUSY comes first for every command but ABORT, and for a word that is no command. -/
theorem busyDropsCommands : Obligations.BusyDropsCommands := by
  refine fun s hb => ⟨fun i hcmd hi => ?_, fun w e hw => ?_⟩
  · cases i with
    | abort => exact absurd rfl hi
    | start => rw [exec, execStart, whenIdle_busy hb, dropped]
    | reserved x => exact rejectWord_busy hb
    | litLH | litRL | esc | switch | backref => cases hcmd
    | _ => exact whenIdle_busy hb
  · rw [accept, hw]
    exact rejectWord_busy hb

/-! ### With ACTIVE = 0 (R180) -/

theorem whenActive_inactive {f : Meaning} {s : State} (ha : s.ctl.active = false) :
    whenActive f s = .next s.afterIllegal := by
  rw [whenActive_not ha, illegal_eq_afterIllegal]

theorem inspecting_inactive {f : Meaning} {s : State} (hb : s.Idle) (ha : s.ctl.active = false) :
    whenIdle (whenActive f) s = .next s.afterIllegal := by
  rw [whenIdle_idle hb, whenActive_inactive ha]

/-- The check of the operand comes before that of ACTIVE, but both make the command illegal. -/
theorem whenLegal_inactive {ok : State → Bool} {f : Meaning} {s : State} (hb : s.Idle) (ha : s.ctl.active = false) :
    whenIdle (whenLegal ok (whenActive f)) s = .next s.afterIllegal := by
  rw [whenIdle_idle hb]
  cases hok : ok s with
  | true => rw [whenLegal_ok hok, whenActive_inactive ha]
  | false => rw [whenLegal_not hok, illegal_eq_afterIllegal]

theorem exec_abort_inactive {s : State} (hb : s.Idle) (ha : s.ctl.active = false) :
    exec .abort s = .next s.afterIllegal := by
  rw [exec_abort_idle hb, whenActive_inactive ha]

/-- Settles O17: each command's gates end at ACTIVE at the latest, and the reserved row is illegal by itself. -/
theorem inactiveCommandsAreIllegal : Obligations.InactiveCommandsAreIllegal := by
  intro s i hb ha hcmd hnop hstart
  cases i with
  | nop => exact absurd rfl hnop
  | start => exact absurd rfl hstart
  | abort => exact exec_abort_inactive hb ha
  | consume | rdwin => exact whenLegal_inactive hb ha
  | reserved x => exact exec_reserved_idle x hb
  | litLH | litRL | esc | switch | backref => cases hcmd
  | _ => exact inspecting_inactive hb ha

/-! ### With an error latched (R180) -/

theorem mutating_error {f : Meaning} {s : State} (h : s.Active) (he : s.err.kind ≠ .none) :
    whenIdle (whenActive (whenClear f)) s = .next (dropped s) := by
  rw [inspecting_active h, whenClear_error he]

/-- Where an error is latched already, an illegal command is dropped. -/
theorem afterIllegal_of_latched {s : State} (he : s.err.kind ≠ .none) : s.afterIllegal = dropped s := if_neg he

/-- Settles O18: a mutating command stops at the gate for the error, an illegal one at its own check. -/
theorem errorStateDropsMutatingCommands : Obligations.ErrorStateDropsMutatingCommands := by
  intro s i h he hcmd hinsp hnop hstart habort
  cases i with
  | nop => exact absurd rfl hnop
  | start => exact absurd rfl hstart
  | abort => exact absurd rfl habort
  | consume n =>
    by_cases hn : n.toNat ≤ 16
    · rw [exec, execConsume, whenIdle_idle h.1, whenLegal_ok (decide_eq_true hn), whenActive_active h.2,
        whenClear_error he, dropped]
    · rw [exec_consume_illegal h.1 (not_le.mp hn), afterIllegal_of_latched he, dropped]
  | reserved x => rw [exec_reserved_idle x h.1, afterIllegal_of_latched he, dropped]
  | lookup | rdwin | rdpc => cases hinsp
  | litLH | litRL | esc | switch | backref => cases hcmd
  | _ => exact mutating_error h he

/-! ### NOP (R184) and START (R181) -/

/-- Settles O19: NOP has the gate for BUSY alone. -/
theorem nopCommand : Obligations.NopCommand :=
  ⟨rfl, fun _ => ⟨whenIdle_idle, whenIdle_busy⟩⟩

theorem exec_start_illegal {s : State} (hb : s.Idle) (hc : capacityLegal s = false) :
    exec .start s = .next (refuseSession s) := by
  rw [exec, execStart, whenIdle_idle hb, hc, if_neg Bool.false_ne_true]

/-- Settles O2: the check of the capacity decides between a fresh session and a refused one. -/
theorem startCommand : Obligations.StartCommand := by
  refine ⟨rfl, fun s hb => ⟨fun hcap => ?_, fun hcap => exec_start_illegal hb (decide_eq_false (by omega))⟩⟩
  refine ⟨beginSession s, exec_start_legal hb (decide_eq_true hcap), ?_⟩
  exact ⟨rfl, rfl, corrected_identity, rfl, Mode.bit_ofBit _, rfl, rfl, rfl, rfl, rfl, rfl, rfl⟩

end Sys2Proof.Machine
end

section
/-! The RUN loop: one iteration of it, in which step() is STEP's own, and its abort (R182, R183). -/

namespace Sys2Proof.Machine

/-! ### One iteration (R182) -/

theorem coreTurn_idle {s : State} (hb : s.ctl.busy = false) : coreTurn s = .next s := by
  rw [coreTurn, hb, if_neg Bool.false_ne_true]

/-- An abort request is honoured first. -/
theorem coreTurn_of_aborted {s : State} (hb : s.ctl.busy = true) (hreq : s.ctl.abortReq = true) :
    coreTurn s = .next { s with ctl := { s.ctl with abortReq := false, aborted := true, busy := false } } := by
  rw [coreTurn, if_pos hb, if_pos hreq]

/-- With no request, the end of the output or a latched error ends the RUN. -/
theorem coreTurn_of_ended {s : State} (hb : s.ctl.busy = true) (hreq : s.ctl.abortReq = false)
    (hend : s.win.remaining = 0 ∨ s.err.kind ≠ .none) :
    coreTurn s = .next { s with ctl := { s.ctl with busy := false } } := by
  rw [coreTurn, if_pos hb, hreq, if_neg Bool.false_ne_true, if_pos hend]

/-- The turn after an abort request honours it (R183). -/
theorem step_of_aborted {s : State} (h : s.coreNext) (hb : s.ctl.busy = true) (hreq : s.ctl.abortReq = true) :
    step s = .next { s.advanced with ctl := { s.ctl with abortReq := false, aborted := true, busy := false } } :=
  (step_of_coreNext h).trans (coreTurn_of_aborted (s := s.advanced) hb hreq)

/-- Settles O21: ABORT's three cases by BUSY and ACTIVE, and the core's turn. -/
theorem abortCommand : Obligations.AbortCommand := by
  refine ⟨rfl, fun s => ?_⟩
  have hrequest (hb : s.ctl.busy = true) : exec .abort s = .next { s with ctl := { s.ctl with abortReq := true } } :=
    if_pos hb
  refine ⟨hrequest, fun hb hreq => ?_, fun h => ?_, exec_abort_inactive, step_of_aborted⟩
  · rw [hrequest hb, ← hreq]
  · rw [exec_abort_idle h.1, whenActive_active h.2]

/-! ### step() does not see the status flags -/

/-- The state with other status flags. -/
def State.withCtl (c : Control) (s : State) : State := { s with ctl := c }

/-- The end of an operation, on the state with other status flags. -/
def Res.withCtl {α : Type} (c : Control) : Res State α → Res State α
  | .done a s => .done a (s.withCtl c)
  | .raise e s => .raise e (s.withCtl c)

section
variable {α β : Type} (c : Control) (s : State)

theorem onBits_withCtl (f : BitReader → Res BitReader α) : onBits f (s.withCtl c) = (onBits f s).withCtl c := by
  unfold onBits State.withCtl
  cases f s.bits <;> rfl

theorem onTab_withCtl (f : SymTable → Res SymTable α) : onTab f (s.withCtl c) = (onTab f s).withCtl c := by
  unfold onTab State.withCtl
  cases f s.tab <;> rfl

theorem onWin_withCtl (f : Window → Res Window α) : onWin f (s.withCtl c) = (onWin f s).withCtl c := by
  unfold onWin State.withCtl
  cases f s.win <;> rfl

theorem Res.bind_withCtl {c : Control} (r : Res State α) {f f' : α → State → Res State β}
    (h : ∀ a u, f' a (u.withCtl c) = (f a u).withCtl c) : (r.withCtl c).bind f' = (r.bind f).withCtl c := by
  cases r with
  | done a u => exact h a u
  | raise e u => rfl

theorem latch_withCtl (e : ErrKind) : latch e (s.withCtl c) = (latch e s).withCtl c := by
  by_cases he : s.err.kind = .none
  · rw [latch_of_none e he]
    exact latch_of_none e he
  · rw [latch_of_latched e he]
    exact latch_of_latched e he

theorem settle_withCtl (r : Res State Unit) : settle (r.withCtl c) = (settle r).withCtl c := by
  cases r with
  | done a u => rfl
  | raise e u => exact latch_withCtl c u e

/-- No part of the literal path reads or writes a status flag (R156). -/
theorem literal_withCtl (q : Byte) (counting : Bool) :
    literal q counting (s.withCtl c) = (literal q counting s).withCtl c := by
  unfold literal
  rw [onWin_withCtl]
  refine Res.bind_withCtl _ fun _ pushed => ?_
  have htab := onTab_withCtl c { pushed with dec := pushed.dec.estimate pushed.cfg.nhfbStep q }
    (SymTable.promote pushed.cfg q)
  refine (congrArg (Res.bind · _) htab).trans (Res.bind_withCtl _ fun _ promoted => ?_)
  cases counting <;> rfl

end

/-- Where the meaning answers, it answers in the state with any other status flags, and the answer has those. -/
def ControlBlind (f : Meaning) : Prop := ∀ c s t, f s = .next t → f (s.withCtl c) = .next (t.withCtl c)

theorem controlBlind_next {g : State → State} (h : ∀ c s, g (s.withCtl c) = (g s).withCtl c) :
    ControlBlind fun s => .next (g s) := by
  rintro c s _ ⟨⟩
  exact congrArg _ (h c s)

theorem controlBlind_settle {r : State → Res State Unit} (h : ∀ c s, r (s.withCtl c) = (r s).withCtl c) :
    ControlBlind fun s => .next (settle (r s)) :=
  controlBlind_next fun c s => by rw [h, settle_withCtl]

theorem controlBlind_runToken : ∀ k : Token, ControlBlind (runToken k)
  | .litLH r => controlBlind_settle fun c s => literal_withCtl c s r true
  | .litRL r => controlBlind_settle fun c s => literal_withCtl c s (literalRank s.cfg r) false
  | .esc => controlBlind_settle fun c s => onWin_withCtl c s _
  | .switch => controlBlind_next fun _ _ => rfl
  | .backref _ _ _ => controlBlind_settle fun c s => onWin_withCtl c s _

/-- step() neither reads nor writes a status flag (R150). -/
theorem controlBlind_tokenStep : ControlBlind tokenStep := by
  intro c s t h
  by_cases hr : s.win.remaining = 0
  · rw [tokenStep_of_finished hr] at h
    cases h
    exact tokenStep_of_finished hr
  have hreads := onBits_withCtl c s (fetchToken s.cfg s.dec.mode s.src)
  cases hfetch : onBits (fetchToken s.cfg s.dec.mode s.src) s with
  | raise e u =>
    rw [hfetch] at hreads
    rw [tokenStep_of_raise hr hfetch] at h
    cases h
    rw [← latch_withCtl]
    exact tokenStep_of_raise hr hreads
  | done k u =>
    rw [hfetch] at hreads
    rw [tokenStep_of_done hr hfetch] at h
    exact (tokenStep_of_done (s := s.withCtl c) hr hreads).trans (controlBlind_runToken k c u t h)

theorem tokenStep_keeps_ctl {s t : State} (h : tokenStep s = .next t) : t.ctl = s.ctl := by
  have hsame : tokenStep s = .next (t.withCtl s.ctl) := controlBlind_tokenStep s.ctl s t h
  rw [h, Host.Outcome.next.injEq] at hsame
  rw [hsame, State.withCtl]


/-! ### RUN (R182) -/

theorem exec_run_ready {s : State} (h : s.Ready) :
    exec .run s = .next { s with ctl := { s.ctl with busy := true, aborted := false } } :=
  mutating_ready h

/-- Settles O20: RUN's own write, and the branches of the core's turn; its step is STEP's, which does not see that BUSY
is clear in the state that accepts a STEP. -/
theorem runLoop : Obligations.RunLoop := by
  refine fun s => ⟨exec_run_ready, fun hnext hb => ⟨step_of_aborted hnext hb, fun hreq hend => ?_, ?_⟩⟩
  · exact (step_of_coreNext hnext).trans (coreTurn_of_ended (s := s.advanced) hb hreq hend)
  intro hreq hr hclear ha
  obtain ⟨u, hu⟩ := answers_tokenStep s.advanced
  have hctl : u.ctl = s.ctl := tokenStep_keeps_ctl (s := s.advanced) hu
  have hready : (s.advanced.withCtl { s.ctl with busy := false }).Ready := ⟨rfl, ha, hclear⟩
  refine ⟨u.withCtl { s.ctl with busy := false }, u, ?_, ?_, ?_⟩
  · exact (exec_step_ready hready).trans (controlBlind_tokenStep _ _ u hu)
  · rw [step_of_coreNext hnext, coreTurn_of_running (s := s.advanced) hb hreq hr hclear, hu]
  · rw [State.withCtl, ← hb, ← hctl]

end Sys2Proof.Machine
end

section
/-! A RUN ends: each of its steps lowers a measure of the work owed, or latches an error (R185). -/

namespace Sys2Proof.Machine

/-! ### A raise names an error (R200) -/

/-- Where the operation raises, it raises one of the errors of R200. -/
def Res.NamesError {σ α : Type} (r : Res σ α) : Prop := ∀ e s, r = .raise e s → e ≠ .none

theorem namesError_done {σ α : Type} (a : α) (s : σ) : (Res.done a s).NamesError := by
  rintro _ _ ⟨⟩

theorem namesError_raise {σ α : Type} {e : ErrKind} (he : e ≠ .none) (s : σ) :
    (Res.raise e s : Res σ α).NamesError := by
  rintro _ _ ⟨⟩
  exact he

theorem Res.NamesError.bind {σ α β : Type} {r : Res σ α} {f : α → σ → Res σ β} (hr : r.NamesError)
    (hf : ∀ a s, (f a s).NamesError) : (r.bind f).NamesError := by
  cases r with
  | done a s => exact hf a s
  | raise e s => exact namesError_raise (hr e s rfl) s

theorem namesError_consume (src : Memory) (n : Nat) (b : BitReader) : (b.consume src n).NamesError := by
  rcases b.consume_cases src n with ⟨_, h⟩ | ⟨_, h⟩ <;> rw [h]
  · exact namesError_done _ _
  · exact namesError_raise (by decide) _

theorem namesError_decodeWith (c : Config) (t : TableSel) (src : Memory) (b : BitReader) :
    (decodeWith c t src b).NamesError := by
  rcases b.decodeSymbol_cases (classify (c.table t).1 (c.table t).2) src with
    ⟨_, h⟩ | ⟨v, k, _, ⟨_, h⟩ | ⟨_, h⟩⟩ <;> rw [decodeWith, h]
  · exact namesError_raise (by decide) _
  · exact namesError_done _ _
  · exact namesError_raise (by decide) _

theorem namesError_fetchRest (c : Config) (src : Memory) (b : BitReader) : (fetchRest c src b).NamesError := by
  unfold fetchRest
  refine (namesError_consume _ _ _).bind fun _ b1 => ?_
  split
  · exact namesError_done _ _
  refine (namesError_consume _ _ _).bind fun _ b2 => ?_
  refine (namesError_decodeWith _ _ _ _).bind fun _ b3 => ?_
  exact (namesError_consume _ _ _).bind fun _ b4 => namesError_done _ _

/-- The reading of a token raises BitstreamExhausted or CorruptTable alone (R150, R155). -/
theorem namesError_fetchToken (c : Config) (m : Mode) (src : Memory) (b : BitReader) :
    (fetchToken c m src b).NamesError := by
  unfold fetchToken
  refine (namesError_decodeWith _ _ _ _).bind fun _ b1 => ?_
  cases m with
  | lh => exact namesError_done _ _
  | rl =>
    dsimp only
    split
    · split
      · exact namesError_done _ _
      · exact namesError_fetchRest _ _ _
    · exact namesError_done _ _

/-! ### Every step of a RUN makes progress (R185) -/

/-- Twice the bytes owed, and one more in RL, for the SWITCH that may come before the next byte. -/
def State.runMeasure (s : State) : Nat := 2 * s.win.remaining.toNat + s.dec.mode.bit.toNat

theorem State.runMeasure_le (s : State) : s.runMeasure ≤ 2 * s.win.remaining.toNat + 1 :=
  Nat.add_le_add_left (Bool.toNat_le _) _

/-- An error is latched, or the measure has gone down. -/
def Progress (s t : State) : Prop := t.err.kind ≠ .none ∨ t.runMeasure < s.runMeasure

/-- A byte written outweighs any change of MODE. -/
theorem progress_of_remaining_lt {s t : State} (h : t.win.remaining.toNat < s.win.remaining.toNat) : Progress s t := by
  have hle := t.runMeasure_le
  refine .inr ?_
  rw [State.runMeasure] at hle ⊢
  rw [State.runMeasure]
  omega

theorem Window.toNat_remaining_sub_one {w : Window} (h : 1 ≤ w.remaining.toNat) :
    (w.remaining - 1).toNat = w.remaining.toNat - 1 := by
  bv_omega

/-- copy_back's loop owes one byte less for each byte that it copies. -/
theorem Window.copyLoop_remaining (dist : Nat) : ∀ (n : Nat) (w : Window), n ≤ w.remaining.toNat →
    (Window.copyLoop dist n w).remaining.toNat = w.remaining.toNat - n
  | 0, _, _ => rfl
  | n + 1, w, hn => by
    have hbyte : (w.copyByte dist).remaining.toNat = w.remaining.toNat - 1 := by
      rw [Window.copyByte_remaining, Window.toNat_remaining_sub_one (by omega)]
    rw [Window.copyLoop, Window.copyLoop_remaining dist n _ (by omega), hbyte]
    omega

theorem progress_literal {s : State} (hc : s.cfg.ok) (hr : s.win.remaining ≠ 0) (q : Byte) (counting : Bool) :
    Progress s (settle (literal q counting s)) := by
  obtain ⟨t', _, heq⟩ := settle_literal_owed hc hr q counting
  have howed := one_le_toNat hr
  rw [heq]
  refine progress_of_remaining_lt ?_
  rw [Window.write_remaining, Window.toNat_remaining_sub_one howed]
  omega

/-- A window operation makes progress where it raises an error before it writes, or ends with fewer bytes owed. -/
theorem progress_onWin {f : Window → Res Window Unit} {s : State} (hclear : s.err.kind = .none)
    (h : (∃ e, e ≠ .none ∧ f s.win = .raise e s.win) ∨
      ∃ w, w.remaining.toNat < s.win.remaining.toNat ∧ f s.win = .done () w) :
    Progress s (settle (onWin f s)) := by
  rcases h with ⟨e, he, hraise⟩ | ⟨w, hlt, hdone⟩
  · rw [settle_onWin_raise hclear hraise]
    exact .inl he
  · rw [settle_onWin_done hdone]
    exact progress_of_remaining_lt hlt

/-- Every token makes progress: SWITCH by leaving RL, and every other token by the bytes that it writes. -/
theorem progress_runToken {s t : State} (hc : s.cfg.ok) (hr : s.win.remaining ≠ 0) (hclear : s.err.kind = .none)
    {k : Token} (hk : k = .switch → s.dec.mode = .rl) (h : runToken k s = .next t) : Progress s t := by
  cases k with
  | litLH r => cases h; exact progress_literal hc hr r true
  | litRL r => cases h; exact progress_literal hc hr (literalRank s.cfg r) false
  | esc =>
    cases h
    refine progress_onWin hclear ?_
    rcases s.win.escape_cases with ⟨_, hraise⟩ | ⟨hge, hdone⟩
    · exact .inl ⟨_, by decide, hraise⟩
    · refine .inr ⟨_, ?_, hdone⟩
      rw [Window.write_remaining, Window.write_remaining]
      bv_omega
  | switch =>
    cases h
    refine .inr ?_
    rw [State.runMeasure, State.runMeasure, hk rfl]
    exact Nat.lt_succ_self _
  | backref l d e =>
    cases h
    refine progress_onWin hclear ?_
    have hlen : 1 ≤ backrefLen l := by cases l <;> decide
    rcases s.win.copyBack_cases s.cfg.farDist (backrefDist d e) (backrefLen l) with
      ⟨_, hraise⟩ | ⟨_, _, _, ⟨_, hraise⟩ | ⟨hle, hdone⟩⟩
    · exact .inl ⟨_, by decide, hraise⟩
    · exact .inl ⟨_, by decide, hraise⟩
    · refine .inr ⟨_, ?_, hdone⟩
      rw [Window.copyLoop_remaining _ _ _ hle]
      omega

/-- In LH the reading gives a literal (R151), so SWITCH is read in RL alone. -/
theorem mode_of_fetched_switch {c : Config} {m : Mode} {src : Memory} {b b' : BitReader}
    (h : fetchToken c m src b = .done .switch b') : m = .rl := by
  cases m with
  | rl => rfl
  | lh =>
    obtain ⟨_, _, _, hlit⟩ := Res.bind_eq_done.mp h
    cases hlit

/-- One step of a RUN that has not ended makes progress. -/
theorem progress_tokenStep {s t : State} (hc : s.cfg.ok) (hr : s.win.remaining ≠ 0) (hclear : s.err.kind = .none)
    (h : tokenStep s = .next t) : Progress s t := by
  cases hfetch : fetchToken s.cfg s.dec.mode s.src s.bits with
  | raise e b =>
    rw [tokenStep_of_raise hr (onBits_eq_raise.mpr ⟨b, hfetch, rfl⟩),
      latch_of_none (s := { s with bits := b }) e hclear] at h
    cases h
    exact .inl (namesError_fetchToken _ _ _ _ e b hfetch)
  | done k b =>
    rw [tokenStep_of_done hr (onBits_eq_done.mpr ⟨b, hfetch, rfl⟩)] at h
    exact progress_runToken (s := { s with bits := b }) hc hr hclear (fun hk => mode_of_fetched_switch (hk ▸ hfetch)) h

/-! ### A RUN to its end (R185) -/

/-- A run goes on from the state that its first step answers. -/
theorem run_of_step {M : Host.Core} {n : Nat} {s t : M.State} (h : M.step s = .next t) : M.run (n + 1) s = M.run n t := by
  rw [Host.Core.run, h]

theorem run_succ {n : Nat} {s t : State} (h : step s = .next t) :
    Host.Core.run core (n + 1) s = Host.Core.run core n t :=
  run_of_step (M := core) h

theorem step_of_script_nil {s : State} (h : s.host.script = []) : step s = coreTurn s := by
  rw [step, transition, h]

/-- With BUSY clear and no host turn left the block stays as it is (R209). -/
theorem run_idle {s : State} (hb : s.ctl.busy = false) (hscript : s.host.script = []) :
    ∀ n, Host.Core.run core n s = .next s
  | 0 => rfl
  | n + 1 => by
    have hstep : step s = .next s := (step_of_script_nil hscript).trans (coreTurn_idle hb)
    rw [run_succ hstep, run_idle hb hscript n]

/-- A RUN in progress with no abort request and no host turn left. -/
structure State.Running (s : State) : Prop where
  cfg : s.cfg.ok
  busy : s.ctl.busy = true
  noRequest : s.ctl.abortReq = false
  script : s.host.script = []

/-- step() keeps the RUN in progress (R182). -/
theorem State.Running.tokenStep {s t : State} (h : s.Running) (ht : tokenStep s = .next t) : t.Running := by
  have hctl := tokenStep_keeps_ctl ht
  have hout := staysInside_tokenStep s t ht
  exact ⟨hout.cfg ▸ h.cfg, hctl ▸ h.busy, hctl ▸ h.noRequest, hout.host ▸ h.script⟩

/-- A RUN that has ended: BUSY is clear, ABORTED is as at its start, and no byte is owed unless an error is latched. -/
structure RunEnded (s t : State) : Prop where
  busy : t.ctl.busy = false
  aborted : t.ctl.aborted = s.ctl.aborted
  finished : t.err.kind = .none → t.win.remaining = 0

/-- At the end of the output or a latched error the next turn ends the RUN, and the block stays so. -/
theorem State.Running.run_of_ended {s : State} (h : s.Running) (hend : s.win.remaining = 0 ∨ s.err.kind ≠ .none)
    (n : Nat) : ∃ t, Host.Core.run core (n + 1) s = .next t ∧ RunEnded s t := by
  have hstep := (step_of_script_nil h.script).trans (coreTurn_of_ended h.busy h.noRequest hend)
  have hidle := run_idle (s := { s with ctl := { s.ctl with busy := false } }) rfl h.script n
  exact ⟨_, (run_succ hstep).trans hidle, rfl, rfl, fun hclear => hend.resolve_right (not_not.mpr hclear)⟩

/-- A RUN ends within as many steps as its measure, and the turn that clears BUSY. -/
theorem State.Running.run_ends {n : Nat} {s : State} (h : s.Running) (hn : s.err.kind ≠ .none ∨ s.runMeasure ≤ n) :
    ∃ t, Host.Core.run core (n + 1) s = .next t ∧ RunEnded s t := by
  induction n generalizing s with
  | zero =>
    refine h.run_of_ended (hn.symm.imp_left fun hzero => ?_) 0
    rw [State.runMeasure] at hzero
    bv_omega
  | succ n ih =>
    by_cases hend : s.win.remaining = 0 ∨ s.err.kind ≠ .none
    · exact h.run_of_ended hend (n + 1)
    obtain ⟨hr, hclear⟩ := not_or.mp hend
    rw [not_not] at hclear
    obtain ⟨u, hu⟩ := answers_tokenStep s
    have hstep : step s = .next u := by
      rw [step_of_script_nil h.script, coreTurn_of_running h.busy h.noRequest hr hclear, hu]
    have hmeasure : u.err.kind ≠ .none ∨ u.runMeasure ≤ n :=
      (progress_tokenStep h.cfg hr hclear hu).imp_right fun hlt => by
        have := hn.resolve_left (not_not.mpr hclear)
        omega
    obtain ⟨t, hrun, hbusy, haborted, hfinished⟩ := ih (h.tokenStep hu) hmeasure
    exact ⟨t, (run_succ hstep).trans hrun, hbusy, tokenStep_keeps_ctl hu ▸ haborted, hfinished⟩

/-- Settles O23: the measure is at most 2R + 1 at the start, and every step lowers it or latches an error. -/
theorem runTerminates : Obligations.RunTerminates := by
  intro s hinv hb hreq hscript
  have hrunning : s.Running := ⟨hinv.cfg, hb, hreq, hscript⟩
  obtain ⟨t, hrun, hbusy, haborted, hfinished⟩ := hrunning.run_ends (.inr s.runMeasure_le)
  exact ⟨t, hrun, hbusy, haborted, hfinished⟩

end Sys2Proof.Machine
end

section
/-! An error that an instruction latches holds the offsets of the state that the instruction leaves (R201): the latch is
the last thing that an instruction does, and InvalidConfig is START's alone. -/

namespace Sys2Proof.Machine

/-! ### Component operations do not raise InvalidConfig (R200) -/

/-- Where the operation raises, its error is not InvalidConfig. -/
def Res.NoInvalidConfig {σ α : Type} (r : Res σ α) : Prop := ∀ e s, r = .raise e s → e ≠ .invalidConfig

theorem noInvalidConfig_done {σ α : Type} (a : α) (s : σ) : (Res.done a s).NoInvalidConfig := by
  rintro _ _ ⟨⟩

theorem noInvalidConfig_raise {σ α : Type} {e : ErrKind} (he : e ≠ .invalidConfig) (s : σ) :
    (Res.raise e s : Res σ α).NoInvalidConfig := by
  rintro _ _ ⟨⟩
  exact he

theorem Res.NoInvalidConfig.bind {σ α β : Type} {r : Res σ α} {f : α → σ → Res σ β} (hr : r.NoInvalidConfig)
    (hf : ∀ a s, (f a s).NoInvalidConfig) : (r.bind f).NoInvalidConfig := by
  intro e t h
  rcases Res.bind_eq_raise.mp h with hraise | ⟨a, u, _, hraise⟩
  · exact hr e t hraise
  · exact hf a u e t hraise

theorem noInvalidConfig_consume (src : Memory) (n : Nat) (b : BitReader) : (b.consume src n).NoInvalidConfig := by
  rcases b.consume_cases src n with ⟨_, h⟩ | ⟨_, h⟩ <;> rw [h]
  · exact noInvalidConfig_done _ _
  · exact noInvalidConfig_raise (by decide) _

theorem noInvalidConfig_decodeWith (c : Config) (t : TableSel) (src : Memory) (b : BitReader) :
    (decodeWith c t src b).NoInvalidConfig := by
  rcases b.decodeSymbol_cases (classify (c.table t).1 (c.table t).2) src with
    ⟨_, h⟩ | ⟨v, k, _, ⟨_, h⟩ | ⟨_, h⟩⟩ <;> rw [decodeWith, h]
  · exact noInvalidConfig_raise (by decide) _
  · exact noInvalidConfig_done _ _
  · exact noInvalidConfig_raise (by decide) _

theorem noInvalidConfig_fetchRest (c : Config) (src : Memory) (b : BitReader) :
    (fetchRest c src b).NoInvalidConfig := by
  unfold fetchRest
  refine (noInvalidConfig_consume _ _ _).bind fun _ _ => ?_
  split
  · exact noInvalidConfig_done _ _
  · exact (noInvalidConfig_consume _ _ _).bind fun _ _ => (noInvalidConfig_decodeWith _ _ _ _).bind fun _ _ =>
      (noInvalidConfig_consume _ _ _).bind fun _ _ => noInvalidConfig_done _ _

theorem noInvalidConfig_fetchToken (c : Config) (m : Mode) (src : Memory) (b : BitReader) :
    (fetchToken c m src b).NoInvalidConfig := by
  refine (noInvalidConfig_decodeWith _ _ _ _).bind fun _ _ => ?_
  cases m with
  | lh => exact noInvalidConfig_done _ _
  | rl =>
    dsimp only
    split_ifs
    · exact noInvalidConfig_done _ _
    · exact noInvalidConfig_fetchRest _ _ _
    · exact noInvalidConfig_done _ _

theorem noInvalidConfig_promoteLoop (r : Byte) : ∀ (n : Nat) (t : SymTable),
    (SymTable.promoteLoop r n t).NoInvalidConfig
  | 0, t => by
    unfold SymTable.promoteLoop
    split
    · exact noInvalidConfig_raise (by decide) _
    · exact noInvalidConfig_done _ _
  | n + 1, t => by
    unfold SymTable.promoteLoop
    split
    · exact noInvalidConfig_promoteLoop r n _
    · exact noInvalidConfig_done _ _

theorem noInvalidConfig_promote (c : Config) (r : Byte) (t : SymTable) : (t.promote c r).NoInvalidConfig := by
  unfold SymTable.promote
  split
  · exact noInvalidConfig_done _ _
  · exact noInvalidConfig_promoteLoop _ _ _

theorem noInvalidConfig_push (b : Byte) (w : Window) : (w.push b).NoInvalidConfig := by
  rcases w.push_cases b with ⟨_, h⟩ | ⟨_, h⟩ <;> rw [h]
  · exact noInvalidConfig_raise (by decide) _
  · exact noInvalidConfig_done _ _

theorem noInvalidConfig_escape (w : Window) : w.escape.NoInvalidConfig := by
  rcases w.escape_cases with ⟨_, h⟩ | ⟨_, h⟩ <;> rw [h]
  · exact noInvalidConfig_raise (by decide) _
  · exact noInvalidConfig_done _ _

theorem noInvalidConfig_copyBack (far : FarDist) (dist len : Nat) (w : Window) :
    (w.copyBack far dist len).NoInvalidConfig := by
  rcases w.copyBack_cases far dist len with ⟨_, h⟩ | ⟨_, _, _, ⟨_, h⟩ | ⟨_, h⟩⟩ <;> rw [h]
  · exact noInvalidConfig_raise (by decide) _
  · exact noInvalidConfig_raise (by decide) _
  · exact noInvalidConfig_done _ _

/-! ### Operations on the state that leave the latch to their caller -/

/-- The operation latches nothing itself, and an error that it raises for its caller to latch is not InvalidConfig. -/
structure Res.Unlatched {α : Type} (r : Res State α) : Prop where
  clear : r.state.err.kind = .none
  noInvalidConfig : r.NoInvalidConfig

theorem unlatched_done {α : Type} {s : State} (hs : s.err.kind = .none) (a : α) : (Res.done a s).Unlatched :=
  ⟨hs, noInvalidConfig_done a s⟩

theorem Res.Unlatched.bind {α β : Type} {r : Res State α} {f : α → State → Res State β} (hr : r.Unlatched)
    (hf : ∀ a s, s.err.kind = .none → (f a s).Unlatched) : (r.bind f).Unlatched := by
  cases r with
  | done a s => exact hf a s hr.clear
  | raise e s => exact ⟨hr.clear, noInvalidConfig_raise (hr.noInvalidConfig e s rfl) s⟩

section
variable {α : Type} {s : State} (hs : s.err.kind = .none)
include hs

theorem unlatched_onBits {f : BitReader → Res BitReader α} (hf : (f s.bits).NoInvalidConfig) :
    (onBits f s).Unlatched := by
  refine ⟨by rwa [onBits_state], fun e u h => ?_⟩
  obtain ⟨b, hraise, _⟩ := onBits_eq_raise.mp h
  exact hf e b hraise

theorem unlatched_onTab {f : SymTable → Res SymTable α} (hf : (f s.tab).NoInvalidConfig) :
    (onTab f s).Unlatched := by
  refine ⟨by rwa [onTab_state], fun e u h => ?_⟩
  obtain ⟨t, hraise, _⟩ := onTab_eq_raise.mp h
  exact hf e t hraise

theorem unlatched_onWin {f : Window → Res Window α} (hf : (f s.win).NoInvalidConfig) :
    (onWin f s).Unlatched := by
  refine ⟨by rwa [onWin_state], fun e u h => ?_⟩
  obtain ⟨w, hraise, _⟩ := onWin_eq_raise.mp h
  exact hf e w hraise

/-- The literal path latches nothing in any of its parts (R156). -/
theorem unlatched_literal (q : Byte) (counting : Bool) : (literal q counting s).Unlatched := by
  refine .bind (unlatched_onWin hs (noInvalidConfig_push _ _)) fun _ pushed hpushed => ?_
  refine .bind (unlatched_onTab ?_ (noInvalidConfig_promote _ _ _)) fun _ promoted hpromoted => ?_
  · exact hpushed
  · refine unlatched_done ?_ ()
    split
    · exact hpromoted
    · exact hpromoted

end

/-! ### The record of the state that is left (R201) -/

/-- A latched error holds the offsets of the state that it stands in, and is not InvalidConfig. -/
def State.RecordCurrent (t : State) : Prop :=
  t.err.kind ≠ .none → t.err.inOff = t.bits.srcPos ∧ t.err.outOff = t.win.produced ∧ t.err.kind ≠ .invalidConfig

theorem recordCurrent_of_clear {t : State} (h : t.err.kind = .none) : t.RecordCurrent := fun hne => absurd h hne

theorem recordCurrent_latch {e : ErrKind} {s : State} (hs : s.err.kind = .none) (he : e ≠ .invalidConfig) :
    (latch e s).RecordCurrent := by
  rw [latch_of_none e hs]
  exact fun _ => ⟨rfl, rfl, he⟩

/-- The caller of an operation that raises latches the error in the state that the operation leaves. -/
theorem Res.Unlatched.recordCurrent_latch {α : Type} {e : ErrKind} {s : State}
    (h : (Res.raise e s : Res State α).Unlatched) : (latch e s).RecordCurrent :=
  Machine.recordCurrent_latch h.clear (h.noInvalidConfig e s rfl)

theorem recordCurrent_illegal {s : State} (hs : s.err.kind = .none) : (illegal s).RecordCurrent := by
  rw [illegal, if_pos hs]
  exact recordCurrent_latch hs (by decide)

/-! ### Meanings -/

/-- Where no error is latched and the meaning answers, an error in its answer holds the answer's offsets. -/
def RecordsCurrent (f : Meaning) : Prop := ∀ s t, s.err.kind = .none → f s = .next t → t.RecordCurrent

theorem recordsCurrent_next {g : State → State} (h : ∀ s, s.err.kind = .none → (g s).RecordCurrent) :
    RecordsCurrent fun s => .next (g s) := by
  rintro s _ hs ⟨⟩
  exact h s hs

theorem recordsCurrent_settle {r : State → Res State Unit} (h : ∀ s, s.err.kind = .none → (r s).Unlatched) :
    RecordsCurrent fun s => .next (settle (r s)) :=
  recordsCurrent_next fun s hs => match r s, h s hs with
  | .done _ _, hr => recordCurrent_of_clear hr.clear
  | .raise _ _, hr => hr.recordCurrent_latch

theorem recordsCurrent_deliver {r : State → Res State Word} (h : ∀ s, s.err.kind = .none → (r s).Unlatched) :
    RecordsCurrent fun s => .next (deliver (r s)) :=
  recordsCurrent_next fun s hs => match r s, h s hs with
  | .done _ _, hr => recordCurrent_of_clear hr.clear
  | .raise _ _, hr => hr.recordCurrent_latch

/-- A meaning that leaves the record alone. -/
theorem recordsCurrent_of_err {g : State → State} (h : ∀ s, (g s).err = s.err) : RecordsCurrent fun s => .next (g s) :=
  recordsCurrent_next fun s hs => recordCurrent_of_clear (by rwa [h])

theorem recordsCurrent_gates {f : Meaning} (h : RecordsCurrent f) :
    RecordsCurrent (whenIdle f) ∧ (∀ ok, RecordsCurrent (whenLegal ok f)) ∧ RecordsCurrent (whenActive f) ∧
      RecordsCurrent (whenClear f) := by
  have gates (s : State) (hs : s.err.kind = .none) := gates_keep State.RecordCurrent (f := f) (s := s)
    (recordCurrent_of_clear hs) (recordCurrent_illegal hs) (fun t => h s t hs)
  exact ⟨fun s t hs => (gates s hs).1 t, fun ok s t hs => (gates s hs).2.1 ok t,
    fun s t hs => (gates s hs).2.2.1 t, fun s t hs => (gates s hs).2.2.2 t⟩

theorem RecordsCurrent.whenIdle {f : Meaning} (h : RecordsCurrent f) : RecordsCurrent (whenIdle f) :=
  (recordsCurrent_gates h).1

theorem RecordsCurrent.whenLegal {f : Meaning} (h : RecordsCurrent f) (ok : State → Bool) :
    RecordsCurrent (whenLegal ok f) := (recordsCurrent_gates h).2.1 ok

theorem RecordsCurrent.whenActive {f : Meaning} (h : RecordsCurrent f) : RecordsCurrent (whenActive f) :=
  (recordsCurrent_gates h).2.2.1

theorem RecordsCurrent.whenClear {f : Meaning} (h : RecordsCurrent f) : RecordsCurrent (whenClear f) :=
  (recordsCurrent_gates h).2.2.2

/-- The gates of an inspection command (R180). -/
theorem RecordsCurrent.inspecting {f : Meaning} (h : RecordsCurrent f) :
    RecordsCurrent (Machine.whenIdle (Machine.whenActive f)) := h.whenActive.whenIdle

/-- The gates of a mutating command (R180). -/
theorem RecordsCurrent.mutating {f : Meaning} (h : RecordsCurrent f) :
    RecordsCurrent (Machine.whenIdle (Machine.whenActive (Machine.whenClear f))) := h.whenClear.inspecting

/-- Every token latches, if anything, the error of its one operation, last (R151 to R155). -/
theorem recordsCurrent_runToken : ∀ k : Token, RecordsCurrent (runToken k)
  | .litLH r => recordsCurrent_settle fun _ hs => unlatched_literal hs r true
  | .litRL r => recordsCurrent_settle fun s hs => unlatched_literal hs (literalRank s.cfg r) false
  | .esc => recordsCurrent_settle fun _ hs => unlatched_onWin hs (noInvalidConfig_escape _)
  | .switch => recordsCurrent_of_err fun _ => rfl
  | .backref _ _ _ => recordsCurrent_settle fun _ hs => unlatched_onWin hs (noInvalidConfig_copyBack _ _ _ _)

/-- An error in the reading is latched in the state that the reading leaves, and else the token has its own (R202). -/
theorem recordsCurrent_tokenStep : RecordsCurrent tokenStep := by
  intro s t hs h
  by_cases hr : s.win.remaining = 0
  · rw [tokenStep_of_finished hr] at h
    cases h
    exact recordCurrent_of_clear hs
  have hread : (onBits (fetchToken s.cfg s.dec.mode s.src) s).Unlatched :=
    unlatched_onBits hs (noInvalidConfig_fetchToken _ _ _ _)
  cases hfetch : onBits (fetchToken s.cfg s.dec.mode s.src) s with
  | raise e u =>
    rw [tokenStep_of_raise hr hfetch] at h
    rw [hfetch] at hread
    cases h
    exact hread.recordCurrent_latch
  | done k u =>
    rw [tokenStep_of_done hr hfetch] at h
    rw [hfetch] at hread
    exact recordsCurrent_runToken k u t hread.clear h

/-- ABORT makes its request while BUSY, and has the gate for ACTIVE alone otherwise (R183). -/
theorem recordsCurrent_abort : RecordsCurrent (exec .abort) := by
  intro s t hs h
  cases hb : s.ctl.busy with
  | true =>
    rw [exec, execAbort, if_pos hb] at h
    cases h
    exact recordCurrent_of_clear hs
  | false =>
    rw [exec_abort_idle hb] at h
    exact (recordsCurrent_of_err fun _ => rfl).whenActive s t hs h

/-- Every instruction but START, whose InvalidConfig has the offsets 0 (R181). -/
theorem recordsCurrent_exec : ∀ i : Instr, i ≠ .start → RecordsCurrent (exec i)
  | .start, h => absurd rfl h
  | .nop, _ => (recordsCurrent_of_err fun _ => rfl).whenIdle
  | .step, _ => recordsCurrent_tokenStep.mutating
  | .run, _ => .mutating (recordsCurrent_of_err fun _ => rfl)
  | .abort, _ => recordsCurrent_abort
  | .peek, _ => .mutating (recordsCurrent_deliver fun _ hs => unlatched_onBits hs (noInvalidConfig_done _ _))
  | .consume _, _ => .whenIdle (.whenLegal (.whenActive (.whenClear
      (recordsCurrent_settle fun _ hs => unlatched_onBits hs (noInvalidConfig_consume _ _ _)))) _)
  | .decode _, _ => .mutating (recordsCurrent_deliver fun _ hs =>
      .bind (unlatched_onBits hs (noInvalidConfig_decodeWith _ _ _ _)) fun _ _ hu => unlatched_done hu _)
  | .lookup _, _ => .inspecting (recordsCurrent_of_err fun _ => rfl)
  | .promote _, _ => .mutating (recordsCurrent_settle fun _ hs => unlatched_onTab hs (noInvalidConfig_promote _ _ _))
  | .correct, _ => .mutating (recordsCurrent_of_err fun _ => rfl)
  | .push _, _ => .mutating (recordsCurrent_settle fun _ hs => unlatched_onWin hs (noInvalidConfig_push _ _))
  | .copy _ _, _ => .mutating (recordsCurrent_settle fun _ hs =>
      unlatched_onWin hs (noInvalidConfig_copyBack _ _ _ _))
  | .rdwin _, _ => by
    refine .whenIdle (.whenLegal (.whenActive (recordsCurrent_deliver fun _ hs => unlatched_onWin hs ?_)) _)
    exact noInvalidConfig_done _ _
  | .rdpc _, _ => .inspecting (recordsCurrent_of_err fun _ => rfl)
  | .reserved _, _ => (recordsCurrent_next fun _ hs => recordCurrent_illegal hs).whenIdle
  | .litLH r, _ => recordsCurrent_runToken (.litLH r)
  | .litRL r, _ => recordsCurrent_runToken (.litRL r)
  | .esc, _ => recordsCurrent_runToken .esc
  | .switch, _ => recordsCurrent_runToken .switch
  | .backref l d e, _ => recordsCurrent_runToken (.backref l d e)

/-- Settles O51: every instruction but START latches at most once and last, so its record is current. -/
theorem errorRecordHoldsTheOffsets : Obligations.ErrorRecordHoldsTheOffsets :=
  fun i s t hi hs h => recordsCurrent_exec i hi s t hs h

end Sys2Proof.Machine
end

section
/-! Hardware reset (R230), and the CFG registers at every other time (R233): only START reads them, so an instruction
other than START commutes with putting other values into them. -/

namespace Sys2Proof.Machine

/-! ### Hardware reset (R230) -/

/-- Settles O3: the host's turn on a reset is the reset of the state that has taken it from the script. -/
theorem hardwareResetMove : Obligations.HardwareResetMove := by
  intro s h
  rw [step_of_nextMove h, hostTurn, hardReset, State.advanced]

/-! ### Operations on a state with other CFG registers -/

/-- The state with other CFG registers. -/
def State.withCfgRegs (c : CfgRegs) (s : State) : State := { s with cfgRegs := c }

/-- The end of an operation, on the state with other CFG registers. -/
def Res.withCfgRegs {α : Type} (c : CfgRegs) : Res State α → Res State α
  | .done a s => .done a (s.withCfgRegs c)
  | .raise e s => .raise e (s.withCfgRegs c)

section
variable {α β : Type} (c : CfgRegs) (s : State)

theorem onBits_withCfgRegs (f : BitReader → Res BitReader α) :
    onBits f (s.withCfgRegs c) = (onBits f s).withCfgRegs c := by
  unfold onBits State.withCfgRegs
  cases f s.bits <;> rfl

theorem onTab_withCfgRegs (f : SymTable → Res SymTable α) :
    onTab f (s.withCfgRegs c) = (onTab f s).withCfgRegs c := by
  unfold onTab State.withCfgRegs
  cases f s.tab <;> rfl

theorem onWin_withCfgRegs (f : Window → Res Window α) :
    onWin f (s.withCfgRegs c) = (onWin f s).withCfgRegs c := by
  unfold onWin State.withCfgRegs
  cases f s.win <;> rfl

theorem Res.bind_withCfgRegs {c : CfgRegs} (r : Res State α) {f f' : α → State → Res State β}
    (h : ∀ a u, f' a (u.withCfgRegs c) = (f a u).withCfgRegs c) :
    (r.withCfgRegs c).bind f' = (r.bind f).withCfgRegs c := by
  cases r with
  | done a u => exact h a u
  | raise e u => rfl

theorem latch_withCfgRegs (e : ErrKind) : latch e (s.withCfgRegs c) = (latch e s).withCfgRegs c := by
  by_cases he : s.err.kind = .none
  · rw [latch_of_none e he]
    exact latch_of_none e he
  · rw [latch_of_latched e he]
    exact latch_of_latched e he

theorem illegal_withCfgRegs : illegal (s.withCfgRegs c) = (illegal s).withCfgRegs c := by
  rw [illegal, illegal, apply_ite (State.withCfgRegs c), ← latch_withCfgRegs]
  rfl

theorem settle_withCfgRegs (r : Res State Unit) : settle (r.withCfgRegs c) = (settle r).withCfgRegs c := by
  cases r with
  | done a u => rfl
  | raise e u => exact latch_withCfgRegs c u e

theorem deliver_withCfgRegs (r : Res State Word) : deliver (r.withCfgRegs c) = (deliver r).withCfgRegs c := by
  cases r with
  | done v u => rfl
  | raise e u => exact latch_withCfgRegs c u e

/-- No part of the literal path reads or writes a CFG register (R156). -/
theorem literal_withCfgRegs (q : Byte) (counting : Bool) :
    literal q counting (s.withCfgRegs c) = (literal q counting s).withCfgRegs c := by
  unfold literal
  rw [onWin_withCfgRegs]
  refine Res.bind_withCfgRegs _ fun _ pushed => ?_
  have htab := onTab_withCfgRegs c { pushed with dec := pushed.dec.estimate pushed.cfg.nhfbStep q }
    (SymTable.promote pushed.cfg q)
  refine (congrArg (Res.bind · _) htab).trans (Res.bind_withCfgRegs _ fun _ promoted => ?_)
  cases counting <;> rfl

end

/-! ### Meanings that do not see the CFG registers (R233) -/

/-- Where the meaning answers, it answers in the state with any other CFG registers, and the answer has those. -/
def ConfigBlind (f : Meaning) : Prop := ∀ c s t, f s = .next t → f (s.withCfgRegs c) = .next (t.withCfgRegs c)

theorem configBlind_next {g : State → State} (h : ∀ c s, g (s.withCfgRegs c) = (g s).withCfgRegs c) :
    ConfigBlind fun s => .next (g s) := by
  rintro c s _ ⟨⟩
  exact congrArg _ (h c s)

theorem configBlind_settle {r : State → Res State Unit} (h : ∀ c s, r (s.withCfgRegs c) = (r s).withCfgRegs c) :
    ConfigBlind fun s => .next (settle (r s)) :=
  configBlind_next fun c s => by rw [h, settle_withCfgRegs]

theorem configBlind_deliver {r : State → Res State Word} (h : ∀ c s, r (s.withCfgRegs c) = (r s).withCfgRegs c) :
    ConfigBlind fun s => .next (deliver (r s)) :=
  configBlind_next fun c s => by rw [h, deliver_withCfgRegs]

/-- A choice between blind meanings that does not look at the CFG registers is blind; each gate of R180 is one. -/
theorem ConfigBlind.ite {p : State → Prop} [DecidablePred p] {f g : Meaning}
    (hp : ∀ c s, p (s.withCfgRegs c) ↔ p s) (hf : ConfigBlind f) (hg : ConfigBlind g) :
    ConfigBlind fun s => if p s then f s else g s := by
  intro c s t h
  by_cases hs : p s
  · simp only [if_pos hs, if_pos ((hp c s).mpr hs)] at h ⊢
    exact hf c s t h
  · simp only [if_neg hs, if_neg (mt (hp c s).mp hs)] at h ⊢
    exact hg c s t h

theorem configBlind_dropped : ConfigBlind fun s => .next (dropped s) := configBlind_next fun _ _ => rfl

theorem configBlind_illegal : ConfigBlind fun s => .next (illegal s) := configBlind_next illegal_withCfgRegs

theorem ConfigBlind.whenIdle {f : Meaning} (h : ConfigBlind f) : ConfigBlind (whenIdle f) :=
  .ite (fun _ _ => .rfl) configBlind_dropped h

theorem ConfigBlind.whenLegal {ok : State → Bool} {f : Meaning} (hok : ∀ c s, ok (s.withCfgRegs c) = ok s)
    (h : ConfigBlind f) : ConfigBlind (whenLegal ok f) :=
  .ite (fun c s => by rw [hok]) h configBlind_illegal

theorem ConfigBlind.whenActive {f : Meaning} (h : ConfigBlind f) : ConfigBlind (whenActive f) :=
  .ite (fun _ _ => .rfl) h configBlind_illegal

theorem ConfigBlind.whenClear {f : Meaning} (h : ConfigBlind f) : ConfigBlind (whenClear f) :=
  .ite (fun _ _ => .rfl) h configBlind_dropped

/-- The gates of an inspection command (R180). -/
theorem ConfigBlind.inspecting {f : Meaning} (h : ConfigBlind f) :
    ConfigBlind (Machine.whenIdle (Machine.whenActive f)) := h.whenActive.whenIdle

/-- The gates of a mutating command (R180). -/
theorem ConfigBlind.mutating {f : Meaning} (h : ConfigBlind f) :
    ConfigBlind (Machine.whenIdle (Machine.whenActive (Machine.whenClear f))) := h.whenClear.inspecting

theorem configBlind_nop : ConfigBlind fun s => .next s := configBlind_next fun _ _ => rfl

theorem configBlind_runToken : ∀ k : Token, ConfigBlind (runToken k)
  | .litLH r => configBlind_settle fun c s => literal_withCfgRegs c s r true
  | .litRL r => configBlind_settle fun c s => literal_withCfgRegs c s (literalRank s.cfg r) false
  | .esc => configBlind_settle fun c s => onWin_withCfgRegs c s _
  | .switch => configBlind_next fun _ _ => rfl
  | .backref _ _ _ => configBlind_settle fun c s => onWin_withCfgRegs c s _

/-- The session's own copies of length and capacity are read, never the CFG registers (R150, R233). -/
theorem configBlind_tokenStep : ConfigBlind tokenStep := by
  intro c s t h
  by_cases hr : s.win.remaining = 0
  · rw [tokenStep_of_finished hr] at h
    cases h
    exact tokenStep_of_finished hr
  have hreads := onBits_withCfgRegs c s (fetchToken s.cfg s.dec.mode s.src)
  cases hfetch : onBits (fetchToken s.cfg s.dec.mode s.src) s with
  | raise e u =>
    rw [hfetch] at hreads
    rw [tokenStep_of_raise hr hfetch] at h
    cases h
    rw [← latch_withCfgRegs]
    exact tokenStep_of_raise hr hreads
  | done k u =>
    rw [hfetch] at hreads
    rw [tokenStep_of_done hr hfetch] at h
    exact (tokenStep_of_done (s := s.withCfgRegs c) hr hreads).trans (configBlind_runToken k c u t h)

/-- Every row of the opcode table but START's, by its gates and its one operation. -/
theorem configBlind_exec : ∀ i : Instr, i ≠ .start → ConfigBlind (exec i)
  | .start, h => absurd rfl h
  | .nop, _ => configBlind_nop.whenIdle
  | .step, _ => configBlind_tokenStep.mutating
  | .run, _ => .mutating (configBlind_next fun _ _ => rfl)
  | .abort, _ => .ite (fun _ _ => .rfl) (configBlind_next fun _ _ => rfl) configBlind_nop.whenActive
  | .peek, _ => .mutating (configBlind_deliver fun c s => onBits_withCfgRegs c s _)
  | .consume _, _ => .whenIdle (.whenLegal (fun _ _ => rfl) (.whenActive (.whenClear
      (configBlind_settle fun c s => onBits_withCfgRegs c s _))))
  | .decode t, _ => .mutating (configBlind_deliver fun c s =>
      (congrArg (Res.bind · _) (onBits_withCfgRegs c s (decodeWith s.cfg t s.src))).trans
        (Res.bind_withCfgRegs _ fun _ _ => rfl))
  | .lookup _, _ => .inspecting (configBlind_next fun _ _ => rfl)
  | .promote _, _ => .mutating (configBlind_settle fun c s => onTab_withCfgRegs c s _)
  | .correct, _ => .mutating (configBlind_next fun _ _ => rfl)
  | .push _, _ => .mutating (configBlind_settle fun c s => onWin_withCfgRegs c s _)
  | .copy _ _, _ => .mutating (configBlind_settle fun c s => onWin_withCfgRegs c s _)
  | .rdwin _, _ => .whenIdle (.whenLegal (fun _ _ => rfl) (.whenActive
      (configBlind_deliver fun c s => onWin_withCfgRegs c s _)))
  | .rdpc _, _ => .inspecting (configBlind_next fun _ _ => rfl)
  | .reserved _, _ => configBlind_illegal.whenIdle
  | .litLH r, _ => configBlind_runToken (.litLH r)
  | .litRL r, _ => configBlind_runToken (.litRL r)
  | .esc, _ => configBlind_runToken .esc
  | .switch, _ => configBlind_runToken .switch
  | .backref l d e, _ => configBlind_runToken (.backref l d e)

/-- Settles O59: every instruction but START is blind to the CFG registers. -/
theorem onlyStartReadsConfiguration : Obligations.OnlyStartReadsConfiguration :=
  fun i s t c hi h => configBlind_exec i hi c s t h

end Sys2Proof.Machine
end
